-- ==== Sys2Proof/Word.lean ====
section
/-! DEFINITION. The word types of the block (rules R9 and R10 of spec/00_scope.md). -/

namespace Sys2Proof

/-- `u8` of rule R9. -/
abbrev U8 := BitVec 8

/-- `u16` of rule R9: byte counts and byte indexes. -/
abbrev U16 := BitVec 16

/-- `u32` of rule R9: the cycle counter, byte addresses, cycle counts, frequencies. -/
abbrev U32 := BitVec 32

/-- A pin number, the 6 bits of rule R72. -/
abbrev Pin := BitVec 6

/-- The levels of the output lines, bit p for line p (rule R28; `NPINS` is at most 64, rule R8). -/
abbrev Lines := BitVec 64

end Sys2Proof
end

