-- ==== Sys2Proof/Config.lean ====
section
/-! DEFINITION. The parameters of rule R8 (spec/00_scope.md) as plain data, and the allocator's free answers. -/

namespace Sys2Proof

/-- The parameters of rule R8 that are numbers. State holds one `Params`, no step changes it, and a statement
about every state is a statement about every value of every parameter (assumption log 2). -/
structure Params where
  /-- `COMP`: cycles taken off both high times (R94). -/
  comp : Nat
  /-- `NPINS`: number of lines the block can select, 1 to 64. -/
  npins : Nat
  /-- `SPECIAL_PIN`: no effect on the waveform (R28). -/
  specialPin : Option Pin
  /-- `BTG_BASE`: byte address of the first command register. -/
  btgBase : U32
  /-- `T_LATCH`: idle cycles the host must leave between frames; the block does not enforce it (R206). -/
  tLatch : Nat
  /-- `STACK_THRESHOLD`: largest scratch buffer taken from the stack (R144). -/
  stackThreshold : Nat
  /-- `BRIGHTNESS_RESET` (R191). -/
  brightnessReset : U8
  /-- `DIV800_T0H` in Hz (R92). -/
  div800T0H : Nat
  /-- `DIV800_T1H` in Hz (R92). -/
  div800T1H : Nat
  /-- `DIV800_PERIOD` in Hz (R92). -/
  div800Period : Nat
  /-- `DIV400_T0H` in Hz (R93). -/
  div400T0H : Nat
  /-- `DIV400_T1H` in Hz (R93). -/
  div400T1H : Nat
  /-- `DIV400_PERIOD` in Hz (R93). -/
  div400Period : Nat
  deriving DecidableEq, Repr

/-- The values of rule R8 where it fixes or recommends one (the divisors, `COMP` = 0, `BRIGHTNESS_RESET` = 255).
DESIGN CHOICE (log 2) for the parameters rule R8 leaves OPEN: 64 lines, no special pin, base 0, no latch time,
no stack buffers ("threshold zero"). -/
def Params.standard : Params where
  comp := 0
  npins := 64
  specialPin := none
  btgBase := 0
  tLatch := 0
  stackThreshold := 0
  brightnessReset := 255
  div800T0H := 2500000
  div800T1H := 1250000
  div800Period := 800000
  div400T0H := 2000000
  div400T1H := 833333
  div400Period := 400000

/-- Free value (U11, R145): the allocator's answer to heap request number `k`, `none` for failure. It has no body,
so a statement about it holds for every answer (log 15). -/
opaque Config.heapAnswer (k : Nat) : Option U32

/-- Free value (R57, R146): where the stack places scratch buffer number `k` (log 15). -/
opaque Config.stackAddress (k : Nat) : U32

end Sys2Proof
end

