-- ==== Sys2Proof/Machine/State.lean ====
section
/-! DEFINITION. The machine's state as plain data (spec/10_state.md), its reset value (rule R191) and the reasons a
step can stop. -/

namespace Sys2Proof.Machine

/-- The three values of `phase` (R21). -/
inductive Phase where
  | idle
  | high
  | low
  deriving DecidableEq, Repr

/-- The state of the block, the tuple of rule R20. -/
structure Block where
  /-- The sequencer's phase (R21). -/
  phase : Phase
  /-- The byte being sent (R23). -/
  pix : U8
  /-- The bit of that byte being sent, 7 first (R23). -/
  bitIdx : BitVec 3
  /-- The index of the byte being sent (R23). -/
  byteIdx : U16
  /-- The value of `cc` in the first cycle of the current cell (R24). -/
  startTime : U32
  /-- The latched pin (R25). -/
  pinL : Pin
  /-- The latched buffer address (R25). -/
  bufL : U32
  /-- The latched byte count (R25). -/
  lenL : U16
  /-- The latched rate: true is 800 kHz (R25). -/
  is800L : Bool
  /-- High time of a 0 bit in cycles (R26). -/
  time0 : U32
  /-- High time of a 1 bit in cycles (R26). -/
  time1 : U32
  /-- Cell length in cycles (R26). -/
  period : U32
  /-- Register `BTG_BUF` (R29). -/
  buf : U32
  /-- Register `BTG_LEN`, bits 15:0 (R29). -/
  len : U16
  deriving DecidableEq, Repr

/-- Data memory: the bytes that differ from what an unlisted address reads as, by rising address (log 5). -/
abbrev Memory := List Host.Cell

/-- The two places of rule R144. -/
inductive AllocPlace where
  | stack
  | heap
  deriving DecidableEq, Repr

/-- The scratch buffer held during one `show()` (R39, R146). -/
structure Scratch where
  base : U32
  place : AllocPlace
  deriving DecidableEq, Repr

/-- Where the host's driver stands in a `show()`: the state machine of rule R152, with `Transmit` taken apart as rule R83
expands it. Each stage but the two waits takes one clock cycle (log 13). -/
inductive CallStage where
  /-- No call is in progress. -/
  | idle
  /-- `Allocate` (R144, R145). -/
  | allocate
  /-- `Copy`, and the swap of the pointer (R147). -/
  | copy
  /-- `Scale` (R149). -/
  | scale
  /-- Wait until `BTG_STATUS.BUSY = 0`, one poll a cycle (R83). -/
  | waitIdle
  /-- Write `BTG_BUF` (R83). -/
  | writeBuf
  /-- Write `BTG_LEN` (R83). -/
  | writeLen
  /-- Write `BTG_CTRL` (R83). -/
  | writeCtrl
  /-- Wait until `BTG_STATUS.BUSY = 0` again: the call blocks until the transmission has ended (R83). -/
  | waitDone
  /-- `Swap-back` (R150). -/
  | swapBack
  /-- `Free` (R151). -/
  | free
  deriving DecidableEq, Repr

/-- The host driver's state (R38, R39). -/
structure Driver where
  /-- The driver's own brightness (R39). -/
  brightness : U8
  /-- The raw buffer pointer, `none` for null (R39). DESIGN CHOICE (log 31): null is a value apart from every address, so
  `some 0` is a buffer at address 0 and no null pointer. -/
  pixels : Option U32
  /-- The byte count of the buffer (R39, log 27). -/
  numBytes : U16
  /-- The buffer-holder's pin (R39). -/
  pin : Pin
  /-- The 800/400 kHz selection: true is 800 kHz (R39). -/
  is800 : Bool
  /-- The scaling routine's "last applied brightness" (R38). -/
  cache : Option U8
  /-- The scratch buffer, during one `show()` only (R39). -/
  scratch : Option Scratch
  /-- The saved original pointer, during one `show()` only (R39). -/
  saved : Option U32
  /-- How many entries the diagnostic log has (R145, log 29). -/
  logs : Nat
  /-- Where a `show()` in progress stands (R152). -/
  stage : CallStage
  deriving DecidableEq, Repr

/-- The allocator's side (R185 (3), log 15): answers given in advance, oldest first, and the number of requests so
far, which numbers the free answers taken when none is given in advance. -/
structure Allocator where
  heapScript : List (Option U32)
  stackScript : List U32
  heapRequests : Nat
  stackRequests : Nat
  deriving DecidableEq, Repr

/-- A segment of the waveform (R13): a level held for `cycles` cycles. -/
structure Segment where
  level : Bool
  cycles : Nat
  deriving DecidableEq, Repr

/-- The recorder of rules R131 and R182, and the reads of rule R53, for the transmission last started; both newest
first (log 23). -/
structure Observed where
  wave : List Segment
  reads : List U32
  deriving DecidableEq, Repr

/-- Width of a register-bus access; only `word` is legal (R56). -/
inductive Width where
  | byte
  | half
  | word
  deriving DecidableEq, Repr

/-- What the outside world does in one clock cycle, or from one on (R33, R185; log 1). -/
inductive Stimulus where
  /-- A cycle in which nothing arrives. -/
  | quiet
  /-- A write on the register bus (R29). -/
  | regWrite (width : Width) (addr data : U32)
  /-- A read on the register bus (R29, R32). -/
  | regRead (width : Width) (addr : U32)
  /-- `read_cycle_counter()` (R27). -/
  | readCounter
  /-- The host stores a byte in data memory (R60, R61). -/
  | memStore (addr : U32) (v : U8)
  /-- The level of port `f_cpu` becomes `hz` (R33, R90). -/
  | clockRate (hz : U32)
  /-- The buffer-holder is given its buffer, pin and rate (R39, R193). -/
  | configure (pixels : Option U32) (numBytes : U16) (pin : Pin) (is800 : Bool)
  /-- `rst` is asserted in this cycle (R191, R192). -/
  | reset
  /-- The host calls the driver with this call word (R85). -/
  | call (c : BitVec 9)
  /-- The wire's view: the cell that begins now runs whole as one step (R85, log 11). -/
  | cell
  /-- The host polls `BUSY`, one poll a cycle, until it is 0 (R83). -/
  | waitIdle
  deriving DecidableEq, Repr

/-- The whole machine: the block (R20), the platform state it uses (R27, R28), data memory (R35), the input levels and
the bus (R33), the host driver (R39), the parameters (R8), and the model's own fields. -/
structure State where
  /-- The block's registers (R20). -/
  blk : Block
  /-- The free-running cycle counter (R27). -/
  cc : U32
  /-- The output lines (R28). -/
  gpio : Lines
  /-- Data memory (R35, R52). -/
  mem : Memory
  /-- The level of the input port `f_cpu` in Hz (R33). -/
  fCpu : U32
  /-- The data the last bus or counter read gave the host (R33, log 19). -/
  busData : U32
  /-- The host driver (R39). -/
  drv : Driver
  /-- The parameters (R8, log 2). -/
  params : Params
  /-- Model's own: the host has written `BTG_BUF` since reset (R191, log 8). -/
  bufWritten : Bool
  /-- Model's own: the host has written `BTG_LEN` since reset (R191, log 8). -/
  lenWritten : Bool
  /-- Model's own: what the outside world does next, oldest first (log 1). -/
  stimuli : List Stimulus
  /-- Model's own: the allocator's answers (R185, log 15). -/
  alloc : Allocator
  /-- Model's own: the recorder of the line and of the reads (R131, R53, log 23). -/
  obs : Observed
  deriving DecidableEq, Repr

/-- There is no fault: "The block raises no synchronous exception. The set of exception causes is empty" (R170). -/
inductive Fault where
  deriving DecidableEq, Repr

/-- The spec's `refuse` (R12, R175), one name per situation it gives no meaning to. All are safe: the model stops where
the spec says nothing of what follows (log 7). -/
inductive Refusal where
  /-- An arm of exec that has no meaning yet. Safe. -/
  | notModelled (mnemonic : String)
  /-- START while `phase` is not IDLE (R117 (a), R200): raised by TX800, TX400 and, for a reserved word, fetch. Safe. -/
  | startWhileBusy
  /-- A write of `BTG_CTRL` without START, of `BTG_BUF` or of `BTG_LEN` while busy (R32, U4): raised by CTRL_NOP and by
  fetch. Safe. -/
  | registerWriteWhileBusy
  /-- A command word with one of bits 31:8 set (R78, R117 (b)): raised by fetch. Safe. -/
  | reservedCommand
  /-- `PIN >= NPINS` (R78, R117 (c)): raised by TX800 and TX400. Safe. -/
  | pinOutOfRange
  /-- The timing breaks rule R96 (R117 (d)): raised by TX800 and TX400. Safe. -/
  | illegalTiming
  /-- The buffer runs past the top of the address space (R55, R117 (e)): raised by TX800, TX400 and, before it copies such
  a buffer, by the driver (log 28). Safe. -/
  | bufferPastTop
  /-- START before `BUF` and `LEN` were written (R191, U14): raised by TX800 and TX400. Safe. -/
  | operandsNotWritten
  /-- A host write into the buffer of the transmission in progress ("The spec gives it no meaning (`refuse`)", R61, U3):
  raised by fetch. Safe. -/
  | bufferWriteWhileBusy
  /-- A read of the buffer of the transmission in progress, by the copy of a SHOW (R51: "no other component may read or
  write either buffer concurrently"; R213): raised by fetch. Safe. -/
  | bufferReadWhileBusy
  /-- A SHOW inside a SHOW (R155, R200, U1): raised by SHOW, never in a step, since a call blocks its caller. Safe. -/
  | showReentered
  /-- A narrow or misaligned register access (R56): raised by fetch. Safe. -/
  | badRegisterAccess
  /-- A register access outside the four words at `BTG_BASE` (R29, log 20): raised by fetch. Safe. -/
  | noSuchRegister
  /-- A micro-operation or symbol whose condition does not hold in the state (R84, R85, log 12): raised by the SEQ and
  CELL rows, never by a step of the sequencer. Safe. -/
  | notSelected
  /-- A wire symbol asked for in a cycle that is not the first of a cell (R128, log 11): raised by SYM0 and SYM1. Safe. -/
  | notAtCellStart
  deriving DecidableEq, Repr

/-- The block after reset (R191): `phase` is IDLE; the registers rule R191 calls unspecified are 0 (DESIGN CHOICE,
log 3). -/
def Block.reset : Block where
  phase := .idle
  pix := 0
  bitIdx := 0
  byteIdx := 0
  startTime := 0
  pinL := 0
  bufL := 0
  lenL := 0
  is800L := false
  time0 := 0
  time1 := 0
  period := 0
  buf := 0
  len := 0

/-- The driver after reset (R191): `brightness` is `BRIGHTNESS_RESET` and `pixels` is null; what the spec gives no value
is 0 or empty (DESIGN CHOICE, log 3). -/
def Driver.reset (p : Params) : Driver where
  brightness := p.brightnessReset
  pixels := none
  numBytes := 0
  pin := 0
  is800 := true
  cache := none
  scratch := none
  saved := none
  logs := 0
  stage := .idle

/-- The machine right after reset (R191; logs 2 to 6 for the values the spec leaves open). -/
def State.reset : State where
  blk := Block.reset
  cc := 0
  gpio := 0
  mem := []
  fCpu := 80000000
  busData := 0
  drv := Driver.reset Params.standard
  params := Params.standard
  bufWritten := false
  lenWritten := false
  stimuli := []
  alloc := { heapScript := [], stackScript := [], heapRequests := 0, stackRequests := 0 }
  obs := { wave := [], reads := [] }

end Sys2Proof.Machine
end

