-- ==== Sys2Proof/Machine/Memory.lean ====
section
/-! DEFINITION. Data memory: `MemRead` and `MemWrite` (R52, R66), the canonical form, and byte-by-byte copying. -/

namespace Sys2Proof.Machine

/-- What an unlisted address reads as. The spec leaves the contents of memory at reset unspecified (R191):
DESIGN CHOICE 0 (log 5, unsafe). -/
def Memory.unlisted : U8 := 0

/-- The byte listed for a key, or `Memory.unlisted`. -/
def Memory.lookup : Memory → Nat → U8
  | [], _ => Memory.unlisted
  | (k, v) :: m, a => if k = a then v else Memory.lookup m a

/-- Storing a byte, keeping the keys rising and no entry equal to `Memory.unlisted`. -/
def Memory.store : Memory → Nat → U8 → Memory
  | [], a, v => if v = Memory.unlisted then [] else [(a, v)]
  | (k, x) :: m, a, v =>
    if a < k then (if v = Memory.unlisted then (k, x) :: m else (a, v) :: (k, x) :: m)
    else if a = k then (if v = Memory.unlisted then m else (a, v) :: m)
    else (k, x) :: Memory.store m a v

/-- `MemRead(addr, 1)` (R52): no side effect and no fault (R59). -/
def Memory.read (m : Memory) (addr : U32) : U8 := m.lookup addr.toNat

/-- `MemWrite(addr, 1, v)` (R66). -/
def Memory.write (m : Memory) (addr : U32) (v : U8) : Memory := m.store addr.toNat v

/-- Keys rise strictly from `lo`, lie in the address space, and no entry equals `Memory.unlisted`. -/
def Memory.wfFrom : Nat → Memory → Bool
  | _, [] => true
  | lo, (k, v) :: m => decide (lo ≤ k) && decide (k < 4294967296) && decide (v ≠ Memory.unlisted) && Memory.wfFrom (k + 1) m

/-- The canonical form of memory. -/
def Memory.wf (m : Memory) : Bool := Memory.wfFrom 0 m

/-- The address of byte `i` of a buffer. -/
def byteAddr (base : U32) (i : Nat) : U32 := base + BitVec.ofNat 32 i

/-- `for i in 0 .. n-1: MemWrite(dst + i, 1, f(MemRead(src + i, 1)))`, in ascending order (R147, R149). -/
def Memory.transform (f : U8 → U8) (src dst : U32) : Nat → Memory → Memory
  | 0, m => m
  | n + 1, m =>
    let m' := Memory.transform f src dst n m
    m'.write (byteAddr dst n) (f (m'.read (byteAddr src n)))

/-- The `n` bytes of a buffer, lowest address first (R54). -/
def Memory.bytes (m : Memory) (base : U32) (n : Nat) : List U8 :=
  (List.range n).map fun i => m.read (byteAddr base i)

/-- Address `a` lies in the `n` bytes from `base`. -/
def inRange (base : U32) (n : Nat) (a : U32) : Bool :=
  decide (base.toNat ≤ a.toNat) && decide (a.toNat < base.toNat + n)

/-- The buffer of `n` bytes at `base` ends inside the address space: `base + n <= 2^32` (R55). -/
def fitsSpace (base : U32) (n : Nat) : Bool := decide (base.toNat + n ≤ 4294967296)

/-- Two buffers share no byte; a buffer of no bytes shares none. -/
def disjoint (a : U32) (na : Nat) (b : U32) (nb : Nat) : Bool :=
  decide (na = 0) || decide (nb = 0) || decide (a.toNat + na ≤ b.toNat) || decide (b.toNat + nb ≤ a.toNat)

end Sys2Proof.Machine
end

