-- ==== Sys2Proof/Machine/Operands.lean ====
section
/-! DEFINITION. The operands of the sequencer's rules (head of spec/41_transmit.md, R119) and of the registers. -/

namespace Sys2Proof.Machine

/-- The bit being sent, `pix[bitIdx]` (R119). -/
def State.dataBit (s : State) : Bool := s.blk.pix.getLsbD s.blk.bitIdx.toNat

/-- `thr`: `time1` when the bit being sent is 1, else `time0` (R119). -/
def State.thr (s : State) : U32 := if s.dataBit then s.blk.time1 else s.blk.time0

/-- `e = cc -32 startTime`, the cycles of the current cell already completed (R9, R132). -/
def State.elapsed (s : State) : U32 := s.cc - s.blk.startTime

/-- The address of the byte after the one being sent, `bufL + byteIdx + 1` (R126). -/
def State.nextByteAddr (s : State) : U32 := byteAddr s.blk.bufL (s.blk.byteIdx.toNat + 1)

/-- The level of line `p`. -/
def Lines.level (g : Lines) (p : Pin) : Bool := g.getLsbD p.toNat

/-- `gpio[p] <- v` (R28): no other line changes. -/
def Lines.drive (g : Lines) (p : Pin) (v : Bool) : Lines :=
  if v then g ||| (1#64 <<< p.toNat) else g &&& ~~~(1#64 <<< p.toNat)

end Sys2Proof.Machine
end

