-- ==== Sys2Proof/Machine/Flags.lean ====
section
/-! DEFINITION. The flags of the block (R22, R31) and the conditions that select a micro-operation (R84). -/

namespace Sys2Proof.Machine

/-- `busy = (phase != IDLE)` (R22). -/
def Phase.busy : Phase → Bool
  | .idle => false
  | .high => true
  | .low => true

/-- `BUSY` (R22, R31). -/
def State.busy (s : State) : Bool := s.blk.phase.busy

/-- The level of the selected line, `gpio[pinL]`. -/
def State.lineLevel (s : State) : Bool := Lines.level s.gpio s.blk.pinL

/-- `LINE`: `gpio[pinL]` while busy and 0 while idle (R31). -/
def State.lineFlag (s : State) : Bool := s.busy && s.lineLevel

/-- The word `BTG_STATUS` reads as: bit 0 `BUSY`, bit 1 `LINE`, bits 31:2 zero (R29, R31). -/
def State.statusWord (s : State) : U32 := 0#30 ++ BitVec.ofBool s.lineFlag ++ BitVec.ofBool s.busy

/-- `reached` (R84): `e + 1 >= thr` in HIGH, `e + 1 >= period` in LOW. In IDLE it is ignored; it is computed as in LOW
(log 25). -/
def State.reached (s : State) : Bool :=
  match s.blk.phase with
  | .high => decide (s.thr.toNat ≤ s.elapsed.toNat + 1)
  | .low => decide (s.blk.period.toNat ≤ s.elapsed.toNat + 1)
  | .idle => decide (s.blk.period.toNat ≤ s.elapsed.toNat + 1)

/-- `lastBit`: `bitIdx = 0` (R84). -/
def State.lastBit (s : State) : Bool := s.blk.bitIdx == 0

/-- `lastByte`: `byteIdx + 1 = lenL` (R84). -/
def State.lastByte (s : State) : Bool := s.blk.byteIdx.toNat + 1 == s.blk.lenL.toNat

/-- The numbering of `phase` in the selection vector (R84). -/
def Phase.code : Phase → BitVec 2
  | .idle => 0b00
  | .high => 0b01
  | .low => 0b10

/-- The selection vector of rule R84, most significant bit first: `phase`, `reached`, `lastBit`, `lastByte`. -/
def State.selectVector (s : State) : BitVec 5 :=
  s.blk.phase.code ++ BitVec.ofBool s.reached ++ BitVec.ofBool s.lastBit ++ BitVec.ofBool s.lastByte

end Sys2Proof.Machine
end

