-- ==== Sys2Proof/Machine/Ops.lean ====
section
/-! DEFINITION. The operations the meanings share: the end of a clock cycle, the recorder of the line, and `RISE`.
There is no operation that takes an exception: the block has no exception, trap or return (R170, R175, R176). -/

namespace Sys2Proof.Machine

/-- Lengthens the newest segment of a record (newest first) by `n` cycles at `level`, or begins a new one: the segments
are the maximal ones of rule R131. -/
def pushSegment (level : Bool) (n : Nat) (w : List Segment) : List Segment :=
  if n = 0 then w
  else
    match w with
    | [] => [{ level := level, cycles := n }]
    | g :: rest =>
      if g.level = level then { level := level, cycles := g.cycles + n } :: rest
      else { level := level, cycles := n } :: g :: rest

/-- The record after the cycle whose state is `s`: only busy cycles are recorded (R131). -/
def State.recorded (s : State) (w : List Segment) : List Segment :=
  if s.busy then pushSegment s.lineLevel 1 w else w

/-- Ends the cycle whose state is `before`, all writes of whose rules are in `after` (R11, R12): the counter counts the
cycle, busy or idle (R27), and the recorder notes the line's level in it (R131). -/
def State.endCycle (before after : State) : State :=
  { after with cc := before.cc + 1, obs.wave := before.recorded after.obs.wave }

/-- `RISE` (R122): drive the line high, record the counter value of the next cycle, enter HIGH. -/
def State.rise (s : State) : State :=
  { s with gpio := Lines.drive s.gpio s.blk.pinL true, blk.startTime := s.cc + 1, blk.phase := .high }

/-- Drive the line low (R123). -/
def State.dropLine (s : State) : State := { s with gpio := Lines.drive s.gpio s.blk.pinL false }

end Sys2Proof.Machine
end

