-- ==== Sys2Proof/Machine/Timing.lean ====
section
/-! DEFINITION. The timing parameters of a START (spec/40_timing_parameters.md, R90 to R96). -/

namespace Sys2Proof.Machine

/-- The uncompensated values of rules R92 and R93, in cycles. -/
structure Nominal where
  t0H : Nat
  t1H : Nat
  period : Nat
  deriving DecidableEq, Repr

/-- `F_CPU / D` with floor division for the three divisors of the variant (R91): R92 at 800 kHz, R93 at 400 kHz. -/
def nominal (p : Params) (is800 : Bool) (fCpu : U32) : Nominal :=
  if is800 then
    { t0H := fCpu.toNat / p.div800T0H, t1H := fCpu.toNat / p.div800T1H, period := fCpu.toNat / p.div800Period }
  else
    { t0H := fCpu.toNat / p.div400T0H, t1H := fCpu.toNat / p.div400T1H, period := fCpu.toNat / p.div400Period }

/-- `time0 = T0H - COMP` (R94, R95). -/
def Nominal.time0 (n : Nominal) (comp : Nat) : Nat := n.t0H - comp

/-- `time1 = T1H - COMP` (R94, R95). `period` is never compensated. -/
def Nominal.time1 (n : Nominal) (comp : Nat) : Nat := n.t1H - comp

/-- The legality condition of rule R96. -/
def Nominal.legal (n : Nominal) (comp : Nat) : Bool :=
  decide (comp < n.t0H) && decide (1 ≤ n.time0 comp) && decide (n.time0 comp < n.time1 comp)
    && decide (n.time1 comp < n.period) && decide (n.period < 4294967296)

/-- The values a START of this variant would use in this state: `f_cpu` is sampled now (R90). -/
def State.nominal (s : State) (is800 : Bool) : Nominal := Machine.nominal s.params is800 s.fCpu

/-- A START of this variant meets rule R96 in this state. -/
def State.timingLegal (s : State) (is800 : Bool) : Bool := (s.nominal is800).legal s.params.comp

/-- The value a START latches in `time0` (R95). -/
def State.newTime0 (s : State) (is800 : Bool) : U32 := BitVec.ofNat 32 ((s.nominal is800).time0 s.params.comp)

/-- The value a START latches in `time1` (R95). -/
def State.newTime1 (s : State) (is800 : Bool) : U32 := BitVec.ofNat 32 ((s.nominal is800).time1 s.params.comp)

/-- The value a START latches in `period` (R95). -/
def State.newPeriod (s : State) (is800 : Bool) : U32 := BitVec.ofNat 32 (s.nominal is800).period

end Sys2Proof.Machine
end

