-- ==== Sys2Proof/Machine/Command.lean ====
section
/-! DEFINITION. The commands written to `BTG_CTRL`: TX800, TX400, CTRL_NOP (R112 to R117). -/

namespace Sys2Proof.Machine

/-- Why a START is `refuse`, in rule R117's order: (a), (c), (d), (e); then rule R191's START before `BUF` and `LEN`
were written. (b), the reserved bits, is the decoder's. `none`: the START is legal. -/
def State.startRefusal (s : State) (pin : Pin) (is800 : Bool) : Option Refusal :=
  if s.busy then some .startWhileBusy
  else if s.params.npins ≤ pin.toNat then some .pinOutOfRange
  else if s.timingLegal is800 = false then some .illegalTiming
  else if fitsSpace s.blk.buf s.blk.len.toNat = false then some .bufferPastTop
  else if s.bufWritten = false ∨ s.lenWritten = false then some .operandsNotWritten
  else none

/-- The latched registers of an accepted START (first six lines of R112's pseudocode). The record of the previous
transmission is cleared (log 23). -/
def State.latch (s : State) (pin : Pin) (is800 : Bool) : State :=
  { s with
    blk.pinL := pin
    blk.is800L := is800
    blk.bufL := s.blk.buf
    blk.lenL := s.blk.len
    blk.time0 := s.newTime0 is800
    blk.time1 := s.newTime1 is800
    blk.period := s.newPeriod is800
    obs.wave := []
    obs.reads := [] }

/-- Byte 0 is read and the first cell begins (the `else` part of R112's pseudocode). -/
def State.firstCell (s : State) : State :=
  State.rise
    { s with
      blk.pix := s.mem.read s.blk.bufL
      blk.byteIdx := 0
      blk.bitIdx := 7
      obs.reads := [s.blk.bufL] }

/-- The effect of an accepted START (R112); with `LEN = 0` the latched registers are written and nothing else happens
(R116, log 9). -/
def State.startEffect (s : State) (pin : Pin) (is800 : Bool) : State :=
  if s.blk.len = 0 then s.latch pin is800 else (s.latch pin is800).firstCell

/-- START (R112, R116, R117), in the cycle the write arrives. -/
def State.start (s : State) (pin : Pin) (is800 : Bool) : Host.Outcome State Fault Refusal :=
  match s.startRefusal pin is800 with
  | some r => .refused r
  | none => .next (s.endCycle (s.startEffect pin is800))

/-- TX800 (R113): START with the timing of rule R92. -/
def execTx800 (pin : Pin) (s : State) : Host.Outcome State Fault Refusal := s.start pin true

/-- TX400 (R115): START with the timing of rule R93. -/
def execTx400 (pin : Pin) (s : State) : Host.Outcome State Fault Refusal := s.start pin false

/-- CTRL_NOP (R114): nothing changes while idle; while busy it is still a write of `BTG_CTRL` and `refuse` (R32). -/
def execCtrlNop (_ignored : BitVec 7) (s : State) : Host.Outcome State Fault Refusal :=
  if s.busy then .refused .registerWriteWhileBusy else .next (s.endCycle s)

end Sys2Proof.Machine
end

