-- ==== Sys2Proof/Machine/Sequencer.lean ====
section
/-! DEFINITION. The sequencer's micro-operations, one clock cycle each (R120 to R127). A micro-operation whose condition
does not hold in the state is not selected there, and asking for it is refused (log 12). -/

namespace Sys2Proof.Machine

/-- A cycle in which no state changes except `cc` (R120, R121, R127). -/
def State.holdCycle (s : State) : State := s.endCycle s

/-- The cycle of FALL (R123): `gpio[pinL] <- 0`, `phase <- LOW`. -/
def State.fallCycle (s : State) : State := s.endCycle { s.dropLine with blk.phase := .low }

/-- The cycle of NEXT_BIT (R124): `bitIdx <- bitIdx - 1`, then RISE. -/
def State.nextBitCycle (s : State) : State :=
  s.endCycle (State.rise { s with blk.bitIdx := s.blk.bitIdx - 1 })

/-- The cycle of NEXT_BYTE (R126): the next byte is read, `bitIdx <- 7`, then RISE. -/
def State.nextByteCycle (s : State) : State :=
  s.endCycle (State.rise
    { s with
      blk.pix := s.mem.read s.nextByteAddr
      blk.byteIdx := s.blk.byteIdx + 1
      blk.bitIdx := 7
      obs.reads := s.nextByteAddr :: s.obs.reads })

/-- The cycle of FINISH (R125): `phase <- IDLE`. -/
def State.finishCycle (s : State) : State := s.endCycle { s with blk.phase := .idle }

/-- The cycle the sequencer runs when no command arrives: the one micro-operation its state selects (section 4 of
spec/41_transmit.md). -/
def State.sequencerCycle (s : State) : State :=
  match s.blk.phase with
  | .idle => s.holdCycle
  | .high => if s.reached then s.fallCycle else s.holdCycle
  | .low =>
    if s.reached then
      if s.lastBit then (if s.lastByte then s.finishCycle else s.nextByteCycle) else s.nextBitCycle
    else s.holdCycle

/-- IDLE_HOLD (R120): `phase = IDLE`. -/
def execIdleHold (_ignored : BitVec 3) (s : State) : Host.Outcome State Fault Refusal :=
  if s.blk.phase = .idle then .next s.holdCycle else .refused .notSelected

/-- HIGH_HOLD (R121): `phase = HIGH` and `e + 1 < thr`. -/
def execHighHold (_ignored : BitVec 2) (s : State) : Host.Outcome State Fault Refusal :=
  if s.blk.phase = .high ∧ s.elapsed.toNat + 1 < s.thr.toNat then .next s.holdCycle else .refused .notSelected

/-- FALL (R123): `phase = HIGH` and `e + 1 >= thr`. -/
def execFall (_ignored : BitVec 2) (s : State) : Host.Outcome State Fault Refusal :=
  if s.blk.phase = .high ∧ s.thr.toNat ≤ s.elapsed.toNat + 1 then .next s.fallCycle else .refused .notSelected

/-- LOW_HOLD (R127): `phase = LOW` and `e + 1 < period`. -/
def execLowHold (_ignored : BitVec 2) (s : State) : Host.Outcome State Fault Refusal :=
  if s.blk.phase = .low ∧ s.elapsed.toNat + 1 < s.blk.period.toNat then .next s.holdCycle else .refused .notSelected

/-- NEXT_BIT (R124): `phase = LOW`, `e + 1 >= period`, `bitIdx > 0`. -/
def execNextBit (_ignored : BitVec 1) (s : State) : Host.Outcome State Fault Refusal :=
  if s.blk.phase = .low ∧ s.blk.period.toNat ≤ s.elapsed.toNat + 1 ∧ 0 < s.blk.bitIdx.toNat then .next s.nextBitCycle
  else .refused .notSelected

/-- NEXT_BYTE (R126): `phase = LOW`, `e + 1 >= period`, `bitIdx = 0`, `byteIdx + 1 < lenL`. -/
def execNextByte (s : State) : Host.Outcome State Fault Refusal :=
  if s.blk.phase = .low ∧ s.blk.period.toNat ≤ s.elapsed.toNat + 1 ∧ s.blk.bitIdx = 0
      ∧ s.blk.byteIdx.toNat + 1 < s.blk.lenL.toNat then .next s.nextByteCycle
  else .refused .notSelected

/-- FINISH (R125): `phase = LOW`, `e + 1 >= period`, `bitIdx = 0`, `byteIdx + 1 = lenL`. -/
def execFinish (s : State) : Host.Outcome State Fault Refusal :=
  if s.blk.phase = .low ∧ s.blk.period.toNat ≤ s.elapsed.toNat + 1 ∧ s.blk.bitIdx = 0
      ∧ s.blk.byteIdx.toNat + 1 = s.blk.lenL.toNat then .next s.finishCycle
  else .refused .notSelected

end Sys2Proof.Machine
end

