-- ==== Sys2Proof/Machine/Driver.lean ====
section
/-! DEFINITION. The host driver: SETBRIGHTNESS, SHOW, and what each stage of a SHOW in progress does
(spec/42_brightness_wrapper.md, R140 to R156, with the TX of rule R83). A call begins in one cycle; `State.fetchDriver` runs its
stages in the cycles after it (logs 1 and 13). -/

namespace Sys2Proof.Machine

/-- `scale(b, s) = (b * s) / 255`, floor division (R148, log 10). -/
def scale (b s : U8) : U8 := BitVec.ofNat 8 (b.toNat * s.toNat / 255)

/-- The driver goes to another stage of the call (R152). -/
def State.enter (s : State) (stage : CallStage) : State := { s with drv.stage := stage }

/-- The Transmitter's active-buffer pointer (R147). A call past its null test holds one; for null, 0 stands. -/
def Driver.activeBuf (d : Driver) : U32 := d.pixels.getD 0

/-- The caller's own pointer: the saved one while the pointers are swapped (R147, R153). -/
def Driver.callerPixels (d : Driver) : Option U32 :=
  match d.saved with
  | some p => some p
  | none => d.pixels

/-- The address of the caller's buffer; for null, 0 stands. -/
def Driver.callerBuf (d : Driver) : U32 := d.callerPixels.getD 0

/-- The address of the scratch buffer; 0 stands where there is none. -/
def Driver.scratchBase (d : Driver) : U32 :=
  match d.scratch with
  | some x => x.base
  | none => 0

/-- A buffer of `n` bytes at `a` shares no byte with that of a transmission in progress (R51). -/
def State.apartFromFlight (s : State) (a : U32) (n : Nat) : Bool :=
  !s.busy || disjoint a n s.blk.bufL s.blk.lenL.toNat

/-- A scratch buffer may lie at `a`: in the address space, disjoint from the caller's buffer and the driver's alone (R146). -/
def State.mayHoldScratch (s : State) (a : U32) : Bool :=
  fitsSpace a s.drv.numBytes.toNat
    && disjoint a s.drv.numBytes.toNat s.drv.callerBuf s.drv.numBytes.toNat
    && s.apartFromFlight a s.drv.numBytes.toNat

/-- Where the scratch buffer lies, given the allocator's answer `a`: at `a` when that meets rule R146, else at the first of
three addresses that does (log 15). An answer of address 0 is a buffer there, and no failure (log 31). -/
def State.placeScratch (s : State) (a : U32) : U32 :=
  if s.mayHoldScratch a then a
  else if s.mayHoldScratch 0x00000000 then 0x00000000
  else if s.mayHoldScratch 0x00020000 then 0x00020000
  else 0x00040000

/-- The answer to a stack request: given in advance, or free. Stack allocation cannot fail (R144). -/
def Allocator.stackAnswer (al : Allocator) : U32 :=
  match al.stackScript with
  | a :: _ => a
  | [] => Config.stackAddress al.stackRequests

/-- The answer to a heap request: given in advance, or free; `none` is failure (R145, U11). -/
def Allocator.heapAnswer (al : Allocator) : Option U32 :=
  match al.heapScript with
  | a :: _ => a
  | [] => Config.heapAnswer al.heapRequests

/-- The place of rule R144: the stack when `numBytes <= STACK_THRESHOLD`, else the heap (conflict C3). -/
def State.allocPlace (s : State) : AllocPlace :=
  if s.drv.numBytes.toNat ≤ s.params.stackThreshold then .stack else .heap

/-- The answer to the allocation of this `show()`. -/
def State.allocAnswer (s : State) : Option U32 :=
  match s.allocPlace with
  | .stack => some s.alloc.stackAnswer
  | .heap => s.alloc.heapAnswer

/-- The allocator has answered one request. -/
def State.countAlloc (s : State) : State :=
  match s.allocPlace with
  | .stack => { s with alloc.stackScript := s.alloc.stackScript.tail, alloc.stackRequests := s.alloc.stackRequests + 1 }
  | .heap => { s with alloc.heapScript := s.alloc.heapScript.tail, alloc.heapRequests := s.alloc.heapRequests + 1 }

/-- The frame is dropped: one entry in the diagnostic log, and the call returns (R145), at once even where the block is busy
(DESIGN CHOICE, log 33). -/
def State.dropFrame (s : State) : State := { s with drv.logs := s.drv.logs + 1, drv.stage := .idle }

/-- The scratch buffer is held (R39, R146). -/
def State.holdScratch (s : State) (base : U32) : State :=
  { s with drv.scratch := some { base := base, place := s.allocPlace }, drv.stage := .copy }

/-- `Allocate` (R144, R145). -/
def State.allocateScratch (s : State) : State :=
  match s.allocAnswer with
  | none => s.countAlloc.dropFrame
  | some a => s.countAlloc.holdScratch (s.placeScratch a)

/-- Why the copy has no meaning: the caller's buffer runs past the top of the address space (R55), or is the one the block is
reading (R51). `none`: it has (log 28). -/
def State.copyRefusal (s : State) : Option Refusal :=
  if fitsSpace s.drv.callerBuf s.drv.numBytes.toNat = false then some .bufferPastTop
  else if s.apartFromFlight s.drv.callerBuf s.drv.numBytes.toNat = false then some .bufferReadWhileBusy
  else none

/-- `Copy` and the swap (R147): the caller's bytes go to the scratch buffer, and `pixels` points there. -/
def State.copyAndSwap (s : State) : State :=
  { s with
    mem := s.mem.transform id s.drv.activeBuf s.drv.scratchBase s.drv.numBytes.toNat
    drv.saved := s.drv.pixels
    drv.pixels := some s.drv.scratchBase
    drv.stage := .scale }

/-- "that cache must be invalidated every call" (R149, R38). -/
def State.invalidateCache (s : State) : State := { s with drv.cache := none }

/-- The underlying routine (R38, R149): it scales the active buffer in place, unless its cache says that this brightness was
the last it applied. -/
def State.scaleActive (s : State) : State :=
  if s.drv.cache = some s.drv.brightness then s
  else
    { s with
      mem := s.mem.transform (fun b => scale b s.drv.brightness) s.drv.activeBuf s.drv.activeBuf s.drv.numBytes.toNat
      drv.cache := some s.drv.brightness }

/-- `Scale` (R149). -/
def State.scaleScratch (s : State) : State := s.invalidateCache.scaleActive.enter .waitIdle

/-- The stage after a wait whose poll found `BUSY` = 0 (R83, R152); the full-brightness path returns after its TX (R143). -/
def Driver.afterWait (d : Driver) : CallStage :=
  match d.stage with
  | .waitIdle => .writeBuf
  | .waitDone => if d.saved.isSome then .swapBack else .idle
  | stage => stage

/-- One poll of `BTG_STATUS` in a wait (R83): the call goes on when `BUSY` is 0. -/
def State.poll (s : State) : State :=
  { s with
    busData := s.statusWord
    drv.stage := if s.busy then s.drv.stage else s.drv.afterWait }

/-- The word of rule R83 for `BTG_CTRL`: `(pin << 2) | 3` at 800 kHz, `(pin << 2) | 1` at 400 kHz. -/
def startWord (pin : Pin) (is800 : Bool) : U32 :=
  if is800 then 0#24 ++ pin ++ 0b11#2 else 0#24 ++ pin ++ 0b01#2

/-- `Swap-back` (R150): `pixels <- saved`. -/
def State.swapBack (s : State) : State :=
  { s with drv.pixels := s.drv.saved, drv.saved := none, drv.stage := .free }

/-- `Free` (R151): the scratch buffer is gone, and the call returns (log 16). -/
def State.freeScratch (s : State) : State := { s with drv.scratch := none, drv.stage := .idle }

/-- SHOW (R154): the null test (R142; null is a value apart from address 0, log 31) and the choice of path (R143, R144,
R152), beside the block's own cycle; the call then goes on stage by stage. A SHOW of null returns at once even where the block is busy,
so that rule R153's "the block is idle" does not hold after it (DESIGN CHOICE, log 33). A SHOW inside a SHOW is misuse (R155,
R200). -/
def execShow (_ignored : BitVec 8) (s : State) : Host.Outcome State Fault Refusal :=
  if s.drv.stage ≠ .idle then .refused .showReentered
  else
    match s.drv.pixels with
    | none => .next s.sequencerCycle
    | some _ => .next (s.enter (if s.drv.brightness = 255 then .waitIdle else .allocate)).sequencerCycle

/-- SETBRIGHTNESS (R141): `brightness <- n`, beside the block's own cycle; it touches no hardware (R83). -/
def execSetBrightness (n : U8) (s : State) : Host.Outcome State Fault Refusal :=
  .next (State.sequencerCycle { s with drv.brightness := n })

end Sys2Proof.Machine
end

