-- ==== Sys2Proof/Machine/Wire.lean ====
section
/-! DEFINITION. The wire: the symbols SYM0 and SYM1 as whole cells (R74, R128, R129), the waveform of a frame (R75,
R131), and the receiver's rule for reading it back (R77). -/

namespace Sys2Proof.Machine

/-- The first cycle of a cell whose symbol rule R74 describes: the line is high, `e = 0`, and
`1 <= thr < period`. -/
def State.atCellStart (s : State) : Bool :=
  decide (s.blk.phase = .high) && decide (s.blk.startTime = s.cc) && s.lineLevel
    && decide (1 ≤ s.thr.toNat) && decide (s.thr.toNat < s.blk.period.toNat)

/-- The last cycle of the cell that begins in `s`: the line has been high for `thr` cycles and low since (R128, R129);
`e = period - 1`, and this last cycle is not yet recorded. -/
def State.cellLastCycle (s : State) : State :=
  { s.dropLine with
    blk.phase := .low
    cc := s.cc + (s.blk.period - 1)
    obs.wave := pushSegment false (s.blk.period.toNat - 1 - s.thr.toNat) (pushSegment true s.thr.toNat s.obs.wave) }

/-- The `period` cycles of the cell that begins in `s`, with the micro-operation that ends it (NEXT_BIT, NEXT_BYTE or
FINISH). The closed form of rule R130; Laws/Cell.lean proves it equal to `period` cycles of the sequencer (log 11). -/
def State.wholeCell (s : State) : State := s.cellLastCycle.sequencerCycle

/-- A symbol for data bit `b` runs from the first cycle of a cell whose bit is `b` (R85, R128, R129). -/
def State.symbol (s : State) (b : Bool) : Host.Outcome State Fault Refusal :=
  if s.atCellStart = false then .refused .notAtCellStart
  else if s.dataBit = b then .next s.wholeCell
  else .refused .notSelected

/-- SYM0 (R128): the cell of a 0 bit. -/
def execSym0 (s : State) : Host.Outcome State Fault Refusal := s.symbol false

/-- SYM1 (R129): the cell of a 1 bit. -/
def execSym1 (s : State) : Host.Outcome State Fault Refusal := s.symbol true

/-- `n` cells, one after the other (R75). -/
def State.runCells : Nat → State → State
  | 0, s => s
  | n + 1, s => State.runCells n s.wholeCell

/-- `n` cycles of the sequencer in which nothing arrives. -/
def State.runCycles : Nat → State → State
  | 0, s => s
  | n + 1, s => State.runCycles n s.sequencerCycle

/-- The bit `b_k` that cell `k` of a frame carries: bit `7 - (k mod 8)` of byte `k / 8` (R75, R119). -/
def frameBit (m : Memory) (base : U32) (k : Nat) : Bool := (m.read (byteAddr base (k / 8))).getLsbD (7 - k % 8)

/-- The two segments of a cell, oldest first (R74). -/
def cellWave (time0 time1 period : Nat) (b : Bool) : List Segment :=
  let thr := if b then time1 else time0
  [{ level := true, cycles := thr }, { level := false, cycles := period - thr }]

/-- The bits of a byte in the order they are sent, most significant first (R10, R54). -/
def sentBits (b : U8) : List Bool := [7, 6, 5, 4, 3, 2, 1, 0].map fun i => b.getLsbD i

/-- The recorded waveform of a frame, oldest segment first (R75, R131). -/
def frameWave (time0 time1 period : Nat) (bytes : List U8) : List Segment :=
  (bytes.flatMap sentBits).flatMap (cellWave time0 time1 period)

/-- The sum of a waveform's durations. -/
def waveCycles (w : List Segment) : Nat := (w.map Segment.cycles).sum

/-- The distance `|a - b|` of two natural numbers. -/
def distance (a b : Nat) : Nat := (a - b) + (b - a)

/-- The bit a high duration reads as (R77): the closer of the uncompensated T0H and T1H; a tie reads as nothing. -/
def readHigh (n : Nominal) (h : Nat) : Option Bool :=
  if distance h n.t0H < distance h n.t1H then some false
  else if distance h n.t1H < distance h n.t0H then some true
  else none

/-- Reads a recorded waveform back into bits (R77): one high and one low segment per cell. -/
def readWave (n : Nominal) : List Segment → Option (List Bool)
  | [] => some []
  | [_] => none
  | hi :: lo :: rest =>
    if hi.level = true ∧ lo.level = false then
      match readHigh n hi.cycles, readWave n rest with
      | some b, some bs => some (b :: bs)
      | _, _ => none
    else none

end Sys2Proof.Machine
end

