-- ==== Sys2Proof/Syntax.lean ====
section
/-! DEFINITION. The instructions: one constructor per row of spec/opcode_table.json, and the four formats
their words come in. -/

namespace Sys2Proof

/-- The operations of the machine. An `ignored` argument holds the bits that the encoding marks `x`. -/
inductive Instr where
  /-- `TX800` (R113): START with 800 kHz timing on line `pin`. -/
  | tx800 (pin : Pin)
  /-- `TX400` (R115): START with 400 kHz timing on line `pin`. -/
  | tx400 (pin : Pin)
  /-- `CTRL_NOP` (R114): a command word with `START = 0`; bits 7:1 are ignored. -/
  | ctrlNop (ignored : BitVec 7)
  /-- `SYM0` (R128): the cell of a 0 bit. -/
  | sym0
  /-- `SYM1` (R129): the cell of a 1 bit. -/
  | sym1
  /-- `IDLE_HOLD` (R120). -/
  | idleHold (ignored : BitVec 3)
  /-- `HIGH_HOLD` (R121). -/
  | highHold (ignored : BitVec 2)
  /-- `FALL` (R123). -/
  | fall (ignored : BitVec 2)
  /-- `LOW_HOLD` (R127). -/
  | lowHold (ignored : BitVec 2)
  /-- `NEXT_BIT` (R124). -/
  | nextBit (ignored : BitVec 1)
  /-- `NEXT_BYTE` (R126). -/
  | nextByte
  /-- `FINISH` (R125). -/
  | finish
  /-- `SHOW` (R154): the host driver's `show()`; bits 7:0 are ignored. -/
  | showFrame (ignored : BitVec 8)
  /-- `SETBRIGHTNESS n` (R141). -/
  | setBrightness (n : U8)
  deriving DecidableEq, Repr

/-- A word of one of the four formats of spec/30_encoding.md. -/
inductive Code where
  /-- `CTRL` (R70): the 32-bit word written to `BTG_CTRL`. -/
  | ctrl (w : U32)
  /-- `CELL` (R85): the data bit that selects the wire symbol. -/
  | cell (bit : Bool)
  /-- `SEQ` (R84): the 5-bit selection vector of the sequencer. -/
  | seq (v : BitVec 5)
  /-- `CALL` (R85): the 9-bit call word of the host driver. -/
  | call (c : BitVec 9)
  deriving DecidableEq, Repr

end Sys2Proof
end

