-- ==== Sys2Proof/Machine/Dispatch.lean ====
section
/-! DEFINITION. One arm per instruction, each a direct call of its meaning. -/

namespace Sys2Proof.Machine

def exec (i : Instr) (s : State) : Host.Outcome State Fault Refusal :=
  match i with
  | .tx800 pin => Sys2Proof.Machine.execTx800 pin s
  | .tx400 pin => Sys2Proof.Machine.execTx400 pin s
  | .ctrlNop ignored => Sys2Proof.Machine.execCtrlNop ignored s
  | .sym0 => Sys2Proof.Machine.execSym0 s
  | .sym1 => Sys2Proof.Machine.execSym1 s
  | .idleHold ignored => Sys2Proof.Machine.execIdleHold ignored s
  | .highHold ignored => Sys2Proof.Machine.execHighHold ignored s
  | .fall ignored => Sys2Proof.Machine.execFall ignored s
  | .lowHold ignored => Sys2Proof.Machine.execLowHold ignored s
  | .nextBit ignored => Sys2Proof.Machine.execNextBit ignored s
  | .nextByte => Sys2Proof.Machine.execNextByte s
  | .finish => Sys2Proof.Machine.execFinish s
  | .showFrame ignored => Sys2Proof.Machine.execShow ignored s
  | .setBrightness n => Sys2Proof.Machine.execSetBrightness n s

end Sys2Proof.Machine
end

