-- ==== Sys2Proof/Decode.lean ====
section
/-! DEFINITION. Decoding of the four formats of spec/30_encoding.md (R71, R84, R85), and encoding. -/

namespace Sys2Proof

/-- Why a word is no instruction. -/
inductive DecodeError where
  /-- A `CTRL` word with one of bits 31:8 set (R78). -/
  | reservedCommand
  /-- A selection vector with `phase` = 11, which does not occur (R84). -/
  | noSuchPhase
  deriving DecidableEq, Repr

/-- `PIN = w[7:2]` (R72). -/
def ctrlPin (w : U32) : Pin := w.extractLsb' 2 6

/-- Bits 31:8 of a command word, which must be 0 (R30, R78). -/
def ctrlReserved (w : U32) : BitVec 24 := w.extractLsb' 8 24

/-- The reading of a `CTRL` word in rule R71's own order: reserved bits, then `START`, then `IS800`. -/
def decodeCtrl (w : U32) : Except DecodeError Instr :=
  if ctrlReserved w ≠ 0 then .error .reservedCommand
  else if w.getLsbD 0 = false then .ok (.ctrlNop (w.extractLsb' 1 7))
  else if w.getLsbD 1 then .ok (.tx800 (ctrlPin w))
  else .ok (.tx400 (ctrlPin w))

/-- The data bit selects the wire symbol (R85). -/
def decodeCell (bit : Bool) : Instr := if bit then .sym1 else .sym0

/-- The selection table of rule R84: `phase` in bits 4:3, `reached` 2, `lastBit` 1, `lastByte` 0. -/
def decodeSeq (v : BitVec 5) : Except DecodeError Instr :=
  match v.extractLsb' 3 2, v.getLsbD 2, v.getLsbD 1, v.getLsbD 0 with
  | 0b00#2, _, _, _ => .ok (.idleHold (v.extractLsb' 0 3))
  | 0b01#2, false, _, _ => .ok (.highHold (v.extractLsb' 0 2))
  | 0b01#2, true, _, _ => .ok (.fall (v.extractLsb' 0 2))
  | 0b10#2, false, _, _ => .ok (.lowHold (v.extractLsb' 0 2))
  | 0b10#2, true, false, _ => .ok (.nextBit (v.extractLsb' 0 1))
  | 0b10#2, true, true, false => .ok .nextByte
  | 0b10#2, true, true, true => .ok .finish
  | _, _, _, _ => .error .noSuchPhase

/-- The call word of rule R85: bit 8 is the operation, bits 7:0 its operand. -/
def decodeCall (c : BitVec 9) : Instr :=
  if c.getLsbD 8 then .setBrightness (c.extractLsb' 0 8) else .showFrame (c.extractLsb' 0 8)

/-- The decoder: total, and rejecting by name. -/
def decode : Code → Except DecodeError Instr
  | .ctrl w => decodeCtrl w
  | .cell b => .ok (decodeCell b)
  | .seq v => decodeSeq v
  | .call c => .ok (decodeCall c)

/-- The word of an instruction, from the encodings of rules R71, R84 and R85. -/
def encode : Instr → Code
  | .tx800 pin => .ctrl (0#24 ++ pin ++ 0b11#2)
  | .tx400 pin => .ctrl (0#24 ++ pin ++ 0b01#2)
  | .ctrlNop x => .ctrl (0#24 ++ x ++ 0b0#1)
  | .sym0 => .cell false
  | .sym1 => .cell true
  | .idleHold x => .seq (0b00#2 ++ x)
  | .highHold x => .seq (0b010#3 ++ x)
  | .fall x => .seq (0b011#3 ++ x)
  | .lowHold x => .seq (0b100#3 ++ x)
  | .nextBit x => .seq (0b1010#4 ++ x)
  | .nextByte => .seq 0b10110#5
  | .finish => .seq 0b10111#5
  | .showFrame x => .call (0b0#1 ++ x)
  | .setBrightness n => .call (0b1#1 ++ n)

/-- The word, of one of the four formats, that a table row of `nbits` bits with value `w` stands for: 32 bits are
`CTRL`, 9 (or two whole bytes) `CALL`, 5 `SEQ`, 1 `CELL`. One whole byte may hold a `CELL` bit or a `SEQ` vector: the
values 0 and 1 are read as the data bit, since no larger value can be one (log 21). -/
def codeOfTable (nbits w : Nat) : Option Code :=
  if nbits = 32 then (if w < 4294967296 then some (.ctrl (BitVec.ofNat 32 w)) else none)
  else if nbits = 9 ∨ nbits = 16 then (if w < 512 then some (.call (BitVec.ofNat 9 w)) else none)
  else if nbits = 5 then (if w < 32 then some (.seq (BitVec.ofNat 5 w)) else none)
  else if nbits = 1 then (if w < 2 then some (.cell (w == 1)) else none)
  else if nbits = 8 then
    if w < 2 then some (.cell (w == 1)) else if w < 32 then some (.seq (BitVec.ofNat 5 w)) else none
  else none

/-- The instruction the decoder reads from a row's bits, numbered as spec/opcode_table.json numbers them. -/
def decodeTableWord (nbits w : Nat) : Option Instr :=
  match codeOfTable nbits w with
  | some c => (decode c).toOption
  | none => none

end Sys2Proof
end

