-- ==== Sys2Proof/Machine/Bus.lean ====
section
/-! DEFINITION. The command registers as the host reaches them (R29 to R32, R56) and `rst` (R191, R192). -/

namespace Sys2Proof.Machine

/-- The four registers of rule R29. -/
inductive Reg where
  | ctrl
  | buf
  | len
  | status
  deriving DecidableEq, Repr

/-- The register an access reaches: a word at offset 0, 4, 8 or 12 from `BTG_BASE` (R29); a narrow or misaligned access
in the window is `refuse` (R56), one outside the window reaches no register (log 20). DESIGN CHOICE (log 32): misaligned
means that the offset from `BTG_BASE` is no multiple of 4, whatever address `BTG_BASE` is. -/
def State.regAt (s : State) (width : Width) (addr : U32) : Except Refusal Reg :=
  let off := (addr - s.params.btgBase).toNat
  if 16 ≤ off then .error .noSuchRegister
  else if width ≠ .word ∨ off % 4 ≠ 0 then .error .badRegisterAccess
  else if off = 0 then .ok .ctrl
  else if off = 4 then .ok .buf
  else if off = 8 then .ok .len
  else .ok .status

/-- What a register reads as (R29): `BTG_CTRL` 0, `BTG_LEN` with bits 31:16 zero, `BTG_STATUS` computed. -/
def State.regValue (s : State) : Reg → U32
  | .ctrl => 0
  | .buf => s.blk.buf
  | .len => s.blk.len.zeroExtend 32
  | .status => s.statusWord

/-- `BUF <- data` (R29). -/
def State.setBuf (s : State) (data : U32) : State := { s with blk.buf := data, bufWritten := true }

/-- `LEN <- data[15:0]` (R29); bits 31:16 are not held (log 18). -/
def State.setLen (s : State) (data : U32) : State := { s with blk.len := data.setWidth 16, lenWritten := true }

/-- The cycle in which `rst` is asserted (R191, R192): the transmission ends, every line goes low, every register rule
R191 gives a value takes it, and those it calls unspecified take the values of `State.reset`; `cc` counts on (R27) and
memory is the host's (log 17). -/
def State.resetCycle (s : State) : State :=
  s.endCycle
    { s with blk := Block.reset, gpio := 0, drv := Driver.reset s.params, bufWritten := false, lenWritten := false }

end Sys2Proof.Machine
end

