-- ==== Sys2Proof/Machine/Fetch.lean ====
section
/-! DEFINITION. What the next step does: the oldest stimulus, if any, or the stage of the driver's call in progress, and the
instruction selected by it or by the sequencer's state (section 4 of spec/41_transmit.md; logs 1 and 22). -/

namespace Sys2Proof.Machine

/-- What a step does: run an instruction in a state, go to a state with no instruction, or stop. -/
inductive Fetched where
  | run (i : Instr) (s : State)
  | goTo (s : State)
  | stop (r : Refusal)
  deriving DecidableEq, Repr

/-- The micro-operation that the state selects (R84). The error case does not occur: `phase` is never 11. -/
def State.fetchMicro (s : State) : Fetched :=
  match decode (.seq s.selectVector) with
  | .ok i => .run i s
  | .error _ => .stop .notSelected

/-- A write of a command register (R29, R30, R32): a word of `BTG_CTRL` is decoded and run, and a reserved one is `refuse`,
named after rule R117's first reason; `BUF` and `LEN` take the data while idle; `BTG_STATUS` ignores it (R79). -/
def State.fetchWrite (s : State) (r : Reg) (data : U32) : Fetched :=
  match r with
  | .ctrl =>
    match decode (.ctrl data) with
    | .ok i => .run i s
    | .error _ =>
      .stop (if s.busy then (if data.getLsbD 0 then .startWhileBusy else .registerWriteWhileBusy) else .reservedCommand)
  | .buf => if s.busy then .stop .registerWriteWhileBusy else (s.setBuf data).fetchMicro
  | .len => if s.busy then .stop .registerWriteWhileBusy else (s.setLen data).fetchMicro
  | .status => s.fetchMicro

/-- What the driver's call in progress does in the cycle, beside the sequencer's micro-operation (R83, R152). Its register
writes go through the bus like any other: the word it writes to `BTG_CTRL` is decoded and run. -/
def State.fetchDriver (s : State) : Fetched :=
  match s.drv.stage with
  | .idle => s.fetchMicro
  | .allocate => s.allocateScratch.fetchMicro
  | .copy =>
    match s.copyRefusal with
    | some r => .stop r
    | none => s.copyAndSwap.fetchMicro
  | .scale => s.scaleScratch.fetchMicro
  | .waitIdle => s.poll.fetchMicro
  | .writeBuf => (s.enter .writeLen).fetchWrite .buf s.drv.activeBuf
  | .writeLen => (s.enter .writeCtrl).fetchWrite .len (s.drv.numBytes.zeroExtend 32)
  | .writeCtrl => (s.enter .waitDone).fetchWrite .ctrl (startWord s.drv.pin s.drv.is800)
  | .waitDone => s.poll.fetchMicro
  | .swapBack => s.swapBack.fetchMicro
  | .free => s.freeScratch.fetchMicro

/-- What a stimulus makes of the cycle while no driver call is in progress; `s` is the state with it taken off the list. The
sequencer's micro-operation runs beside whatever arrived. -/
def State.fetchStimulus (s : State) : Stimulus → Fetched
  | .quiet => s.fetchMicro
  | .regWrite width addr data =>
    match s.regAt width addr with
    | .ok r => s.fetchWrite r data
    | .error e => .stop e
  | .regRead width addr =>
    match s.regAt width addr with
    | .ok r => State.fetchMicro { s with busData := s.regValue r }
    | .error e => .stop e
  | .readCounter => State.fetchMicro { s with busData := s.cc }
  | .memStore addr v =>
    if s.busy && inRange s.blk.bufL s.blk.lenL.toNat addr then .stop .bufferWriteWhileBusy
    else State.fetchMicro { s with mem := s.mem.write addr v }
  | .clockRate hz => State.fetchMicro { s with fCpu := hz }
  | .configure pixels numBytes pin is800 =>
    State.fetchMicro
      { s with drv.pixels := pixels, drv.numBytes := numBytes, drv.pin := pin, drv.is800 := is800 }
  | .reset => .goTo s.resetCycle
  | .call c =>
    match decode (.call c) with
    | .ok i => .run i s
    | .error _ => .stop .notSelected
  | .cell =>
    match decode (.cell s.dataBit) with
    | .ok i => .run i s
    | .error _ => .stop .notSelected
  | .waitIdle =>
    State.fetchMicro
      { s with
        busData := s.statusWord
        stimuli := if s.busy then .waitIdle :: s.stimuli else s.stimuli }

/-- What a stimulus makes of the cycle while a driver call is in progress: an input of the block or of the platform arrives
beside the driver's stage; what the host itself would do waits until the call returns, since the call blocks it (R83, R155,
R201; log 1). -/
def State.fetchInCall (s : State) (st : Stimulus) (rest : List Stimulus) : Fetched :=
  match st with
  | .quiet => State.fetchDriver { s with stimuli := rest }
  | .clockRate hz => State.fetchDriver { s with stimuli := rest, fCpu := hz }
  | .reset => .goTo (State.resetCycle { s with stimuli := rest })
  | .regWrite _ _ _ => s.fetchDriver
  | .regRead _ _ => s.fetchDriver
  | .readCounter => s.fetchDriver
  | .memStore _ _ => s.fetchDriver
  | .configure _ _ _ _ => s.fetchDriver
  | .call _ => s.fetchDriver
  | .cell => s.fetchDriver
  | .waitIdle => s.fetchDriver

/-- What the next step does. -/
def State.fetch (s : State) : Fetched :=
  match s.stimuli with
  | [] => s.fetchDriver
  | st :: rest =>
    if s.drv.stage = .idle then State.fetchStimulus { s with stimuli := rest } st else s.fetchInCall st rest

/-- A state in `phase`, `e` cycles into a cell of a transmission with the smallest legal timing (1, 2, 3 cycles, R97),
with byte `pix` at address 0 being sent on line 0: what `placeWord` needs for a micro-operation or a symbol. -/
def State.inCell (s : State) (phase : Phase) (pix : U8) (e : U32) (bitIdx : BitVec 3) (lenL : U16) : State :=
  { s with
    blk.phase := phase
    blk.pix := pix
    blk.bitIdx := bitIdx
    blk.byteIdx := 0
    blk.startTime := s.cc - e
    blk.pinL := 0
    blk.bufL := 0
    blk.lenL := lenL
    blk.time0 := 1
    blk.time1 := 2
    blk.period := 3
    gpio := if phase = .high then Lines.drive 0 0 true else 0
    mem := s.mem.write 0 pix }

/-- Brings about the state whose selection vector is `v`, with a quiet cycle next (log 22). The bits that rule R84 ignores
in a phase are brought about as well. -/
def State.placeVector (s : State) (v : BitVec 5) : State :=
  let bitIdx : BitVec 3 := if v.getLsbD 1 then 0 else 7
  let lenL : U16 := if v.getLsbD 0 then 1 else 2
  let s' := { s with stimuli := .quiet :: s.stimuli }
  match v.extractLsb' 3 2 with
  | 0b00#2 => s'.inCell .idle 0 (if v.getLsbD 2 then 2 else 0) bitIdx lenL
  | 0b01#2 => s'.inCell .high 255 (if v.getLsbD 2 then 1 else 0) bitIdx lenL
  | 0b10#2 => s'.inCell .low 0 (if v.getLsbD 2 then 2 else 1) bitIdx lenL
  | _ => s

/-- Arranges that the very next step runs the instruction of `c` (log 22): a command word is written to `BTG_CTRL`, after
the host has written `BUF` and `LEN`; a call word is called; for a symbol the first cycle of a cell with that bit is
reached; for a micro-operation its selecting state. -/
def State.placeCode (s : State) : Code → State
  | .ctrl w =>
    { s with
      stimuli := .regWrite .word s.params.btgBase w :: s.stimuli
      bufWritten := true
      lenWritten := true }
  | .call c => { s with stimuli := .call c :: s.stimuli }
  | .cell b => State.inCell { s with stimuli := .cell :: s.stimuli } .high (if b then 255 else 0) 0 7 2
  | .seq v => s.placeVector v

/-- `placeCode` for a word of the opcode table, with no driver call in progress. -/
def State.placeWord (s : State) (nbits w : Nat) : State :=
  match codeOfTable nbits w with
  | some c => (s.enter .idle).placeCode c
  | none => s

end Sys2Proof.Machine
end

