-- ==== Sys2Proof/Machine/Step.lean ====
section
/-! DEFINITION. One step, one clock cycle (R11): what `State.fetch` says. A whole cell taken as one symbol is the one
exception (R85, R130; logs 1 and 11). -/

namespace Sys2Proof.Machine

/-- One step of the machine. -/
def step (s : State) : Host.Outcome State Fault Refusal :=
  match s.fetch with
  | .run i s' => exec i s'
  | .goTo s' => .next s'
  | .stop r => .refused r

/-- `s` with the instruction of a table word placed where the next step takes it from (log 22). -/
def State.withFetchWord (s : State) (nbits w : Nat) : State := s.placeWord nbits w

end Sys2Proof.Machine
end

