-- ==== Sys2Proof/Machine/Routine.lean ====
section
/-! DEFINITION. The software routine of rule R110 under an interruption (R207). Nothing can hold the block (R184), so no step
of the machine does this; it says what a hold would do (log 24). -/

namespace Sys2Proof.Machine

/-- `n` cycles of a busy state in which only the counter and the recorder move: a wait of the sequencer, or the routine of
rule R110 held for `n` cycles (R207). -/
def State.holdFor (s : State) (n : Nat) : State :=
  { s with cc := s.cc + BitVec.ofNat 32 n, obs.wave := pushSegment s.lineLevel n s.obs.wave }

/-- The routine drives the line high in this cycle and records this cycle as the start of the cell (R110). -/
def State.routineRise (s : State) : State :=
  { s with gpio := Lines.drive s.gpio s.blk.pinL true, blk.startTime := s.cc, blk.phase := .high }

/-- The wait for the end of a cell is over in this cycle: the next bit, the next byte, or the end of the routine (R110). -/
def State.routineNextCell (s : State) : State :=
  if s.lastBit then
    if s.lastByte then { s with blk.phase := .idle }
    else
      State.routineRise
        { s with
          blk.pix := s.mem.read s.nextByteAddr
          blk.byteIdx := s.blk.byteIdx + 1
          blk.bitIdx := 7
          obs.reads := s.nextByteAddr :: s.obs.reads }
  else State.routineRise { s with blk.bitIdx := s.blk.bitIdx - 1 }

/-- The low wait ends in this cycle when `period` cycles have elapsed (R110). -/
def State.endLowWait (s : State) : State :=
  if s.blk.period.toNat ≤ s.elapsed.toNat then s.routineNextCell else s

/-- The high wait ends in this cycle when `thr` cycles have elapsed (R110): the line goes low, and the low wait begins, which is
over at once when it was overrun as well. -/
def State.endHighWait (s : State) : State :=
  if s.thr.toNat ≤ s.elapsed.toNat then State.endLowWait { s.dropLine with blk.phase := .low } else s

/-- The waits that are over in this cycle end in it: "a wait that was overrun ends at once on resumption" (R207). -/
def State.settle (s : State) : State :=
  match s.blk.phase with
  | .idle => s
  | .high => s.endHighWait
  | .low => s.endLowWait

/-- The routine, held for `d` cycles and then resumed (R207). -/
def State.heldThenResumed (s : State) (d : Nat) : State := (s.holdFor d).settle

end Sys2Proof.Machine
end

