-- ==== Sys2Proof/Safety.lean ====
section
/-! DEFINITION. What claims are stated in: the invariant of rule R40, what a step leaves alone, and the host's duty of
rule R206. -/

namespace Sys2Proof.Machine

/-- Clause (b) of rule R40, with the pin and the buffer range that an accepted START guarantees (R117 (c), (e)). -/
def State.TransmissionInv (s : State) : Prop :=
  s.blk.byteIdx.toNat < s.blk.lenL.toNat
    ∧ s.blk.pix = s.mem.read (byteAddr s.blk.bufL s.blk.byteIdx.toNat)
    ∧ fitsSpace s.blk.bufL s.blk.lenL.toNat = true
    ∧ s.blk.pinL.toNat < s.params.npins
    ∧ 1 ≤ s.blk.time0.toNat
    ∧ s.blk.time0.toNat < s.blk.time1.toNat
    ∧ s.blk.time1.toNat < s.blk.period.toNat

/-- Rule R40 by phase: (a) idle, every line low; (b) and (c) in HIGH, with only the selected line high; (b) and (d) in
LOW, every line low. -/
def State.PhaseInv (s : State) : Prop :=
  match s.blk.phase with
  | .idle => s.gpio = 0
  | .high => s.TransmissionInv ∧ s.gpio = Lines.drive 0 s.blk.pinL true ∧ s.elapsed.toNat < s.thr.toNat
  | .low =>
    s.TransmissionInv ∧ s.gpio = 0 ∧ s.thr.toNat ≤ s.elapsed.toNat ∧ s.elapsed.toNat < s.blk.period.toNat

/-- The cycles left of the transmission in progress. -/
def State.remaining (s : State) : Nat :=
  if s.busy then
    ((s.blk.lenL.toNat - 1 - s.blk.byteIdx.toNat) * 8 + s.blk.bitIdx.toNat) * s.blk.period.toNat
      + (s.blk.period.toNat - s.elapsed.toNat)
  else 0

/-- A scratch buffer is held, where it may lie (R146). -/
def State.ScratchHeld (s : State) : Prop := s.drv.scratch ≠ none ∧ s.mayHoldScratch s.drv.scratchBase = true

/-- The caller's pointer is saved and the active one points to the scratch buffer (R147). -/
def Driver.Swapped (d : Driver) : Prop := d.saved ≠ none ∧ d.scratch ≠ none ∧ d.pixels = some d.scratchBase

/-- The driver holds no scratch buffer and no saved pointer (R39). -/
def Driver.AtRest (d : Driver) : Prop := d.saved = none ∧ d.scratch = none

/-- What the driver holds at each stage of a call (R39, R146, R147, R150, R151); between calls it is at rest. -/
def State.CallInv (s : State) : Prop :=
  match s.drv.stage with
  | .idle => s.drv.AtRest
  | .allocate => s.drv.AtRest ∧ s.drv.pixels ≠ none
  | .copy => s.drv.saved = none ∧ s.drv.pixels ≠ none ∧ s.ScratchHeld
  | .scale => s.drv.Swapped ∧ s.ScratchHeld ∧ fitsSpace s.drv.callerBuf s.drv.numBytes.toNat = true
  | .waitIdle => s.drv.pixels ≠ none ∧ (s.drv.AtRest ∨ s.drv.Swapped)
  | .writeBuf => s.drv.pixels ≠ none ∧ (s.drv.AtRest ∨ s.drv.Swapped)
  | .writeLen => s.drv.pixels ≠ none ∧ (s.drv.AtRest ∨ s.drv.Swapped)
  | .writeCtrl => s.drv.pixels ≠ none ∧ (s.drv.AtRest ∨ s.drv.Swapped)
  | .waitDone => s.drv.pixels ≠ none ∧ (s.drv.AtRest ∨ s.drv.Swapped)
  | .swapBack => s.drv.Swapped
  | .free => s.drv.saved = none ∧ s.drv.pixels ≠ none

/-- The invariant of the machine: memory in canonical form, what the driver holds, and rule R40. -/
def State.Inv (s : State) : Prop := s.mem.wf = true ∧ s.CallInv ∧ s.PhaseInv

/-- Everything outside the block is as it was, but for the counter, the lines and the recorder. -/
def SameOutside (s t : State) : Prop :=
  t.mem = s.mem ∧ t.fCpu = s.fCpu ∧ t.busData = s.busData ∧ t.drv = s.drv ∧ t.params = s.params
    ∧ t.bufWritten = s.bufWritten ∧ t.lenWritten = s.lenWritten ∧ t.stimuli = s.stimuli ∧ t.alloc = s.alloc

/-- The latched command and timing, and the command registers, are as they were (R25, R26). -/
def SameLatched (s t : State) : Prop :=
  t.blk.pinL = s.blk.pinL ∧ t.blk.bufL = s.blk.bufL ∧ t.blk.lenL = s.blk.lenL ∧ t.blk.is800L = s.blk.is800L
    ∧ t.blk.time0 = s.blk.time0 ∧ t.blk.time1 = s.blk.time1 ∧ t.blk.period = s.blk.period
    ∧ t.blk.buf = s.blk.buf ∧ t.blk.len = s.blk.len

/-- Every line but `p` is as it was (R28). -/
def SameOtherLines (p : Pin) (s t : State) : Prop :=
  ∀ q : Pin, q ≠ p → Lines.level t.gpio q = Lines.level s.gpio q

/-- The newest recorded segment, if there is one, is low: so it is before the first cycle of every cell (R131). -/
def State.recordEndsLow (s : State) : Bool := s.obs.wave.head?.all fun g => !g.level

/-- A START with these operands breaks none of the conditions of rules R117 and R191 in this state. -/
def State.StartLegal (s : State) (pin : Pin) (is800 : Bool) : Prop :=
  s.blk.phase = .idle ∧ pin.toNat < s.params.npins ∧ s.timingLegal is800 = true
    ∧ fitsSpace s.blk.buf s.blk.len.toNat = true ∧ s.bufWritten = true ∧ s.lenWritten = true

/-- A TX of the driver with these operands breaks none of the conditions (c) to (e) of rule R117; (a) is met by its wait
(R83). -/
def State.TxLegal (s : State) (pin : Pin) (is800 : Bool) (buf : U32) (len : U16) : Prop :=
  pin.toNat < s.params.npins ∧ s.timingLegal is800 = true ∧ fitsSpace buf len.toNat = true

/-- `t` is what one TX of rule R83 of the `len` bytes `bytes` at `buf` makes of `s`: the command registers hold the operands,
the latched registers are those of rule R112, the block is idle with every line low (R125), the recorded waveform is the
frame of the bytes (R75, R131), each was read once in ascending order (R53), and the rest is as it was. Memory and the driver
are not spoken of. -/
def Transmitted (s t : State) (pin : Pin) (is800 : Bool) (buf : U32) (len : U16) (bytes : List U8) : Prop :=
  (t.blk.phase = .idle ∧ t.blk.buf = buf ∧ t.blk.len = len)
    ∧ (t.blk.pinL = pin ∧ t.blk.is800L = is800 ∧ t.blk.bufL = buf ∧ t.blk.lenL = len)
    ∧ (t.blk.time0 = s.newTime0 is800 ∧ t.blk.time1 = s.newTime1 is800 ∧ t.blk.period = s.newPeriod is800)
    ∧ t.obs.wave.reverse
        = frameWave (s.newTime0 is800).toNat (s.newTime1 is800).toNat (s.newPeriod is800).toNat bytes
    ∧ t.obs.reads.reverse = (List.range len.toNat).map (byteAddr buf)
    ∧ (∀ p : Pin, Lines.level t.gpio p = false)
    ∧ (t.fCpu = s.fCpu ∧ t.params = s.params ∧ t.stimuli = s.stimuli)

/-- The next step is one clock cycle: all are but one of a whole cell taken as a symbol (log 1). -/
def State.nextIsCycle (s : State) : Bool :=
  match s.stimuli.head? with
  | some .cell => decide (s.drv.stage ≠ .idle)
  | _ => true

/-- What the host itself would do, which waits until a driver call in progress has returned (log 1). -/
def Stimulus.waitsForCall : Stimulus → Bool
  | .quiet => false
  | .regWrite _ _ _ => true
  | .regRead _ _ => true
  | .readCounter => true
  | .memStore _ _ => true
  | .clockRate _ => false
  | .configure _ _ _ _ => true
  | .reset => false
  | .call _ => true
  | .cell => true
  | .waitIdle => true

/-- The next step is one in which `rst` arrives. -/
def State.resetArrives (s : State) : Bool := decide (s.stimuli.head? = some .reset)

/-- The step of `s` is that of a quiet cycle in `t`: what arrived has been taken in and nothing else arrives. -/
def StepsAsQuiet (s t : State) (rest : List Stimulus) : Prop := step s = step { t with stimuli := .quiet :: rest }

/-- `BUSY` in the states of a run, the first state first; it ends where the run stops. A step is one cycle, or a whole cell
in which `BUSY` is 1 throughout. -/
def busyTrace : Nat → State → List Bool
  | 0, s => [s.busy]
  | n + 1, s =>
    match step s with
    | .next t => s.busy :: busyTrace n t
    | .fault _ => [s.busy]
    | .refused _ => [s.busy]

/-- No frame begins sooner than `gap` idle cycles after the last one ended, the cycle of its START not counted among them:
`BUSY` is 0 in that cycle still, and rises in the next (R206, log 26). `since` is the number of cycles with `BUSY` = 0 since
then, `none` before the first frame. -/
def gapsKept (gap : Nat) : Option Nat → List Bool → Bool
  | _, [] => true
  | none, false :: rest => gapsKept gap none rest
  | none, true :: rest => gapsKept gap (some 0) rest
  | some n, false :: rest => gapsKept gap (some (n + 1)) rest
  | some n, true :: rest => (n == 0 || decide (gap + 1 ≤ n)) && gapsKept gap (some 0) rest

/-- The host's duty of rule R206 over `n` steps from `s`, those inside a SHOW among them: `T_LATCH` idle cycles between two
frames. Each step of an idle block is one cycle. The block does not enforce the duty. -/
def latchKept (n : Nat) (s : State) : Bool := gapsKept s.params.tLatch none (busyTrace n s)

/-- A run of `n` steps stays inside the contract: it meets no `refuse` (R12, R175). -/
def contractKept : Nat → State → Bool
  | 0, _ => true
  | n + 1, s =>
    match step s with
    | .next t => contractKept n t
    | .fault _ => false
    | .refused _ => false

end Sys2Proof.Machine
end

