-- ==== Sys2Proof/Certificates/Slice0/Obligations.lean ====
section
/-! DEFINITION. The statements for the provers, from the numbered rules of spec/. -/

open Sys2Proof Sys2Proof.Machine

/-! ### Reset and the invariant -/

/-- R191, the values it gives: idle, `BTG_STATUS` = 0, every line low, `LEN` with bits 31:16 zero, `brightness` =
`BRIGHTNESS_RESET` = 255, `pixels` null; and the model's own fields that rest on it: neither `BUF` nor `LEN` is written yet
(log 8), and no driver call is in progress (log 13). -/
def Obligations.ResetLeavesTheBlockIdleAndEveryLineLow : Prop :=
  State.reset.blk.phase = .idle ∧ State.reset.busy = false ∧ State.reset.statusWord = 0
    ∧ (∀ p : Pin, Lines.level State.reset.gpio p = false)
    ∧ (∀ i, 16 ≤ i → (State.reset.regValue .len).getLsbD i = false)
    ∧ State.reset.drv.brightness = State.reset.params.brightnessReset ∧ State.reset.drv.brightness = 255
    ∧ State.reset.drv.pixels = none
    ∧ State.reset.bufWritten = false ∧ State.reset.lenWritten = false ∧ State.reset.drv.stage = .idle

/-- R40 at reset. -/
def Obligations.ResetMeetsTheInvariant : Prop := State.reset.Inv

/-- R40: every step, whatever arrives in it, keeps the invariant. -/
def Obligations.EveryStepKeepsTheInvariant : Prop :=
  ∀ s t : State, s.Inv → step s = .next t → t.Inv

/-- R118, R184: with nothing arriving and no driver call in progress, from every state that meets the invariant the block is idle
after at most `8 * lenL * period` steps, none of which stops. -/
def Obligations.EveryTransmissionEnds : Prop :=
  ∀ s : State, s.Inv → s.stimuli = [] → s.drv.stage = .idle →
    ∃ k ≤ 8 * s.blk.lenL.toNat * s.blk.period.toNat, ∃ t : State,
      Host.Core.run Sys2Proof.core k s = .next t ∧ t.blk.phase = .idle ∧ t.Inv

/-- R8: no step changes a parameter. -/
def Obligations.NoStepChangesAParameter : Prop :=
  ∀ s t : State, step s = .next t → t.params = s.params

/-! ### Encodings -/

/-- R71, R84, R85: a word decodes to an instruction exactly when it is that instruction's word, every operand and every
ignored bit included. -/
def Obligations.DecodeAndEncodeAgree : Prop :=
  ∀ (c : Code) (i : Instr), decode c = .ok i ↔ encode i = c

/-- R71 (with R72 and R78): the table of the three commands by match and mask, and the order in which a decoder reads a
`CTRL` word. -/
def Obligations.CommandWordIsReadInRuleOrder : Prop :=
  ∀ w : U32,
    (decode (.ctrl w) =
      if w &&& 0xFFFFFF00#32 ≠ 0 then .error .reservedCommand
      else if w &&& 1#32 = 0 then .ok (.ctrlNop ((w >>> 1).setWidth 7))
      else if w &&& 2#32 ≠ 0 then .ok (.tx800 ((w >>> 2).setWidth 6))
      else .ok (.tx400 ((w >>> 2).setWidth 6)))
    ∧ ((∃ p, decode (.ctrl w) = .ok (.tx800 p)) ↔ w &&& 0xFFFFFF03#32 = 0x00000003#32)
    ∧ ((∃ p, decode (.ctrl w) = .ok (.tx400 p)) ↔ w &&& 0xFFFFFF03#32 = 0x00000001#32)
    ∧ ((∃ x, decode (.ctrl w) = .ok (.ctrlNop x)) ↔ w &&& 0xFFFFFF01#32 = 0x00000000#32)

/-- R84's table by match and mask, and no instruction for `phase` = 11. -/
def Obligations.SelectionTableByMatchAndMask : Prop :=
  ∀ v : BitVec 5,
    ((∃ x, decode (.seq v) = .ok (.idleHold x)) ↔ v &&& 0x18#5 = 0x00#5)
    ∧ ((∃ x, decode (.seq v) = .ok (.highHold x)) ↔ v &&& 0x1C#5 = 0x08#5)
    ∧ ((∃ x, decode (.seq v) = .ok (.fall x)) ↔ v &&& 0x1C#5 = 0x0C#5)
    ∧ ((∃ x, decode (.seq v) = .ok (.lowHold x)) ↔ v &&& 0x1C#5 = 0x10#5)
    ∧ ((∃ x, decode (.seq v) = .ok (.nextBit x)) ↔ v &&& 0x1E#5 = 0x14#5)
    ∧ (decode (.seq v) = .ok .nextByte ↔ v = 0x16#5)
    ∧ (decode (.seq v) = .ok .finish ↔ v = 0x17#5)
    ∧ (decode (.seq v) = .error .noSuchPhase ↔ v &&& 0x18#5 = 0x18#5)

/-- Words written out from the encodings of rules R71, R84 and R85 (some of them vectors B2 of spec/95_test_vectors.md). -/
def Obligations.WordsOfTheSpecDecode : Prop :=
  decode (.ctrl 0x0000000B#32) = .ok (.tx800 2) ∧ decode (.ctrl 0x00000041#32) = .ok (.tx400 16)
    ∧ decode (.ctrl 0x000000FE#32) = .ok (.ctrlNop 0x7F) ∧ decode (.ctrl 0x80000003#32) = .error .reservedCommand
    ∧ decode (.cell false) = .ok .sym0 ∧ decode (.cell true) = .ok .sym1
    ∧ decode (.seq 0b00110#5) = .ok (.idleHold 0b110) ∧ decode (.seq 0b10111#5) = .ok .finish
    ∧ decode (.call 0x180#9) = .ok (.setBrightness 128) ∧ decode (.call 0x0FF#9) = .ok (.showFrame 0xFF)

/-! ### What a step does -/

/-- A step runs the decoded instruction. With no driver call in progress: a command word written at `BTG_BASE`, a call word, the
data bit of a cell, and, when nothing arrives, the vector that the state selects. In a call (R83, R152): the vector selected, beside
the poll of a wait; the word that the driver writes to `BTG_CTRL`; and what the host itself would do waits until the call
returns (R155, R201; log 1). -/
def Obligations.StepRunsTheDecodedInstruction : Prop :=
  (∀ (s : State) (w : U32) (rest : List Stimulus) (i : Instr), s.drv.stage = .idle →
      s.stimuli = .regWrite .word s.params.btgBase w :: rest → decode (.ctrl w) = .ok i →
      step s = exec i { s with stimuli := rest })
    ∧ (∀ (s : State) (c : BitVec 9) (rest : List Stimulus) (i : Instr), s.drv.stage = .idle →
      s.stimuli = .call c :: rest → decode (.call c) = .ok i → step s = exec i { s with stimuli := rest })
    ∧ (∀ (s : State) (rest : List Stimulus) (i : Instr), s.drv.stage = .idle →
      s.stimuli = .cell :: rest → decode (.cell s.dataBit) = .ok i → step s = exec i { s with stimuli := rest })
    ∧ (∀ (s : State) (i : Instr), s.drv.stage = .idle →
      s.stimuli = [] → decode (.seq s.selectVector) = .ok i → step s = exec i s)
    ∧ (∀ (s : State) (rest : List Stimulus) (i : Instr), s.drv.stage = .idle →
      s.stimuli = .quiet :: rest → decode (.seq s.selectVector) = .ok i → step s = exec i { s with stimuli := rest })
    ∧ (∀ (s : State) (i : Instr), s.drv.stage = .waitIdle ∨ s.drv.stage = .waitDone → s.stimuli = [] →
      decode (.seq s.selectVector) = .ok i →
      step s = exec i { s with
        busData := s.statusWord, drv.stage := if s.busy then s.drv.stage else s.drv.afterWait })
    ∧ (∀ s : State, s.drv.stage = .writeCtrl → s.stimuli = [] →
      step s = exec (if s.drv.is800 then .tx800 s.drv.pin else .tx400 s.drv.pin) { s with drv.stage := .waitDone })
    ∧ (∀ (s t : State) (st : Stimulus) (rest : List Stimulus), s.drv.stage ≠ .idle → s.stimuli = st :: rest →
      st.waitsForCall = true → step s = .next t → t.stimuli = st :: rest)

/-- R84, R174 and section 4 of spec/41_transmit.md: in every cycle the state selects a micro-operation, it runs, and
whatever other micro-operation could run does the same. -/
def Obligations.ExactlyOneMicroOperationApplies : Prop :=
  ∀ s : State, (s.blk.phase ≠ .idle → s.blk.byteIdx.toNat < s.blk.lenL.toNat) →
    ∃ i t, decode (.seq s.selectVector) = .ok i ∧ exec i s = .next t
      ∧ ∀ v j u, decode (.seq v) = .ok j → exec j s = .next u → u = t

/-- R27: in every cycle, whatever arrives, the counter counts one, and the host's counter read gives its value in that cycle. Which
steps are one cycle is log 1; `rst` is left out, since rule R191 calls the counter unspecified after it (log 17); that the value
lands in `busData` is log 19. -/
def Obligations.CounterCountsEveryCycle : Prop :=
  (∀ s t : State, s.nextIsCycle = true → s.resetArrives = false → step s = .next t → t.cc = s.cc + 1)
    ∧ (∀ (s : State) (rest : List Stimulus), s.drv.stage = .idle → s.stimuli = .readCounter :: rest →
      StepsAsQuiet s { s with busData := s.cc } rest)

/-! ### Commands -/

/-- R113 (with R112, R92, R95, R116): TX800. Its word, then its effect in the cycle the write arrives. -/
def Obligations.Tx800StartsATransmission : Prop :=
  (∀ (pin : Pin) (w : U32), decode (.ctrl w) = .ok (.tx800 pin) ↔ w = 0#24 ++ pin ++ 0b11#2)
    ∧ ∀ (pin : Pin) (s : State), s.StartLegal pin true →
    (s.blk.len ≠ 0 → ∃ t, exec (.tx800 pin) s = .next t ∧ t.busy = true ∧ t.lineFlag = true
      ∧ t = { s with
          cc := s.cc + 1
          gpio := Lines.drive s.gpio pin true
          blk := { s.blk with
            phase := .high, pix := s.mem.read s.blk.buf, byteIdx := 0, bitIdx := 7, startTime := s.cc + 1
            pinL := pin, is800L := true, bufL := s.blk.buf, lenL := s.blk.len
            time0 := BitVec.ofNat 32 (s.fCpu.toNat / s.params.div800T0H - s.params.comp)
            time1 := BitVec.ofNat 32 (s.fCpu.toNat / s.params.div800T1H - s.params.comp)
            period := BitVec.ofNat 32 (s.fCpu.toNat / s.params.div800Period) }
          obs := { wave := [], reads := [s.blk.buf] } })
    ∧ (s.blk.len = 0 → ∃ t, exec (.tx800 pin) s = .next t ∧ t.busy = false ∧ t.lineFlag = false
      ∧ t = { s with
          cc := s.cc + 1
          blk := { s.blk with
            pinL := pin, is800L := true, bufL := s.blk.buf, lenL := s.blk.len
            time0 := BitVec.ofNat 32 (s.fCpu.toNat / s.params.div800T0H - s.params.comp)
            time1 := BitVec.ofNat 32 (s.fCpu.toNat / s.params.div800T1H - s.params.comp)
            period := BitVec.ofNat 32 (s.fCpu.toNat / s.params.div800Period) }
          obs := { wave := [], reads := [] } })

/-- R115 (with R112, R93, R95, R116): TX400. Its word, then its effect in the cycle the write arrives. -/
def Obligations.Tx400StartsATransmission : Prop :=
  (∀ (pin : Pin) (w : U32), decode (.ctrl w) = .ok (.tx400 pin) ↔ w = 0#24 ++ pin ++ 0b01#2)
    ∧ ∀ (pin : Pin) (s : State), s.StartLegal pin false →
    (s.blk.len ≠ 0 → ∃ t, exec (.tx400 pin) s = .next t ∧ t.busy = true ∧ t.lineFlag = true
      ∧ t = { s with
          cc := s.cc + 1
          gpio := Lines.drive s.gpio pin true
          blk := { s.blk with
            phase := .high, pix := s.mem.read s.blk.buf, byteIdx := 0, bitIdx := 7, startTime := s.cc + 1
            pinL := pin, is800L := false, bufL := s.blk.buf, lenL := s.blk.len
            time0 := BitVec.ofNat 32 (s.fCpu.toNat / s.params.div400T0H - s.params.comp)
            time1 := BitVec.ofNat 32 (s.fCpu.toNat / s.params.div400T1H - s.params.comp)
            period := BitVec.ofNat 32 (s.fCpu.toNat / s.params.div400Period) }
          obs := { wave := [], reads := [s.blk.buf] } })
    ∧ (s.blk.len = 0 → ∃ t, exec (.tx400 pin) s = .next t ∧ t.busy = false ∧ t.lineFlag = false
      ∧ t = { s with
          cc := s.cc + 1
          blk := { s.blk with
            pinL := pin, is800L := false, bufL := s.blk.buf, lenL := s.blk.len
            time0 := BitVec.ofNat 32 (s.fCpu.toNat / s.params.div400T0H - s.params.comp)
            time1 := BitVec.ofNat 32 (s.fCpu.toNat / s.params.div400T1H - s.params.comp)
            period := BitVec.ofNat 32 (s.fCpu.toNat / s.params.div400Period) }
          obs := { wave := [], reads := [] } })

/-- R117: the five cases in which a START is `refuse`, named after the first that holds, (a) to (e); the names are the model's
(log 7). Cases (a) and (c) to (e) are stated of the two START instructions, (a) and (b) of a write of a reserved word with
`START` = 1. -/
def Obligations.StartIsRefusedInRuleOrder : Prop :=
  (∀ (pin : Pin) (r : Bool) (s : State), ∀ i, i = (if r then Instr.tx800 pin else Instr.tx400 pin) →
      (s.blk.phase ≠ .idle → exec i s = .refused .startWhileBusy)
      ∧ (s.blk.phase = .idle → s.params.npins ≤ pin.toNat → exec i s = .refused .pinOutOfRange)
      ∧ (s.blk.phase = .idle → pin.toNat < s.params.npins → s.timingLegal r = false →
          exec i s = .refused .illegalTiming)
      ∧ (s.blk.phase = .idle → pin.toNat < s.params.npins → s.timingLegal r = true →
          4294967296 < s.blk.buf.toNat + s.blk.len.toNat → exec i s = .refused .bufferPastTop))
    ∧ (∀ (s : State) (w : U32) (rest : List Stimulus), s.drv.stage = .idle →
      s.stimuli = .regWrite .word s.params.btgBase w :: rest → w &&& 0xFFFFFF00#32 ≠ 0 → w &&& 1#32 = 1 →
      step s = .refused (if s.blk.phase = .idle then .reservedCommand else .startWhileBusy))

/-- R191 (last sentence of its text): a START that breaks nothing else, before the host has written both `BUF` and `LEN`, is
`refuse`. -/
def Obligations.StartBeforeTheOperandsIsRefused : Prop :=
  ∀ (pin : Pin) (s : State), s.blk.phase = .idle → pin.toNat < s.params.npins →
    fitsSpace s.blk.buf s.blk.len.toNat = true → (s.bufWritten = false ∨ s.lenWritten = false) →
    (s.timingLegal true = true → exec (.tx800 pin) s = .refused .operandsNotWritten)
      ∧ (s.timingLegal false = true → exec (.tx400 pin) s = .refused .operandsNotWritten)

/-- R114: CTRL_NOP, by its word, changes nothing but the count of the cycle while idle, and is `refuse` while busy. -/
def Obligations.CtrlNopChangesNothing : Prop :=
  (∀ (x : BitVec 7) (w : U32), decode (.ctrl w) = .ok (.ctrlNop x) ↔ w = 0#24 ++ x ++ 0b0#1)
    ∧ ∀ (x : BitVec 7) (s : State),
    (s.blk.phase = .idle → exec (.ctrlNop x) s = .next { s with cc := s.cc + 1 })
      ∧ (s.blk.phase ≠ .idle → exec (.ctrlNop x) s = .refused .registerWriteWhileBusy)

/-! ### Timing parameters -/

/-- R97: every row of the table, at the default divisors and `COMP` = 0. -/
def Obligations.TimingTableRows : Prop :=
  ∀ n : Bool → Nat → Nominal, (n = fun r f => nominal Params.standard r (BitVec.ofNat 32 f)) →
    n true 80000000 = ⟨32, 64, 100⟩ ∧ n false 80000000 = ⟨40, 96, 200⟩
    ∧ n true 160000000 = ⟨64, 128, 200⟩ ∧ n false 160000000 = ⟨80, 192, 400⟩
    ∧ n true 240000000 = ⟨96, 192, 300⟩ ∧ n false 240000000 = ⟨120, 288, 600⟩
    ∧ n true 26000000 = ⟨10, 20, 32⟩ ∧ n false 26000000 = ⟨13, 31, 65⟩
    ∧ n true 2500000 = ⟨1, 2, 3⟩ ∧ n true 2499999 = ⟨0, 1, 3⟩ ∧ n false 2000000 = ⟨1, 2, 5⟩
    ∧ n false 1999999 = ⟨0, 2, 4⟩ ∧ n true 1000000 = ⟨0, 0, 1⟩
    ∧ (∀ f ∈ [80000000, 160000000, 240000000, 26000000], ∀ r, (n r f).legal 0 = true)
    ∧ (n true 2500000).legal 0 = true ∧ (n true 2499999).legal 0 = false ∧ (n false 2000000).legal 0 = true
    ∧ (n false 1999999).legal 0 = false ∧ (n true 1000000).legal 0 = false

/-- R96, second part: with `COMP` = 0 and the divisors of rule R8 a START's timing is legal exactly from 2 500 000 Hz
(800 kHz) and from 2 000 000 Hz (400 kHz) on. -/
def Obligations.TimingIsLegalExactlyFromTheSmallestClock : Prop :=
  ∀ f : U32,
    ((nominal Params.standard true f).legal 0 = true ↔ 2500000 ≤ f.toNat)
      ∧ ((nominal Params.standard false f).legal 0 = true ↔ 2000000 ≤ f.toNat)

/-- R90, first sentence and last: a change of `f_cpu` is taken in by the port, and while busy changes no latched value; with no
driver call in progress the rest of the cycle is that of a quiet one. -/
def Obligations.ClockRateIsNotReadWhileBusy : Prop :=
  ∀ (s : State) (hz : U32) (rest : List Stimulus), s.stimuli = .clockRate hz :: rest →
    (s.drv.stage = .idle → StepsAsQuiet s { s with fCpu := hz } rest)
      ∧ (s.blk.phase ≠ .idle → ∀ t, step s = .next t → t.fCpu = hz ∧ SameLatched s t)

/-! ### The sequencer -/

/-- R120: IDLE_HOLD. -/
def Obligations.IdleHoldOnlyCounts : Prop :=
  ∀ (x : BitVec 3) (s : State), s.blk.phase = .idle →
    ∃ t, exec (.idleHold x) s = .next t ∧ t = { s with cc := s.cc + 1 } ∧ t.busy = false ∧ t.lineFlag = false

/-- R121: HIGH_HOLD. The recorder notes the line's level in the cycle; under the invariant the line is high. -/
def Obligations.HighHoldOnlyCounts : Prop :=
  ∀ (x : BitVec 2) (s : State), s.blk.phase = .high → s.elapsed.toNat + 1 < s.thr.toNat →
    ∃ t, exec (.highHold x) s = .next t
      ∧ t = { s with cc := s.cc + 1, obs.wave := pushSegment s.lineLevel 1 s.obs.wave }
      ∧ t.busy = true ∧ (s.Inv → t.lineFlag = true)

/-- R127: LOW_HOLD. -/
def Obligations.LowHoldOnlyCounts : Prop :=
  ∀ (x : BitVec 2) (s : State), s.blk.phase = .low → s.elapsed.toNat + 1 < s.blk.period.toNat →
    ∃ t, exec (.lowHold x) s = .next t
      ∧ t = { s with cc := s.cc + 1, obs.wave := pushSegment s.lineLevel 1 s.obs.wave }
      ∧ t.busy = true ∧ (s.Inv → t.lineFlag = false)

/-- R123: FALL; under the invariant it fires at equality, after exactly `thr` high cycles. -/
def Obligations.FallDrivesTheLineLow : Prop :=
  ∀ (x : BitVec 2) (s : State), s.blk.phase = .high → s.thr.toNat ≤ s.elapsed.toNat + 1 →
    ∃ t, exec (.fall x) s = .next t
      ∧ t = { s with
          cc := s.cc + 1, gpio := Lines.drive s.gpio s.blk.pinL false, blk := { s.blk with phase := .low }
          obs := { s.obs with wave := pushSegment s.lineLevel 1 s.obs.wave } }
      ∧ t.busy = true ∧ t.lineFlag = false ∧ (s.Inv → s.elapsed.toNat + 1 = s.thr.toNat)

/-- R124 (with R122): NEXT_BIT; under the invariant the cell it ends has lasted exactly `period` cycles. -/
def Obligations.NextBitBeginsTheNextCell : Prop :=
  ∀ (x : BitVec 1) (s : State), s.blk.phase = .low → s.blk.period.toNat ≤ s.elapsed.toNat + 1 →
    0 < s.blk.bitIdx.toNat →
    ∃ t, exec (.nextBit x) s = .next t
      ∧ t = { s with
          cc := s.cc + 1, gpio := Lines.drive s.gpio s.blk.pinL true
          blk := { s.blk with bitIdx := s.blk.bitIdx - 1, startTime := s.cc + 1, phase := .high }
          obs := { s.obs with wave := pushSegment s.lineLevel 1 s.obs.wave } }
      ∧ t.busy = true ∧ t.lineFlag = true ∧ t.elapsed = 0
      ∧ (s.Inv → s.elapsed.toNat + 1 = s.blk.period.toNat)

/-- R126 (with R122): NEXT_BYTE; under the invariant the cell it ends has lasted exactly `period` cycles: no gap. -/
def Obligations.NextByteReadsAndBeginsItsFirstCell : Prop :=
  ∀ s : State, s.blk.phase = .low → s.blk.period.toNat ≤ s.elapsed.toNat + 1 → s.blk.bitIdx = 0 →
    s.blk.byteIdx.toNat + 1 < s.blk.lenL.toNat →
    ∃ t, exec .nextByte s = .next t
      ∧ t = { s with
          cc := s.cc + 1, gpio := Lines.drive s.gpio s.blk.pinL true
          blk := { s.blk with
            pix := s.mem.read (s.blk.bufL + BitVec.ofNat 32 (s.blk.byteIdx.toNat + 1))
            byteIdx := s.blk.byteIdx + 1, bitIdx := 7, startTime := s.cc + 1, phase := .high }
          obs := {
            wave := pushSegment s.lineLevel 1 s.obs.wave
            reads := (s.blk.bufL + BitVec.ofNat 32 (s.blk.byteIdx.toNat + 1)) :: s.obs.reads } }
      ∧ t.busy = true ∧ t.lineFlag = true ∧ t.elapsed = 0
      ∧ (s.Inv → s.elapsed.toNat + 1 = s.blk.period.toNat)

/-- R125: FINISH; `busy` falls, and under the invariant the line is low and stays low. -/
def Obligations.FinishEndsTheTransmission : Prop :=
  ∀ s : State, s.blk.phase = .low → s.blk.period.toNat ≤ s.elapsed.toNat + 1 → s.blk.bitIdx = 0 →
    s.blk.byteIdx.toNat + 1 = s.blk.lenL.toNat →
    ∃ t, exec .finish s = .next t
      ∧ t = { s with
          cc := s.cc + 1, blk := { s.blk with phase := .idle }
          obs := { s.obs with wave := pushSegment s.lineLevel 1 s.obs.wave } }
      ∧ t.busy = false ∧ t.lineFlag = false
      ∧ (s.Inv → Lines.level t.gpio s.blk.pinL = false ∧ s.elapsed.toNat + 1 = s.blk.period.toNat)

/-- R132: the elapsed count is exact for every count below 2^32, across the counter's wrap. -/
def Obligations.ElapsedCountIsExactAcrossTheWrap : Prop :=
  ∀ (s : State) (n : Nat), n < 4294967296 → s.cc = s.blk.startTime + BitVec.ofNat 32 n → s.elapsed.toNat = n

/-! ### The wire symbols and the frame -/

/-- R128 (with R74, R122 to R127): SYM0, from the first cycle of a cell of a 0 bit. That the whole
cell and the micro-operation that ends it are one step is log 11; the record is log 23. -/
def Obligations.Sym0IsOneCell : Prop :=
  ∀ s : State, s.blk.phase = .high → s.blk.startTime = s.cc → s.lineLevel = true → s.dataBit = false →
    1 ≤ s.blk.time0.toNat → s.blk.time0.toNat < s.blk.period.toNat → s.recordEndsLow = true →
    ∃ t, exec .sym0 s = .next t
      ∧ t.obs.wave = { level := false, cycles := s.blk.period.toNat - s.blk.time0.toNat }
          :: { level := true, cycles := s.blk.time0.toNat } :: s.obs.wave
      ∧ t.cc = s.cc + s.blk.period ∧ SameOutside s t ∧ SameLatched s t ∧ SameOtherLines s.blk.pinL s t
      ∧ (s.blk.bitIdx ≠ 0 → t.blk.phase = .high ∧ t.blk.startTime = t.cc ∧ t.lineLevel = true
          ∧ t.blk.bitIdx = s.blk.bitIdx - 1 ∧ t.blk.byteIdx = s.blk.byteIdx ∧ t.blk.pix = s.blk.pix
          ∧ t.obs.reads = s.obs.reads)
      ∧ (s.blk.bitIdx = 0 → s.blk.byteIdx.toNat + 1 ≠ s.blk.lenL.toNat →
          t.blk.phase = .high ∧ t.blk.startTime = t.cc ∧ t.lineLevel = true
          ∧ t.blk.bitIdx = 7 ∧ t.blk.byteIdx = s.blk.byteIdx + 1 ∧ t.blk.pix = s.mem.read s.nextByteAddr
          ∧ t.obs.reads = s.nextByteAddr :: s.obs.reads)
      ∧ (s.blk.bitIdx = 0 → s.blk.byteIdx.toNat + 1 = s.blk.lenL.toNat →
          t.blk.phase = .idle ∧ t.lineLevel = false ∧ t.obs.reads = s.obs.reads)

/-- R129 (with R74, R122 to R127): SYM1, from the first cycle of a cell of a 1 bit. That the whole
cell and the micro-operation that ends it are one step is log 11; the record is log 23. -/
def Obligations.Sym1IsOneCell : Prop :=
  ∀ s : State, s.blk.phase = .high → s.blk.startTime = s.cc → s.lineLevel = true → s.dataBit = true →
    1 ≤ s.blk.time1.toNat → s.blk.time1.toNat < s.blk.period.toNat → s.recordEndsLow = true →
    ∃ t, exec .sym1 s = .next t
      ∧ t.obs.wave = { level := false, cycles := s.blk.period.toNat - s.blk.time1.toNat }
          :: { level := true, cycles := s.blk.time1.toNat } :: s.obs.wave
      ∧ t.cc = s.cc + s.blk.period ∧ SameOutside s t ∧ SameLatched s t ∧ SameOtherLines s.blk.pinL s t
      ∧ (s.blk.bitIdx ≠ 0 → t.blk.phase = .high ∧ t.blk.startTime = t.cc ∧ t.lineLevel = true
          ∧ t.blk.bitIdx = s.blk.bitIdx - 1 ∧ t.blk.byteIdx = s.blk.byteIdx ∧ t.blk.pix = s.blk.pix
          ∧ t.obs.reads = s.obs.reads)
      ∧ (s.blk.bitIdx = 0 → s.blk.byteIdx.toNat + 1 ≠ s.blk.lenL.toNat →
          t.blk.phase = .high ∧ t.blk.startTime = t.cc ∧ t.lineLevel = true
          ∧ t.blk.bitIdx = 7 ∧ t.blk.byteIdx = s.blk.byteIdx + 1 ∧ t.blk.pix = s.mem.read s.nextByteAddr
          ∧ t.obs.reads = s.nextByteAddr :: s.obs.reads)
      ∧ (s.blk.bitIdx = 0 → s.blk.byteIdx.toNat + 1 = s.blk.lenL.toNat →
          t.blk.phase = .idle ∧ t.lineLevel = false ∧ t.obs.reads = s.obs.reads)

/-- R130: a wire symbol (one step, log 11) is what `period` steps of one cycle each make of the same state, nothing arriving and no
driver call in progress. -/
def Obligations.SymbolEqualsItsCycles : Prop :=
  ∀ (s t : State) (b : Bool), s.stimuli = [] → s.drv.stage = .idle → s.blk.byteIdx.toNat < s.blk.lenL.toNat →
    exec (if b then .sym1 else .sym0) s = .next t →
    Host.Core.run Sys2Proof.core s.blk.period.toNat s = .next t

/-- R130: in cycle `d` of a transmission that an accepted START began, nothing arriving, the block is busy and the line is
high exactly when `d mod period` is below the threshold of bit `b_k`, `k = d / period`; from cycle `8 * N * period` on the
block is idle and the line low. -/
def Obligations.LineFollowsTheClosedForm : Prop :=
  ∀ (s t : State) (pin : Pin) (r : Bool), s.stimuli = [] → s.drv.stage = .idle → s.blk.len ≠ 0 →
    exec (if r then .tx800 pin else .tx400 pin) s = .next t →
    ∀ d : Nat, ∃ v : State, Host.Core.run Sys2Proof.core d t = .next v
      ∧ (d < 8 * s.blk.len.toNat * t.blk.period.toNat → v.busy = true
        ∧ Lines.level v.gpio pin
          = decide (d % t.blk.period.toNat
              < (if frameBit s.mem s.blk.buf (d / t.blk.period.toNat) then t.blk.time1 else t.blk.time0).toNat))
      ∧ (8 * s.blk.len.toNat * t.blk.period.toNat ≤ d → v.busy = false ∧ Lines.level v.gpio pin = false)

/-- R118, R131, R53, R125: the transmission that an accepted START began ends after `8 * N * period` cycles, idle, the
line low, the recorded waveform the frame of the buffer's bytes, each byte read once in ascending order. -/
def Obligations.FrameIsSentExactly : Prop :=
  ∀ (s t : State) (pin : Pin) (r : Bool), s.stimuli = [] → s.drv.stage = .idle → s.blk.len ≠ 0 →
    exec (if r then .tx800 pin else .tx400 pin) s = .next t →
    ∃ u : State, Host.Core.run Sys2Proof.core (8 * s.blk.len.toNat * t.blk.period.toNat) t = .next u
      ∧ u.blk.phase = .idle ∧ Lines.level u.gpio pin = false
      ∧ u.cc = t.cc + BitVec.ofNat 32 (8 * s.blk.len.toNat * t.blk.period.toNat)
      ∧ u.obs.wave.reverse = frameWave t.blk.time0.toNat t.blk.time1.toNat t.blk.period.toNat
          (s.mem.bytes s.blk.buf s.blk.len.toNat)
      ∧ u.obs.reads.reverse = (List.range s.blk.len.toNat).map (fun i => s.blk.buf + BitVec.ofNat 32 i)
      ∧ SameOutside s u ∧ SameOtherLines pin s u

/-- R133: two transmissions with the same clock, parameters, rate and bytes record the same waveform, whatever the
counter, the pins, the places of the buffers, the other lines and everything that went before. -/
def Obligations.WaveformDependsOnClockRateAndBytesOnly : Prop :=
  ∀ (s s' t t' u u' : State) (pin pin' : Pin) (r : Bool) (n : Nat),
    s.stimuli = [] → s'.stimuli = [] → s.drv.stage = .idle → s'.drv.stage = .idle → s.blk.len ≠ 0 →
    s'.params = s.params → s'.fCpu = s.fCpu → s'.blk.len = s.blk.len →
    s'.mem.bytes s'.blk.buf s'.blk.len.toNat = s.mem.bytes s.blk.buf s.blk.len.toNat →
    exec (if r then .tx800 pin else .tx400 pin) s = .next t →
    exec (if r then .tx800 pin' else .tx400 pin') s' = .next t' →
    n = 8 * s.blk.len.toNat * t.blk.period.toNat →
    Host.Core.run Sys2Proof.core n t = .next u → Host.Core.run Sys2Proof.core n t' = .next u' →
    u'.obs.wave = u.obs.wave ∧ u.blk.phase = .idle ∧ u'.blk.phase = .idle

/-- R75: a frame of `N` bytes lasts `8 * N * period` cycles whatever its bits, and has `16 * N` segments (R131). -/
def Obligations.FrameDurationIsIndependentOfTheBits : Prop :=
  ∀ (t0 t1 p : Nat) (bytes : List U8), t0 < t1 → t1 < p →
    waveCycles (frameWave t0 t1 p bytes) = 8 * bytes.length * p
      ∧ (frameWave t0 t1 p bytes).length = 16 * bytes.length

/-- R77: a high time reads as the bit whose uncompensated time is closer, and as nothing at equal distances; at legal timing
the frame reads back as the bits it was made of whenever `COMP < (T1H - T0H) / 2`. -/
def Obligations.FrameReadsBackAsItsBits : Prop :=
  (∀ (n : Nominal) (comp : Nat) (bytes : List U8), n.legal comp = true → 2 * comp < n.t1H - n.t0H →
      readWave n (frameWave (n.time0 comp) (n.time1 comp) n.period bytes) = some (bytes.flatMap sentBits))
    ∧ (∀ (n : Nominal) (h : Nat), distance h n.t0H < distance h n.t1H → readHigh n h = some false)
    ∧ (∀ (n : Nominal) (h : Nat), distance h n.t1H < distance h n.t0H → readHigh n h = some true)
    ∧ (∀ (n : Nominal) (h : Nat), distance h n.t0H = distance h n.t1H → readHigh n h = none)

/-- R207: what a hold of `d` cycles does to the software routine (never to the block, R184). A wait that is not over yet is not
disturbed. Held in the high wait beyond `thr`: the high part lasts until resumption, and the end of the cell does not move, so
the low part is shortened by as much. Held beyond `period`, in either wait: the part lasts until resumption, a low part that had
not begun vanishes, and the next cell starts then, timed from its own recorded start; the rest is late by exactly the amount
by which the hold passed `period`. That the hold is a function outside step is log 24. -/
def Obligations.HoldDistortsTheSoftwareRoutine : Prop :=
  ∀ (s t : State) (d : Nat), s.Inv → s.blk.phase ≠ .idle → s.elapsed.toNat + d < 4294967296 → t = s.heldThenResumed d →
    (s.blk.phase = .high → s.elapsed.toNat + d < s.thr.toNat → t = s.holdFor d)
      ∧ (s.blk.phase = .high → s.thr.toNat ≤ s.elapsed.toNat + d → s.elapsed.toNat + d < s.blk.period.toNat →
        t.blk.phase = .low ∧ t.lineLevel = false ∧ t.elapsed.toNat = s.elapsed.toNat + d
          ∧ t.obs.wave = pushSegment true d s.obs.wave ∧ SameLatched s t)
      ∧ (s.blk.phase = .low → s.elapsed.toNat + d < s.blk.period.toNat → t = s.holdFor d)
      ∧ (s.blk.period.toNat ≤ s.elapsed.toNat + d → t.cc = s.cc + BitVec.ofNat 32 d ∧ SameLatched s t
        ∧ t.obs.wave = pushSegment (decide (s.blk.phase = .high)) d s.obs.wave
        ∧ (s.blk.bitIdx ≠ 0 → t.blk.phase = .high ∧ t.lineLevel = true ∧ t.blk.startTime = t.cc
            ∧ t.blk.bitIdx = s.blk.bitIdx - 1 ∧ t.blk.byteIdx = s.blk.byteIdx)
        ∧ (s.blk.bitIdx = 0 → s.blk.byteIdx.toNat + 1 ≠ s.blk.lenL.toNat →
            t.blk.phase = .high ∧ t.lineLevel = true ∧ t.blk.startTime = t.cc
            ∧ t.blk.bitIdx = 7 ∧ t.blk.byteIdx = s.blk.byteIdx + 1 ∧ t.blk.pix = s.mem.read s.nextByteAddr)
        ∧ (s.blk.bitIdx = 0 → s.blk.byteIdx.toNat + 1 = s.blk.lenL.toNat → t.blk.phase = .idle ∧ t.gpio = 0))
      ∧ t.Inv ∧ t.remaining + d = s.remaining + (s.elapsed.toNat + d - s.blk.period.toNat)

/-! ### What instructions leave alone -/

/-- R28: an instruction, and a step in which `rst` does not arrive, writes no line but the selected one. -/
def Obligations.OnlyTheSelectedLineIsWritten : Prop :=
  (∀ (i : Instr) (s t : State), exec i s = .next t → SameOtherLines t.blk.pinL s t)
    ∧ (∀ s t : State, s.resetArrives = false → step s = .next t → SameOtherLines t.blk.pinL s t)

/-- R50, R66: no instruction writes memory in its own cycle, and nothing of the driver but SETBRIGHTNESS's brightness and SHOW's
stage; a step under the invariant writes a byte only where the host stores it, or where a SHOW in progress copies or scales:
inside the scratch buffer. -/
def Obligations.OnlyTheHostAndShowWriteMemory : Prop :=
  (∀ (i : Instr) (s t : State), exec i s = .next t →
      t.mem = s.mem ∧ t.alloc = s.alloc ∧ t.fCpu = s.fCpu ∧ t.busData = s.busData ∧ t.stimuli = s.stimuli
        ∧ ((∀ n, i ≠ .setBrightness n) → (∀ x, i ≠ .showFrame x) → t.drv = s.drv)
        ∧ ((∃ n, i = .setBrightness n) → t.drv = { s.drv with brightness := t.drv.brightness })
        ∧ ((∃ x, i = .showFrame x) → t.drv = { s.drv with stage := t.drv.stage }))
    ∧ (∀ (s t : State) (b : U32), s.Inv → step s = .next t →
      t.mem.read b = s.mem.read b
        ∨ (s.drv.stage = .idle ∧ ∃ v, s.stimuli.head? = some (.memStore b v))
        ∨ ((s.drv.stage = .copy ∨ s.drv.stage = .scale)
          ∧ inRange s.drv.scratchBase s.drv.numBytes.toNat b = true))

/-- R25, R26: the latched command and timing are written only by an accepted START, none is accepted while busy, and no step of a
busy block in which `rst` does not arrive changes them. -/
def Obligations.LatchedRegistersAreWrittenOnlyByStart : Prop :=
  (∀ (i : Instr) (s t : State), (∀ p, i ≠ .tx800 p) → (∀ p, i ≠ .tx400 p) → exec i s = .next t → SameLatched s t)
    ∧ (∀ (s : State) (p : Pin), s.blk.phase ≠ .idle →
      exec (.tx800 p) s = .refused .startWhileBusy ∧ exec (.tx400 p) s = .refused .startWhileBusy)
    ∧ (∀ s t : State, s.blk.phase ≠ .idle → s.resetArrives = false → step s = .next t → SameLatched s t)

/-! ### Registers, memory and reset as the host reaches them -/

/-- R31: the bits of `BTG_STATUS`, and that reading it has no side effect. That the word lands in `busData` is log 19. -/
def Obligations.StatusWordShowsBusyAndLine : Prop :=
  ∀ s : State,
    s.statusWord.getLsbD 0 = s.busy
      ∧ s.statusWord.getLsbD 1 = (if s.busy then Lines.level s.gpio s.blk.pinL else false)
      ∧ (∀ i, 2 ≤ i → s.statusWord.getLsbD i = false)
      ∧ ∀ rest, s.drv.stage = .idle → s.stimuli = .regRead .word (s.params.btgBase + 12) :: rest →
          StepsAsQuiet s { s with busData := s.statusWord } rest

/-- R29, R31, R32: a read of a register, at any time that the host is free to read, gives it the register's value (in `busData`:
log 19) and changes nothing else. -/
def Obligations.RegisterReadsChangeNothing : Prop :=
  ∀ (s : State) (rest : List Stimulus), s.drv.stage = .idle →
    (s.stimuli = .regRead .word s.params.btgBase :: rest → StepsAsQuiet s { s with busData := 0 } rest)
      ∧ (s.stimuli = .regRead .word (s.params.btgBase + 4) :: rest → StepsAsQuiet s { s with busData := s.blk.buf } rest)
      ∧ (s.stimuli = .regRead .word (s.params.btgBase + 8) :: rest →
          StepsAsQuiet s { s with busData := 0#16 ++ s.blk.len } rest)
      ∧ (s.stimuli = .regRead .word (s.params.btgBase + 12) :: rest →
          StepsAsQuiet s { s with busData := s.statusWord } rest)

/-- R29, R79, R208: while idle a write of `BTG_BUF` or `BTG_LEN` takes effect in the next cycle (of `BTG_LEN` bits 15:0);
a write of `BTG_STATUS` is ignored at any time. -/
def Obligations.RegisterWritesTakeEffectNextCycle : Prop :=
  ∀ (s : State) (d : U32) (rest : List Stimulus), s.drv.stage = .idle →
    (s.blk.phase = .idle → s.stimuli = .regWrite .word (s.params.btgBase + 4) d :: rest →
        step s = .next { s with
          stimuli := rest, cc := s.cc + 1, blk := { s.blk with buf := d }, bufWritten := true })
      ∧ (s.blk.phase = .idle → s.stimuli = .regWrite .word (s.params.btgBase + 8) d :: rest →
        step s = .next { s with
          stimuli := rest, cc := s.cc + 1, blk := { s.blk with len := d.extractLsb' 0 16 }, lenWritten := true })
      ∧ (s.stimuli = .regWrite .word (s.params.btgBase + 12) d :: rest → StepsAsQuiet s s rest)

/-- R32, U4: while busy a write of `BTG_CTRL`, `BTG_BUF` or `BTG_LEN` is `refuse`, whatever is written. -/
def Obligations.RegisterWritesWhileBusyAreRefused : Prop :=
  ∀ (s : State) (d : U32) (rest : List Stimulus), s.drv.stage = .idle → s.blk.phase ≠ .idle →
    (s.stimuli = .regWrite .word s.params.btgBase d :: rest →
        step s = .refused (if d &&& 1#32 = 1 then .startWhileBusy else .registerWriteWhileBusy))
      ∧ (s.stimuli = .regWrite .word (s.params.btgBase + 4) d :: rest → step s = .refused .registerWriteWhileBusy)
      ∧ (s.stimuli = .regWrite .word (s.params.btgBase + 8) d :: rest → step s = .refused .registerWriteWhileBusy)

/-- R56, U18: a narrow or misaligned access to the sixteen bytes of the registers is `refuse` (misaligned by the offset from
`BTG_BASE`: log 32). -/
def Obligations.NarrowOrMisalignedAccessIsRefused : Prop :=
  ∀ (s : State) (w : Width) (k : Nat) (d : U32) (rest : List Stimulus), s.drv.stage = .idle →
    k < 16 → (w ≠ .word ∨ k % 4 ≠ 0) →
    (s.stimuli = .regWrite w (s.params.btgBase + BitVec.ofNat 32 k) d :: rest → step s = .refused .badRegisterAccess)
      ∧ (s.stimuli = .regRead w (s.params.btgBase + BitVec.ofNat 32 k) :: rest → step s = .refused .badRegisterAccess)

/-- R61: a host write into the buffer of the transmission in progress is `refuse`; any other write stores its byte and the
cycle is a quiet one. -/
def Obligations.BufferWriteWhileBusyIsRefused : Prop :=
  ∀ (s : State) (a : U32) (v : U8) (rest : List Stimulus), s.drv.stage = .idle → s.stimuli = .memStore a v :: rest →
    (s.blk.phase ≠ .idle → s.blk.bufL.toNat ≤ a.toNat → a.toNat < s.blk.bufL.toNat + s.blk.lenL.toNat →
        step s = .refused .bufferWriteWhileBusy)
      ∧ ((s.blk.phase = .idle ∨ a.toNat < s.blk.bufL.toNat ∨ s.blk.bufL.toNat + s.blk.lenL.toNat ≤ a.toNat) →
        StepsAsQuiet s { s with mem := s.mem.write a v } rest)

/-- R52, R66: a byte reads as it was last written, a write leaves every other byte alone, and the canonical form of memory is
kept. -/
def Obligations.MemoryReadsWhatWasWritten : Prop :=
  ∀ (m : Memory) (a b : U32) (v : U8), m.wf = true →
    (m.write a v).read a = v ∧ (b ≠ a → (m.write a v).read b = m.read b) ∧ (m.write a v).wf = true

/-- R192 (with the values rule R191 gives): `rst` ends a transmission at once, with every line low, and resets the driver; and the
model's own fields that rest on it: neither `BUF` nor `LEN` is written (log 8), no call is in progress (log 13). -/
def Obligations.ResetDuringATransmission : Prop :=
  ∀ (s : State) (rest : List Stimulus), s.stimuli = .reset :: rest →
    ∃ t, step s = .next t ∧ t.blk.phase = .idle ∧ t.busy = false ∧ t.statusWord = 0
      ∧ (∀ p : Pin, Lines.level t.gpio p = false) ∧ t.drv.brightness = s.params.brightnessReset
      ∧ t.drv.pixels = none ∧ t.params = s.params ∧ t.stimuli = rest
      ∧ t.bufWritten = false ∧ t.lenWritten = false ∧ t.drv.stage = .idle

/-! ### The host driver -/

/-- R141: SETBRIGHTNESS. The call takes one clock cycle, in which the block runs on as in any other (log 13). -/
def Obligations.SetBrightnessChangesOnlyBrightness : Prop :=
  ∀ (n : U8) (s : State),
    exec (.setBrightness n) s = .next { s.sequencerCycle with drv := { s.drv with brightness := n } }

/-- R142: SHOW with a null pointer returns at once: the cycle of the call passes as any other of the block (log 13). Null is a value
apart from every address (log 31); that the call returns so from a busy block too is log 33. -/
def Obligations.ShowOfNullDoesNothing : Prop :=
  ∀ (x : BitVec 8) (s : State), s.drv.stage = .idle → s.drv.pixels = none →
    exec (.showFrame x) s = .next s.sequencerCycle

/-- R143: SHOW at full brightness, called while the block is idle or busy, hands the caller's own buffer to one TX: with nothing
arriving the call returns with the caller's bytes sent, nothing allocated and nothing copied. The cycles it takes are log 13's. -/
def Obligations.ShowAtFullBrightnessSendsTheCallersBuffer : Prop :=
  ∀ (x : BitVec 8) (s : State) (p : U32), s.Inv → s.drv.stage = .idle → s.stimuli = [] →
    s.drv.pixels = some p → s.drv.brightness = 255 → s.TxLegal s.drv.pin s.drv.is800 p s.drv.numBytes →
    ∃ (t u : State) (k : Nat), exec (.showFrame x) s = .next t ∧ Host.Core.run Sys2Proof.core k t = .next u
      ∧ Transmitted s u s.drv.pin s.drv.is800 p s.drv.numBytes (s.mem.bytes p s.drv.numBytes.toNat)
      ∧ u.drv = s.drv ∧ u.mem = s.mem ∧ u.alloc = s.alloc

/-- R145: a failed heap allocation drops the frame: one log entry (log 29), nothing transmitted, nothing else changed but that the
allocator has answered (log 15). The call takes two cycles, in which the block runs on (log 13), and returns so
from a busy block too (log 33). -/
def Obligations.ShowDropsTheFrameWhenTheHeapFails : Prop :=
  ∀ (x : BitVec 8) (s : State) (p : U32), s.Inv → s.drv.stage = .idle → s.stimuli = [] →
    s.drv.pixels = some p → s.drv.brightness ≠ 255 →
    s.params.stackThreshold < s.drv.numBytes.toNat → s.alloc.heapAnswer = none →
    ∃ t : State, exec (.showFrame x) s = .next t ∧ step t = .next { s.runCycles 2 with
      drv := { s.drv with logs := s.drv.logs + 1 }
      alloc := { s.alloc with heapScript := s.alloc.heapScript.tail, heapRequests := s.alloc.heapRequests + 1 } }

/-- R146 to R151: SHOW below full brightness, called while the block is idle or busy: the scratch buffer lies in the address space,
disjoint from the caller's, at the allocator's answer where that may hold it (log 15); with nothing arriving the call returns with
each byte of the caller sent scaled by the brightness, from the scratch buffer; every byte of memory outside the scratch buffer,
the caller's among them, reads as before; the driver is as it was, but for its cache. A caller's buffer that the block is still
reading is not copied (log 28). -/
def Obligations.ShowScaledSendsScaledBytes : Prop :=
  ∀ (x : BitVec 8) (s : State) (p a : U32), s.Inv → s.drv.stage = .idle → s.stimuli = [] →
    s.drv.pixels = some p → s.drv.brightness ≠ 255 → s.allocAnswer = some a →
    fitsSpace p s.drv.numBytes.toNat = true → s.apartFromFlight p s.drv.numBytes.toNat = true →
    s.drv.pin.toNat < s.params.npins → s.timingLegal s.drv.is800 = true →
    ∃ (t u : State) (k : Nat) (base : U32),
      exec (.showFrame x) s = .next t ∧ Host.Core.run Sys2Proof.core k t = .next u
      ∧ fitsSpace base s.drv.numBytes.toNat = true
      ∧ disjoint base s.drv.numBytes.toNat p s.drv.numBytes.toNat = true
      ∧ (s.mayHoldScratch a = true → base = a)
      ∧ Transmitted s u s.drv.pin s.drv.is800 base s.drv.numBytes
          ((s.mem.bytes p s.drv.numBytes.toNat).map fun b => scale b s.drv.brightness)
      ∧ u.mem.bytes p s.drv.numBytes.toNat = s.mem.bytes p s.drv.numBytes.toNat
      ∧ (∀ b : U32, inRange base s.drv.numBytes.toNat b = false → u.mem.read b = s.mem.read b)
      ∧ u.drv = { s.drv with cache := some s.drv.brightness }

/-- R153: the postcondition of every SHOW that returns, on every path, nothing arriving meanwhile: the caller's bytes, the pointer and
the brightness are as they were, and a block that was idle is idle. Of a block that was busy, and of a SHOW that sends nothing,
rule R153's last clause is not stated: such a call returns at once (log 33). -/
def Obligations.ShowLeavesTheCallersBufferUnmodified : Prop :=
  ∀ (x : BitVec 8) (s t u : State) (k : Nat), s.Inv → s.stimuli = [] → exec (.showFrame x) s = .next t →
    Host.Core.run Sys2Proof.core k t = .next u → u.drv.stage = .idle →
    (∀ p, s.drv.pixels = some p →
        u.mem.bytes p s.drv.numBytes.toNat = s.mem.bytes p s.drv.numBytes.toNat)
      ∧ u.drv.pixels = s.drv.pixels ∧ u.drv.brightness = s.drv.brightness
      ∧ u.drv.scratch = none ∧ u.drv.saved = none
      ∧ (s.blk.phase = .idle → u.blk.phase = .idle)

/-- R144: when a SHOW with a buffer has returned, nothing arriving meanwhile: below full brightness a buffer of `STACK_THRESHOLD`
bytes or fewer has taken one stack request and no heap request, a longer one the reverse; at full brightness neither (R143). -/
def Obligations.AllocationPlaceFollowsTheThreshold : Prop :=
  ∀ (x : BitVec 8) (s t u : State) (k : Nat) (p : U32), s.stimuli = [] → s.drv.pixels = some p →
    exec (.showFrame x) s = .next t → Host.Core.run Sys2Proof.core k t = .next u → u.drv.stage = .idle →
    (s.drv.brightness ≠ 255 → s.drv.numBytes.toNat ≤ s.params.stackThreshold →
        u.alloc.stackRequests = s.alloc.stackRequests + 1 ∧ u.alloc.heapRequests = s.alloc.heapRequests)
      ∧ (s.drv.brightness ≠ 255 → s.params.stackThreshold < s.drv.numBytes.toNat →
        u.alloc.heapRequests = s.alloc.heapRequests + 1 ∧ u.alloc.stackRequests = s.alloc.stackRequests)
      ∧ (s.drv.brightness = 255 → u.alloc = s.alloc)

/-- R148: the scaling function and its laws. -/
def Obligations.ScalingLaws : Prop :=
  (∀ b s : U8, (scale b s).toNat = b.toNat * s.toNat / 255)
    ∧ (∀ b : U8, scale b 0 = 0) ∧ (∀ b : U8, scale b 255 = b) ∧ (∀ s : U8, scale 0 s = 0) ∧ (∀ s : U8, scale 255 s = s)
    ∧ (∀ b s : U8, (scale b s).toNat ≤ b.toNat)
    ∧ (∀ b b' s s' : U8, b.toNat ≤ b'.toNat → s.toNat ≤ s'.toNat → (scale b s).toNat ≤ (scale b' s').toNat)

/-- R156: the table of reference values. -/
def Obligations.ScalingReferenceValues : Prop :=
  [0x00#8, 0x01#8, 0x02#8, 0x7F#8, 0x80#8, 0xFE#8, 0xFF#8].map
      (fun b => [0#8, 1#8, 127#8, 128#8, 254#8, 255#8].map (fun s => (scale b s).toNat))
    = [[0, 0, 0, 0, 0, 0], [0, 0, 0, 0, 0, 1], [0, 0, 0, 1, 1, 2], [0, 0, 63, 63, 126, 127], [0, 0, 63, 64, 127, 128],
       [0, 0, 126, 127, 253, 254], [0, 1, 127, 128, 254, 255]]

/-- R83, first wait of a TX, on both paths that transmit: at full brightness the call goes to it at once, below it after the scratch
buffer is scaled (log 30); there one poll a cycle finds `BUSY` = 1, and no stage follows, until the block is idle, which takes at
most `8 * lenL * period` cycles; the next poll finds it idle, and the write of `BUF` follows. -/
def Obligations.ShowWaitsForTheBlock : Prop :=
  (∀ (x : BitVec 8) (s : State), s.drv.stage = .idle → s.drv.pixels ≠ none → s.drv.brightness = 255 →
      ∃ t, exec (.showFrame x) s = .next t ∧ t.drv.stage = .waitIdle)
    ∧ (∀ s : State, s.Inv → s.stimuli = [] → s.drv.stage = .scale →
      ∃ t, step s = .next t ∧ t.drv.stage = .waitIdle)
    ∧ (∀ s : State, s.Inv → s.stimuli = [] → s.drv.stage = .waitIdle →
      ∃ k ≤ 8 * s.blk.lenL.toNat * s.blk.period.toNat,
        (∀ j < k, ∃ u, Host.Core.run Sys2Proof.core j s = .next u ∧ u.busy = true ∧ u.drv = s.drv ∧ u.mem = s.mem)
        ∧ ∃ u, Host.Core.run Sys2Proof.core k s = .next u ∧ u.busy = false ∧ u.drv = s.drv ∧ u.mem = s.mem
          ∧ step u = .next { u with
              cc := u.cc + 1, busData := u.statusWord, drv := { u.drv with stage := .writeBuf } })

/-- R39, R193 (2), (3): the buffer-holder's configuration sets the four values it holds and nothing else; the rest of the cycle is
that of a quiet one (log 13). -/
def Obligations.ConfigurationSetsTheBufferHolder : Prop :=
  ∀ (s : State) (px : Option U32) (n : U16) (pin : Pin) (r : Bool) (rest : List Stimulus), s.drv.stage = .idle →
    s.stimuli = .configure px n pin r :: rest →
    StepsAsQuiet s
      { s with drv := { s.drv with pixels := px, numBytes := n, pin := pin, is800 := r } } rest

/-- R155, R200, R51, R55: where a SHOW has no meaning and is `refuse`: inside another; where its copy would read the buffer that
the block is reading; where it would copy a buffer past the top of the address space (log 28). -/
def Obligations.ShowIsRefusedOnMisuse : Prop :=
  (∀ (x : BitVec 8) (s : State), s.drv.stage ≠ .idle → exec (.showFrame x) s = .refused .showReentered)
    ∧ (∀ (s : State) (p : U32), s.stimuli = [] → s.drv.stage = .copy → s.drv.saved = none → s.drv.pixels = some p →
      (4294967296 < p.toNat + s.drv.numBytes.toNat → step s = .refused .bufferPastTop)
        ∧ (p.toNat + s.drv.numBytes.toNat ≤ 4294967296 → s.blk.phase ≠ .idle →
          (∃ a, inRange p s.drv.numBytes.toNat a = true ∧ inRange s.blk.bufL s.blk.lenL.toNat a = true) →
          step s = .refused .bufferReadWhileBusy))
end

