-- ==== Sys2Proof/Laws/State.lean ====
section
/-! SUPPORT. What each shared update does to each field of the state, true by unfolding it once, so that no later proof
unfolds a record update. -/

namespace Sys2Proof.Machine

/-! ### endCycle -/

@[simp] theorem State.endCycle_mem (a b : State) : (State.endCycle a b).mem = b.mem := rfl
@[simp] theorem State.endCycle_fCpu (a b : State) : (State.endCycle a b).fCpu = b.fCpu := rfl
@[simp] theorem State.endCycle_busData (a b : State) : (State.endCycle a b).busData = b.busData := rfl
@[simp] theorem State.endCycle_drv (a b : State) : (State.endCycle a b).drv = b.drv := rfl
@[simp] theorem State.endCycle_params (a b : State) : (State.endCycle a b).params = b.params := rfl
@[simp] theorem State.endCycle_bufWritten (a b : State) : (State.endCycle a b).bufWritten = b.bufWritten := rfl
@[simp] theorem State.endCycle_lenWritten (a b : State) : (State.endCycle a b).lenWritten = b.lenWritten := rfl
@[simp] theorem State.endCycle_stimuli (a b : State) : (State.endCycle a b).stimuli = b.stimuli := rfl
@[simp] theorem State.endCycle_alloc (a b : State) : (State.endCycle a b).alloc = b.alloc := rfl
@[simp] theorem State.endCycle_gpio (a b : State) : (State.endCycle a b).gpio = b.gpio := rfl
@[simp] theorem State.endCycle_blk (a b : State) : (State.endCycle a b).blk = b.blk := rfl
@[simp] theorem State.endCycle_cc (a b : State) : (State.endCycle a b).cc = a.cc + 1 := rfl
@[simp] theorem State.endCycle_obs_wave (a b : State) : (State.endCycle a b).obs.wave = a.recorded b.obs.wave := rfl
@[simp] theorem State.endCycle_obs_reads (a b : State) : (State.endCycle a b).obs.reads = b.obs.reads := rfl

/-! ### rise -/

@[simp] theorem State.rise_mem (s : State) : (State.rise s).mem = s.mem := rfl
@[simp] theorem State.rise_fCpu (s : State) : (State.rise s).fCpu = s.fCpu := rfl
@[simp] theorem State.rise_busData (s : State) : (State.rise s).busData = s.busData := rfl
@[simp] theorem State.rise_drv (s : State) : (State.rise s).drv = s.drv := rfl
@[simp] theorem State.rise_params (s : State) : (State.rise s).params = s.params := rfl
@[simp] theorem State.rise_bufWritten (s : State) : (State.rise s).bufWritten = s.bufWritten := rfl
@[simp] theorem State.rise_lenWritten (s : State) : (State.rise s).lenWritten = s.lenWritten := rfl
@[simp] theorem State.rise_stimuli (s : State) : (State.rise s).stimuli = s.stimuli := rfl
@[simp] theorem State.rise_alloc (s : State) : (State.rise s).alloc = s.alloc := rfl
@[simp] theorem State.rise_cc (s : State) : (State.rise s).cc = s.cc := rfl
@[simp] theorem State.rise_obs (s : State) : (State.rise s).obs = s.obs := rfl
@[simp] theorem State.rise_gpio (s : State) : (State.rise s).gpio = Lines.drive s.gpio s.blk.pinL true := rfl
@[simp] theorem State.rise_blk (s : State) : (State.rise s).blk = { s.blk with startTime := s.cc + 1, phase := .high } := rfl

/-! ### dropLine -/

@[simp] theorem State.dropLine_mem (s : State) : (State.dropLine s).mem = s.mem := rfl
@[simp] theorem State.dropLine_fCpu (s : State) : (State.dropLine s).fCpu = s.fCpu := rfl
@[simp] theorem State.dropLine_busData (s : State) : (State.dropLine s).busData = s.busData := rfl
@[simp] theorem State.dropLine_drv (s : State) : (State.dropLine s).drv = s.drv := rfl
@[simp] theorem State.dropLine_params (s : State) : (State.dropLine s).params = s.params := rfl
@[simp] theorem State.dropLine_bufWritten (s : State) : (State.dropLine s).bufWritten = s.bufWritten := rfl
@[simp] theorem State.dropLine_lenWritten (s : State) : (State.dropLine s).lenWritten = s.lenWritten := rfl
@[simp] theorem State.dropLine_stimuli (s : State) : (State.dropLine s).stimuli = s.stimuli := rfl
@[simp] theorem State.dropLine_alloc (s : State) : (State.dropLine s).alloc = s.alloc := rfl
@[simp] theorem State.dropLine_cc (s : State) : (State.dropLine s).cc = s.cc := rfl
@[simp] theorem State.dropLine_blk (s : State) : (State.dropLine s).blk = s.blk := rfl
@[simp] theorem State.dropLine_obs (s : State) : (State.dropLine s).obs = s.obs := rfl
@[simp] theorem State.dropLine_gpio (s : State) : (State.dropLine s).gpio = Lines.drive s.gpio s.blk.pinL false := rfl

/-! ### latch -/

@[simp] theorem State.latch_mem (s : State) (pin : Pin) (r : Bool) : (State.latch s pin r).mem = s.mem := rfl
@[simp] theorem State.latch_fCpu (s : State) (pin : Pin) (r : Bool) : (State.latch s pin r).fCpu = s.fCpu := rfl
@[simp] theorem State.latch_busData (s : State) (pin : Pin) (r : Bool) : (State.latch s pin r).busData = s.busData := rfl
@[simp] theorem State.latch_drv (s : State) (pin : Pin) (r : Bool) : (State.latch s pin r).drv = s.drv := rfl
@[simp] theorem State.latch_params (s : State) (pin : Pin) (r : Bool) : (State.latch s pin r).params = s.params := rfl
@[simp] theorem State.latch_bufWritten (s : State) (pin : Pin) (r : Bool) : (State.latch s pin r).bufWritten = s.bufWritten := rfl
@[simp] theorem State.latch_lenWritten (s : State) (pin : Pin) (r : Bool) : (State.latch s pin r).lenWritten = s.lenWritten := rfl
@[simp] theorem State.latch_stimuli (s : State) (pin : Pin) (r : Bool) : (State.latch s pin r).stimuli = s.stimuli := rfl
@[simp] theorem State.latch_alloc (s : State) (pin : Pin) (r : Bool) : (State.latch s pin r).alloc = s.alloc := rfl
@[simp] theorem State.latch_gpio (s : State) (pin : Pin) (r : Bool) : (State.latch s pin r).gpio = s.gpio := rfl
@[simp] theorem State.latch_cc (s : State) (pin : Pin) (r : Bool) : (State.latch s pin r).cc = s.cc := rfl
@[simp] theorem State.latch_obs (s : State) (pin : Pin) (r : Bool) : (State.latch s pin r).obs = { wave := [], reads := [] } := rfl
@[simp] theorem State.latch_blk (s : State) (pin : Pin) (r : Bool) : (State.latch s pin r).blk = { s.blk with
      pinL := pin, is800L := r, bufL := s.blk.buf, lenL := s.blk.len, time0 := s.newTime0 r, time1 := s.newTime1 r,
      period := s.newPeriod r } := rfl

/-! ### firstCell -/

@[simp] theorem State.firstCell_mem (s : State) : (State.firstCell s).mem = s.mem := rfl
@[simp] theorem State.firstCell_fCpu (s : State) : (State.firstCell s).fCpu = s.fCpu := rfl
@[simp] theorem State.firstCell_busData (s : State) : (State.firstCell s).busData = s.busData := rfl
@[simp] theorem State.firstCell_drv (s : State) : (State.firstCell s).drv = s.drv := rfl
@[simp] theorem State.firstCell_params (s : State) : (State.firstCell s).params = s.params := rfl
@[simp] theorem State.firstCell_bufWritten (s : State) : (State.firstCell s).bufWritten = s.bufWritten := rfl
@[simp] theorem State.firstCell_lenWritten (s : State) : (State.firstCell s).lenWritten = s.lenWritten := rfl
@[simp] theorem State.firstCell_stimuli (s : State) : (State.firstCell s).stimuli = s.stimuli := rfl
@[simp] theorem State.firstCell_alloc (s : State) : (State.firstCell s).alloc = s.alloc := rfl
@[simp] theorem State.firstCell_cc (s : State) : (State.firstCell s).cc = s.cc := rfl
@[simp] theorem State.firstCell_gpio (s : State) : (State.firstCell s).gpio = Lines.drive s.gpio s.blk.pinL true := rfl
@[simp] theorem State.firstCell_obs_wave (s : State) : (State.firstCell s).obs.wave = s.obs.wave := rfl
@[simp] theorem State.firstCell_obs_reads (s : State) : (State.firstCell s).obs.reads = [s.blk.bufL] := rfl
@[simp] theorem State.firstCell_blk (s : State) : (State.firstCell s).blk = { s.blk with
      pix := s.mem.read s.blk.bufL, byteIdx := 0, bitIdx := 7, startTime := s.cc + 1, phase := .high } := rfl

/-! ### setBuf -/

@[simp] theorem State.setBuf_mem (s : State) (d : U32) : (State.setBuf s d).mem = s.mem := rfl
@[simp] theorem State.setBuf_fCpu (s : State) (d : U32) : (State.setBuf s d).fCpu = s.fCpu := rfl
@[simp] theorem State.setBuf_busData (s : State) (d : U32) : (State.setBuf s d).busData = s.busData := rfl
@[simp] theorem State.setBuf_drv (s : State) (d : U32) : (State.setBuf s d).drv = s.drv := rfl
@[simp] theorem State.setBuf_params (s : State) (d : U32) : (State.setBuf s d).params = s.params := rfl
@[simp] theorem State.setBuf_lenWritten (s : State) (d : U32) : (State.setBuf s d).lenWritten = s.lenWritten := rfl
@[simp] theorem State.setBuf_stimuli (s : State) (d : U32) : (State.setBuf s d).stimuli = s.stimuli := rfl
@[simp] theorem State.setBuf_alloc (s : State) (d : U32) : (State.setBuf s d).alloc = s.alloc := rfl
@[simp] theorem State.setBuf_gpio (s : State) (d : U32) : (State.setBuf s d).gpio = s.gpio := rfl
@[simp] theorem State.setBuf_cc (s : State) (d : U32) : (State.setBuf s d).cc = s.cc := rfl
@[simp] theorem State.setBuf_obs (s : State) (d : U32) : (State.setBuf s d).obs = s.obs := rfl
@[simp] theorem State.setBuf_bufWritten (s : State) (d : U32) : (State.setBuf s d).bufWritten = true := rfl
@[simp] theorem State.setBuf_blk (s : State) (d : U32) : (State.setBuf s d).blk = { s.blk with buf := d } := rfl

/-! ### setLen -/

@[simp] theorem State.setLen_mem (s : State) (d : U32) : (State.setLen s d).mem = s.mem := rfl
@[simp] theorem State.setLen_fCpu (s : State) (d : U32) : (State.setLen s d).fCpu = s.fCpu := rfl
@[simp] theorem State.setLen_busData (s : State) (d : U32) : (State.setLen s d).busData = s.busData := rfl
@[simp] theorem State.setLen_drv (s : State) (d : U32) : (State.setLen s d).drv = s.drv := rfl
@[simp] theorem State.setLen_params (s : State) (d : U32) : (State.setLen s d).params = s.params := rfl
@[simp] theorem State.setLen_bufWritten (s : State) (d : U32) : (State.setLen s d).bufWritten = s.bufWritten := rfl
@[simp] theorem State.setLen_stimuli (s : State) (d : U32) : (State.setLen s d).stimuli = s.stimuli := rfl
@[simp] theorem State.setLen_alloc (s : State) (d : U32) : (State.setLen s d).alloc = s.alloc := rfl
@[simp] theorem State.setLen_gpio (s : State) (d : U32) : (State.setLen s d).gpio = s.gpio := rfl
@[simp] theorem State.setLen_cc (s : State) (d : U32) : (State.setLen s d).cc = s.cc := rfl
@[simp] theorem State.setLen_obs (s : State) (d : U32) : (State.setLen s d).obs = s.obs := rfl
@[simp] theorem State.setLen_lenWritten (s : State) (d : U32) : (State.setLen s d).lenWritten = true := rfl
@[simp] theorem State.setLen_blk (s : State) (d : U32) : (State.setLen s d).blk = { s.blk with len := d.setWidth 16 } := rfl

/-! ### cellLastCycle -/

@[simp] theorem State.cellLastCycle_mem (s : State) : (State.cellLastCycle s).mem = s.mem := rfl
@[simp] theorem State.cellLastCycle_fCpu (s : State) : (State.cellLastCycle s).fCpu = s.fCpu := rfl
@[simp] theorem State.cellLastCycle_busData (s : State) : (State.cellLastCycle s).busData = s.busData := rfl
@[simp] theorem State.cellLastCycle_drv (s : State) : (State.cellLastCycle s).drv = s.drv := rfl
@[simp] theorem State.cellLastCycle_params (s : State) : (State.cellLastCycle s).params = s.params := rfl
@[simp] theorem State.cellLastCycle_bufWritten (s : State) : (State.cellLastCycle s).bufWritten = s.bufWritten := rfl
@[simp] theorem State.cellLastCycle_lenWritten (s : State) : (State.cellLastCycle s).lenWritten = s.lenWritten := rfl
@[simp] theorem State.cellLastCycle_stimuli (s : State) : (State.cellLastCycle s).stimuli = s.stimuli := rfl
@[simp] theorem State.cellLastCycle_alloc (s : State) : (State.cellLastCycle s).alloc = s.alloc := rfl
@[simp] theorem State.cellLastCycle_gpio (s : State) : (State.cellLastCycle s).gpio = Lines.drive s.gpio s.blk.pinL false := rfl
@[simp] theorem State.cellLastCycle_cc (s : State) : (State.cellLastCycle s).cc = s.cc + (s.blk.period - 1) := rfl
@[simp] theorem State.cellLastCycle_blk (s : State) : (State.cellLastCycle s).blk = { s.blk with phase := .low } := rfl
@[simp] theorem State.cellLastCycle_obs_reads (s : State) : (State.cellLastCycle s).obs.reads = s.obs.reads := rfl
@[simp] theorem State.cellLastCycle_obs_wave (s : State) : (State.cellLastCycle s).obs.wave = pushSegment false (s.blk.period.toNat - 1 - s.thr.toNat) (pushSegment true s.thr.toNat s.obs.wave) := rfl

/-! ### enter -/

@[simp] theorem State.enter_mem (s : State) (st : CallStage) : (State.enter s st).mem = s.mem := rfl
@[simp] theorem State.enter_fCpu (s : State) (st : CallStage) : (State.enter s st).fCpu = s.fCpu := rfl
@[simp] theorem State.enter_busData (s : State) (st : CallStage) : (State.enter s st).busData = s.busData := rfl
@[simp] theorem State.enter_params (s : State) (st : CallStage) : (State.enter s st).params = s.params := rfl
@[simp] theorem State.enter_bufWritten (s : State) (st : CallStage) : (State.enter s st).bufWritten = s.bufWritten := rfl
@[simp] theorem State.enter_lenWritten (s : State) (st : CallStage) : (State.enter s st).lenWritten = s.lenWritten := rfl
@[simp] theorem State.enter_stimuli (s : State) (st : CallStage) : (State.enter s st).stimuli = s.stimuli := rfl
@[simp] theorem State.enter_alloc (s : State) (st : CallStage) : (State.enter s st).alloc = s.alloc := rfl
@[simp] theorem State.enter_gpio (s : State) (st : CallStage) : (State.enter s st).gpio = s.gpio := rfl
@[simp] theorem State.enter_cc (s : State) (st : CallStage) : (State.enter s st).cc = s.cc := rfl
@[simp] theorem State.enter_blk (s : State) (st : CallStage) : (State.enter s st).blk = s.blk := rfl
@[simp] theorem State.enter_obs (s : State) (st : CallStage) : (State.enter s st).obs = s.obs := rfl
@[simp] theorem State.enter_drv (s : State) (st : CallStage) : (State.enter s st).drv = { s.drv with stage := st } := rfl

/-! ### countAlloc -/

@[simp] theorem State.countAlloc_mem (s : State) : (State.countAlloc s).mem = s.mem := by
  unfold State.countAlloc; split <;> rfl
@[simp] theorem State.countAlloc_fCpu (s : State) : (State.countAlloc s).fCpu = s.fCpu := by
  unfold State.countAlloc; split <;> rfl
@[simp] theorem State.countAlloc_busData (s : State) : (State.countAlloc s).busData = s.busData := by
  unfold State.countAlloc; split <;> rfl
@[simp] theorem State.countAlloc_params (s : State) : (State.countAlloc s).params = s.params := by
  unfold State.countAlloc; split <;> rfl
@[simp] theorem State.countAlloc_bufWritten (s : State) : (State.countAlloc s).bufWritten = s.bufWritten := by
  unfold State.countAlloc; split <;> rfl
@[simp] theorem State.countAlloc_lenWritten (s : State) : (State.countAlloc s).lenWritten = s.lenWritten := by
  unfold State.countAlloc; split <;> rfl
@[simp] theorem State.countAlloc_stimuli (s : State) : (State.countAlloc s).stimuli = s.stimuli := by
  unfold State.countAlloc; split <;> rfl
@[simp] theorem State.countAlloc_gpio (s : State) : (State.countAlloc s).gpio = s.gpio := by
  unfold State.countAlloc; split <;> rfl
@[simp] theorem State.countAlloc_cc (s : State) : (State.countAlloc s).cc = s.cc := by
  unfold State.countAlloc; split <;> rfl
@[simp] theorem State.countAlloc_blk (s : State) : (State.countAlloc s).blk = s.blk := by
  unfold State.countAlloc; split <;> rfl
@[simp] theorem State.countAlloc_obs (s : State) : (State.countAlloc s).obs = s.obs := by
  unfold State.countAlloc; split <;> rfl
@[simp] theorem State.countAlloc_drv (s : State) : (State.countAlloc s).drv = s.drv := by
  unfold State.countAlloc; split <;> rfl

/-! ### dropFrame -/

@[simp] theorem State.dropFrame_mem (s : State) : (State.dropFrame s).mem = s.mem := rfl
@[simp] theorem State.dropFrame_fCpu (s : State) : (State.dropFrame s).fCpu = s.fCpu := rfl
@[simp] theorem State.dropFrame_busData (s : State) : (State.dropFrame s).busData = s.busData := rfl
@[simp] theorem State.dropFrame_params (s : State) : (State.dropFrame s).params = s.params := rfl
@[simp] theorem State.dropFrame_bufWritten (s : State) : (State.dropFrame s).bufWritten = s.bufWritten := rfl
@[simp] theorem State.dropFrame_lenWritten (s : State) : (State.dropFrame s).lenWritten = s.lenWritten := rfl
@[simp] theorem State.dropFrame_stimuli (s : State) : (State.dropFrame s).stimuli = s.stimuli := rfl
@[simp] theorem State.dropFrame_alloc (s : State) : (State.dropFrame s).alloc = s.alloc := rfl
@[simp] theorem State.dropFrame_gpio (s : State) : (State.dropFrame s).gpio = s.gpio := rfl
@[simp] theorem State.dropFrame_cc (s : State) : (State.dropFrame s).cc = s.cc := rfl
@[simp] theorem State.dropFrame_blk (s : State) : (State.dropFrame s).blk = s.blk := rfl
@[simp] theorem State.dropFrame_obs (s : State) : (State.dropFrame s).obs = s.obs := rfl
@[simp] theorem State.dropFrame_drv (s : State) : (State.dropFrame s).drv = { s.drv with logs := s.drv.logs + 1, stage := .idle } := rfl

/-! ### holdScratch -/

@[simp] theorem State.holdScratch_mem (s : State) (b : U32) : (State.holdScratch s b).mem = s.mem := rfl
@[simp] theorem State.holdScratch_fCpu (s : State) (b : U32) : (State.holdScratch s b).fCpu = s.fCpu := rfl
@[simp] theorem State.holdScratch_busData (s : State) (b : U32) : (State.holdScratch s b).busData = s.busData := rfl
@[simp] theorem State.holdScratch_params (s : State) (b : U32) : (State.holdScratch s b).params = s.params := rfl
@[simp] theorem State.holdScratch_bufWritten (s : State) (b : U32) : (State.holdScratch s b).bufWritten = s.bufWritten := rfl
@[simp] theorem State.holdScratch_lenWritten (s : State) (b : U32) : (State.holdScratch s b).lenWritten = s.lenWritten := rfl
@[simp] theorem State.holdScratch_stimuli (s : State) (b : U32) : (State.holdScratch s b).stimuli = s.stimuli := rfl
@[simp] theorem State.holdScratch_alloc (s : State) (b : U32) : (State.holdScratch s b).alloc = s.alloc := rfl
@[simp] theorem State.holdScratch_gpio (s : State) (b : U32) : (State.holdScratch s b).gpio = s.gpio := rfl
@[simp] theorem State.holdScratch_cc (s : State) (b : U32) : (State.holdScratch s b).cc = s.cc := rfl
@[simp] theorem State.holdScratch_blk (s : State) (b : U32) : (State.holdScratch s b).blk = s.blk := rfl
@[simp] theorem State.holdScratch_obs (s : State) (b : U32) : (State.holdScratch s b).obs = s.obs := rfl
@[simp] theorem State.holdScratch_drv (s : State) (b : U32) : (State.holdScratch s b).drv = { s.drv with scratch := some { base := b, place := s.allocPlace }, stage := .copy } := rfl

/-! ### allocateScratch -/

@[simp] theorem State.allocateScratch_mem (s : State) : (State.allocateScratch s).mem = s.mem := by
  unfold State.allocateScratch; split <;> simp
@[simp] theorem State.allocateScratch_fCpu (s : State) : (State.allocateScratch s).fCpu = s.fCpu := by
  unfold State.allocateScratch; split <;> simp
@[simp] theorem State.allocateScratch_busData (s : State) : (State.allocateScratch s).busData = s.busData := by
  unfold State.allocateScratch; split <;> simp
@[simp] theorem State.allocateScratch_params (s : State) : (State.allocateScratch s).params = s.params := by
  unfold State.allocateScratch; split <;> simp
@[simp] theorem State.allocateScratch_bufWritten (s : State) : (State.allocateScratch s).bufWritten = s.bufWritten := by
  unfold State.allocateScratch; split <;> simp
@[simp] theorem State.allocateScratch_lenWritten (s : State) : (State.allocateScratch s).lenWritten = s.lenWritten := by
  unfold State.allocateScratch; split <;> simp
@[simp] theorem State.allocateScratch_stimuli (s : State) : (State.allocateScratch s).stimuli = s.stimuli := by
  unfold State.allocateScratch; split <;> simp
@[simp] theorem State.allocateScratch_alloc (s : State) : (State.allocateScratch s).alloc = s.countAlloc.alloc := by
  unfold State.allocateScratch; split <;> simp
@[simp] theorem State.allocateScratch_gpio (s : State) : (State.allocateScratch s).gpio = s.gpio := by
  unfold State.allocateScratch; split <;> simp
@[simp] theorem State.allocateScratch_cc (s : State) : (State.allocateScratch s).cc = s.cc := by
  unfold State.allocateScratch; split <;> simp
@[simp] theorem State.allocateScratch_blk (s : State) : (State.allocateScratch s).blk = s.blk := by
  unfold State.allocateScratch; split <;> simp
@[simp] theorem State.allocateScratch_obs (s : State) : (State.allocateScratch s).obs = s.obs := by
  unfold State.allocateScratch; split <;> simp

/-! ### copyAndSwap -/

@[simp] theorem State.copyAndSwap_mem (s : State) : (State.copyAndSwap s).mem = s.mem.transform id s.drv.activeBuf s.drv.scratchBase s.drv.numBytes.toNat := rfl
@[simp] theorem State.copyAndSwap_fCpu (s : State) : (State.copyAndSwap s).fCpu = s.fCpu := rfl
@[simp] theorem State.copyAndSwap_busData (s : State) : (State.copyAndSwap s).busData = s.busData := rfl
@[simp] theorem State.copyAndSwap_params (s : State) : (State.copyAndSwap s).params = s.params := rfl
@[simp] theorem State.copyAndSwap_bufWritten (s : State) : (State.copyAndSwap s).bufWritten = s.bufWritten := rfl
@[simp] theorem State.copyAndSwap_lenWritten (s : State) : (State.copyAndSwap s).lenWritten = s.lenWritten := rfl
@[simp] theorem State.copyAndSwap_stimuli (s : State) : (State.copyAndSwap s).stimuli = s.stimuli := rfl
@[simp] theorem State.copyAndSwap_alloc (s : State) : (State.copyAndSwap s).alloc = s.alloc := rfl
@[simp] theorem State.copyAndSwap_gpio (s : State) : (State.copyAndSwap s).gpio = s.gpio := rfl
@[simp] theorem State.copyAndSwap_cc (s : State) : (State.copyAndSwap s).cc = s.cc := rfl
@[simp] theorem State.copyAndSwap_blk (s : State) : (State.copyAndSwap s).blk = s.blk := rfl
@[simp] theorem State.copyAndSwap_obs (s : State) : (State.copyAndSwap s).obs = s.obs := rfl
@[simp] theorem State.copyAndSwap_drv (s : State) : (State.copyAndSwap s).drv = { s.drv with saved := s.drv.pixels, pixels := some s.drv.scratchBase, stage := .scale } := rfl

/-! ### scaleScratch -/

@[simp] theorem State.scaleScratch_mem (s : State) : (State.scaleScratch s).mem = s.mem.transform (fun b => scale b s.drv.brightness) s.drv.activeBuf s.drv.activeBuf s.drv.numBytes.toNat := rfl
@[simp] theorem State.scaleScratch_fCpu (s : State) : (State.scaleScratch s).fCpu = s.fCpu := rfl
@[simp] theorem State.scaleScratch_busData (s : State) : (State.scaleScratch s).busData = s.busData := rfl
@[simp] theorem State.scaleScratch_params (s : State) : (State.scaleScratch s).params = s.params := rfl
@[simp] theorem State.scaleScratch_bufWritten (s : State) : (State.scaleScratch s).bufWritten = s.bufWritten := rfl
@[simp] theorem State.scaleScratch_lenWritten (s : State) : (State.scaleScratch s).lenWritten = s.lenWritten := rfl
@[simp] theorem State.scaleScratch_stimuli (s : State) : (State.scaleScratch s).stimuli = s.stimuli := rfl
@[simp] theorem State.scaleScratch_alloc (s : State) : (State.scaleScratch s).alloc = s.alloc := rfl
@[simp] theorem State.scaleScratch_gpio (s : State) : (State.scaleScratch s).gpio = s.gpio := rfl
@[simp] theorem State.scaleScratch_cc (s : State) : (State.scaleScratch s).cc = s.cc := rfl
@[simp] theorem State.scaleScratch_blk (s : State) : (State.scaleScratch s).blk = s.blk := rfl
@[simp] theorem State.scaleScratch_obs (s : State) : (State.scaleScratch s).obs = s.obs := rfl
@[simp] theorem State.scaleScratch_drv (s : State) : (State.scaleScratch s).drv = { s.drv with cache := some s.drv.brightness, stage := .waitIdle } := rfl

/-! ### poll -/

@[simp] theorem State.poll_mem (s : State) : (State.poll s).mem = s.mem := rfl
@[simp] theorem State.poll_fCpu (s : State) : (State.poll s).fCpu = s.fCpu := rfl
@[simp] theorem State.poll_busData (s : State) : (State.poll s).busData = s.statusWord := rfl
@[simp] theorem State.poll_params (s : State) : (State.poll s).params = s.params := rfl
@[simp] theorem State.poll_bufWritten (s : State) : (State.poll s).bufWritten = s.bufWritten := rfl
@[simp] theorem State.poll_lenWritten (s : State) : (State.poll s).lenWritten = s.lenWritten := rfl
@[simp] theorem State.poll_stimuli (s : State) : (State.poll s).stimuli = s.stimuli := rfl
@[simp] theorem State.poll_alloc (s : State) : (State.poll s).alloc = s.alloc := rfl
@[simp] theorem State.poll_gpio (s : State) : (State.poll s).gpio = s.gpio := rfl
@[simp] theorem State.poll_cc (s : State) : (State.poll s).cc = s.cc := rfl
@[simp] theorem State.poll_blk (s : State) : (State.poll s).blk = s.blk := rfl
@[simp] theorem State.poll_obs (s : State) : (State.poll s).obs = s.obs := rfl
@[simp] theorem State.poll_drv (s : State) : (State.poll s).drv = { s.drv with stage := if s.busy then s.drv.stage else s.drv.afterWait } := rfl

/-! ### swapBack -/

@[simp] theorem State.swapBack_mem (s : State) : (State.swapBack s).mem = s.mem := rfl
@[simp] theorem State.swapBack_fCpu (s : State) : (State.swapBack s).fCpu = s.fCpu := rfl
@[simp] theorem State.swapBack_busData (s : State) : (State.swapBack s).busData = s.busData := rfl
@[simp] theorem State.swapBack_params (s : State) : (State.swapBack s).params = s.params := rfl
@[simp] theorem State.swapBack_bufWritten (s : State) : (State.swapBack s).bufWritten = s.bufWritten := rfl
@[simp] theorem State.swapBack_lenWritten (s : State) : (State.swapBack s).lenWritten = s.lenWritten := rfl
@[simp] theorem State.swapBack_stimuli (s : State) : (State.swapBack s).stimuli = s.stimuli := rfl
@[simp] theorem State.swapBack_alloc (s : State) : (State.swapBack s).alloc = s.alloc := rfl
@[simp] theorem State.swapBack_gpio (s : State) : (State.swapBack s).gpio = s.gpio := rfl
@[simp] theorem State.swapBack_cc (s : State) : (State.swapBack s).cc = s.cc := rfl
@[simp] theorem State.swapBack_blk (s : State) : (State.swapBack s).blk = s.blk := rfl
@[simp] theorem State.swapBack_obs (s : State) : (State.swapBack s).obs = s.obs := rfl
@[simp] theorem State.swapBack_drv (s : State) : (State.swapBack s).drv = { s.drv with pixels := s.drv.saved, saved := none, stage := .free } := rfl

/-! ### freeScratch -/

@[simp] theorem State.freeScratch_mem (s : State) : (State.freeScratch s).mem = s.mem := rfl
@[simp] theorem State.freeScratch_fCpu (s : State) : (State.freeScratch s).fCpu = s.fCpu := rfl
@[simp] theorem State.freeScratch_busData (s : State) : (State.freeScratch s).busData = s.busData := rfl
@[simp] theorem State.freeScratch_params (s : State) : (State.freeScratch s).params = s.params := rfl
@[simp] theorem State.freeScratch_bufWritten (s : State) : (State.freeScratch s).bufWritten = s.bufWritten := rfl
@[simp] theorem State.freeScratch_lenWritten (s : State) : (State.freeScratch s).lenWritten = s.lenWritten := rfl
@[simp] theorem State.freeScratch_stimuli (s : State) : (State.freeScratch s).stimuli = s.stimuli := rfl
@[simp] theorem State.freeScratch_alloc (s : State) : (State.freeScratch s).alloc = s.alloc := rfl
@[simp] theorem State.freeScratch_gpio (s : State) : (State.freeScratch s).gpio = s.gpio := rfl
@[simp] theorem State.freeScratch_cc (s : State) : (State.freeScratch s).cc = s.cc := rfl
@[simp] theorem State.freeScratch_blk (s : State) : (State.freeScratch s).blk = s.blk := rfl
@[simp] theorem State.freeScratch_obs (s : State) : (State.freeScratch s).obs = s.obs := rfl
@[simp] theorem State.freeScratch_drv (s : State) : (State.freeScratch s).drv = { s.drv with scratch := none, stage := .idle } := rfl

/-! ### sequencerCycle -/

@[simp] theorem State.sequencerCycle_mem (s : State) : (State.sequencerCycle s).mem = s.mem := by
  unfold State.sequencerCycle; repeat' split
  all_goals rfl
@[simp] theorem State.sequencerCycle_fCpu (s : State) : (State.sequencerCycle s).fCpu = s.fCpu := by
  unfold State.sequencerCycle; repeat' split
  all_goals rfl
@[simp] theorem State.sequencerCycle_busData (s : State) : (State.sequencerCycle s).busData = s.busData := by
  unfold State.sequencerCycle; repeat' split
  all_goals rfl
@[simp] theorem State.sequencerCycle_drv (s : State) : (State.sequencerCycle s).drv = s.drv := by
  unfold State.sequencerCycle; repeat' split
  all_goals rfl
@[simp] theorem State.sequencerCycle_params (s : State) : (State.sequencerCycle s).params = s.params := by
  unfold State.sequencerCycle; repeat' split
  all_goals rfl
@[simp] theorem State.sequencerCycle_bufWritten (s : State) : (State.sequencerCycle s).bufWritten = s.bufWritten := by
  unfold State.sequencerCycle; repeat' split
  all_goals rfl
@[simp] theorem State.sequencerCycle_lenWritten (s : State) : (State.sequencerCycle s).lenWritten = s.lenWritten := by
  unfold State.sequencerCycle; repeat' split
  all_goals rfl
@[simp] theorem State.sequencerCycle_stimuli (s : State) : (State.sequencerCycle s).stimuli = s.stimuli := by
  unfold State.sequencerCycle; repeat' split
  all_goals rfl
@[simp] theorem State.sequencerCycle_alloc (s : State) : (State.sequencerCycle s).alloc = s.alloc := by
  unfold State.sequencerCycle; repeat' split
  all_goals rfl
@[simp] theorem State.sequencerCycle_blk_pinL (s : State) : (State.sequencerCycle s).blk.pinL = s.blk.pinL := by
  unfold State.sequencerCycle; repeat' split
  all_goals rfl
@[simp] theorem State.sequencerCycle_blk_bufL (s : State) : (State.sequencerCycle s).blk.bufL = s.blk.bufL := by
  unfold State.sequencerCycle; repeat' split
  all_goals rfl
@[simp] theorem State.sequencerCycle_blk_lenL (s : State) : (State.sequencerCycle s).blk.lenL = s.blk.lenL := by
  unfold State.sequencerCycle; repeat' split
  all_goals rfl
@[simp] theorem State.sequencerCycle_blk_is800L (s : State) : (State.sequencerCycle s).blk.is800L = s.blk.is800L := by
  unfold State.sequencerCycle; repeat' split
  all_goals rfl
@[simp] theorem State.sequencerCycle_blk_time0 (s : State) : (State.sequencerCycle s).blk.time0 = s.blk.time0 := by
  unfold State.sequencerCycle; repeat' split
  all_goals rfl
@[simp] theorem State.sequencerCycle_blk_time1 (s : State) : (State.sequencerCycle s).blk.time1 = s.blk.time1 := by
  unfold State.sequencerCycle; repeat' split
  all_goals rfl
@[simp] theorem State.sequencerCycle_blk_period (s : State) : (State.sequencerCycle s).blk.period = s.blk.period := by
  unfold State.sequencerCycle; repeat' split
  all_goals rfl
@[simp] theorem State.sequencerCycle_blk_buf (s : State) : (State.sequencerCycle s).blk.buf = s.blk.buf := by
  unfold State.sequencerCycle; repeat' split
  all_goals rfl
@[simp] theorem State.sequencerCycle_blk_len (s : State) : (State.sequencerCycle s).blk.len = s.blk.len := by
  unfold State.sequencerCycle; repeat' split
  all_goals rfl

/-! ### wholeCell -/

@[simp] theorem State.wholeCell_mem (s : State) : (State.wholeCell s).mem = s.mem := by
  unfold State.wholeCell; simp
@[simp] theorem State.wholeCell_fCpu (s : State) : (State.wholeCell s).fCpu = s.fCpu := by
  unfold State.wholeCell; simp
@[simp] theorem State.wholeCell_busData (s : State) : (State.wholeCell s).busData = s.busData := by
  unfold State.wholeCell; simp
@[simp] theorem State.wholeCell_drv (s : State) : (State.wholeCell s).drv = s.drv := by
  unfold State.wholeCell; simp
@[simp] theorem State.wholeCell_params (s : State) : (State.wholeCell s).params = s.params := by
  unfold State.wholeCell; simp
@[simp] theorem State.wholeCell_bufWritten (s : State) : (State.wholeCell s).bufWritten = s.bufWritten := by
  unfold State.wholeCell; simp
@[simp] theorem State.wholeCell_lenWritten (s : State) : (State.wholeCell s).lenWritten = s.lenWritten := by
  unfold State.wholeCell; simp
@[simp] theorem State.wholeCell_stimuli (s : State) : (State.wholeCell s).stimuli = s.stimuli := by
  unfold State.wholeCell; simp
@[simp] theorem State.wholeCell_alloc (s : State) : (State.wholeCell s).alloc = s.alloc := by
  unfold State.wholeCell; simp
@[simp] theorem State.wholeCell_blk_pinL (s : State) : (State.wholeCell s).blk.pinL = s.blk.pinL := by
  unfold State.wholeCell; simp
@[simp] theorem State.wholeCell_blk_bufL (s : State) : (State.wholeCell s).blk.bufL = s.blk.bufL := by
  unfold State.wholeCell; simp
@[simp] theorem State.wholeCell_blk_lenL (s : State) : (State.wholeCell s).blk.lenL = s.blk.lenL := by
  unfold State.wholeCell; simp
@[simp] theorem State.wholeCell_blk_is800L (s : State) : (State.wholeCell s).blk.is800L = s.blk.is800L := by
  unfold State.wholeCell; simp
@[simp] theorem State.wholeCell_blk_time0 (s : State) : (State.wholeCell s).blk.time0 = s.blk.time0 := by
  unfold State.wholeCell; simp
@[simp] theorem State.wholeCell_blk_time1 (s : State) : (State.wholeCell s).blk.time1 = s.blk.time1 := by
  unfold State.wholeCell; simp
@[simp] theorem State.wholeCell_blk_period (s : State) : (State.wholeCell s).blk.period = s.blk.period := by
  unfold State.wholeCell; simp
@[simp] theorem State.wholeCell_blk_buf (s : State) : (State.wholeCell s).blk.buf = s.blk.buf := by
  unfold State.wholeCell; simp
@[simp] theorem State.wholeCell_blk_len (s : State) : (State.wholeCell s).blk.len = s.blk.len := by
  unfold State.wholeCell; simp

/-! ### startEffect -/

@[simp] theorem State.startEffect_mem (s : State) (pin : Pin) (r : Bool) : (s.startEffect pin r).mem = s.mem := by
  unfold State.startEffect; split <;> rfl
@[simp] theorem State.startEffect_fCpu (s : State) (pin : Pin) (r : Bool) : (s.startEffect pin r).fCpu = s.fCpu := by
  unfold State.startEffect; split <;> rfl
@[simp] theorem State.startEffect_busData (s : State) (pin : Pin) (r : Bool) : (s.startEffect pin r).busData = s.busData := by
  unfold State.startEffect; split <;> rfl
@[simp] theorem State.startEffect_drv (s : State) (pin : Pin) (r : Bool) : (s.startEffect pin r).drv = s.drv := by
  unfold State.startEffect; split <;> rfl
@[simp] theorem State.startEffect_params (s : State) (pin : Pin) (r : Bool) : (s.startEffect pin r).params = s.params := by
  unfold State.startEffect; split <;> rfl
@[simp] theorem State.startEffect_bufWritten (s : State) (pin : Pin) (r : Bool) : (s.startEffect pin r).bufWritten = s.bufWritten := by
  unfold State.startEffect; split <;> rfl
@[simp] theorem State.startEffect_lenWritten (s : State) (pin : Pin) (r : Bool) : (s.startEffect pin r).lenWritten = s.lenWritten := by
  unfold State.startEffect; split <;> rfl
@[simp] theorem State.startEffect_stimuli (s : State) (pin : Pin) (r : Bool) : (s.startEffect pin r).stimuli = s.stimuli := by
  unfold State.startEffect; split <;> rfl
@[simp] theorem State.startEffect_alloc (s : State) (pin : Pin) (r : Bool) : (s.startEffect pin r).alloc = s.alloc := by
  unfold State.startEffect; split <;> rfl

/-! ### Frames of the block's own cycles -/

theorem SameOutside.rfl' (s : State) : SameOutside s s := by simp [SameOutside]

theorem SameOutside.trans' {s t u : State} (h : SameOutside s t) (k : SameOutside t u) : SameOutside s u := by
  simp only [SameOutside] at *; simp_all

theorem SameLatched.rfl' (s : State) : SameLatched s s := by simp [SameLatched]

theorem SameLatched.trans' {s t u : State} (h : SameLatched s t) (k : SameLatched t u) : SameLatched s u := by
  simp only [SameLatched] at *; simp_all

theorem sequencerCycle_sameOutside (s : State) : SameOutside s s.sequencerCycle := by simp [SameOutside]

theorem sequencerCycle_sameLatched (s : State) : SameLatched s s.sequencerCycle := by simp [SameLatched]

theorem wholeCell_sameOutside (s : State) : SameOutside s s.wholeCell := by simp [SameOutside]

theorem wholeCell_sameLatched (s : State) : SameLatched s s.wholeCell := by simp [SameLatched]

theorem runCycles_same (n : Nat) (s : State) : SameOutside s (s.runCycles n) ∧ SameLatched s (s.runCycles n) := by
  induction n generalizing s with
  | zero => exact ⟨SameOutside.rfl' s, SameLatched.rfl' s⟩
  | succ n ih =>
    obtain ⟨h, k⟩ := ih s.sequencerCycle
    exact ⟨(sequencerCycle_sameOutside s).trans' h, (sequencerCycle_sameLatched s).trans' k⟩

theorem runCells_same (n : Nat) (s : State) : SameOutside s (s.runCells n) ∧ SameLatched s (s.runCells n) := by
  induction n generalizing s with
  | zero => exact ⟨SameOutside.rfl' s, SameLatched.rfl' s⟩
  | succ n ih =>
    obtain ⟨h, k⟩ := ih s.wholeCell
    exact ⟨(wholeCell_sameOutside s).trans' h, (wholeCell_sameLatched s).trans' k⟩

/-- The sequencer does not look at the driver or at what the bus gave back. -/
theorem sequencerCycle_host (s : State) (d : Driver) (b : U32) :
    State.sequencerCycle { s with drv := d, busData := b } = { s.sequencerCycle with drv := d, busData := b } := by
  unfold State.sequencerCycle
  cases hp : s.blk.phase with
  | idle => rfl
  | high =>
    show (if s.reached then _ else _) = _
    cases s.reached <;> rfl
  | low =>
    show (if s.reached then (if s.lastBit then (if s.lastByte then _ else _) else _) else _) = _
    cases s.reached <;> cases s.lastBit <;> cases s.lastByte <;> rfl

/-- The sequencer does not look at the allocator's side. -/
theorem sequencerCycle_withAlloc (s : State) (al : Allocator) :
    State.sequencerCycle { s with alloc := al } = { s.sequencerCycle with alloc := al } := by
  unfold State.sequencerCycle
  cases hp : s.blk.phase with
  | idle => rfl
  | high =>
    show (if s.reached then _ else _) = _
    cases s.reached <;> rfl
  | low =>
    show (if s.reached then (if s.lastBit then (if s.lastByte then _ else _) else _) else _) = _
    cases s.reached <;> cases s.lastBit <;> cases s.lastByte <;> rfl

theorem runCycles_host (n : Nat) (s : State) (d : Driver) (b : U32) :
    State.runCycles n { s with drv := d, busData := b } = { s.runCycles n with drv := d, busData := b } := by
  induction n generalizing s with
  | zero => rfl
  | succ n ih =>
    simp only [State.runCycles]
    rw [sequencerCycle_host, ih]

theorem runCycles_add (m n : Nat) (s : State) : s.runCycles (m + n) = (s.runCycles m).runCycles n := by
  induction m generalizing s with
  | zero => simp [State.runCycles]
  | succ m ih => rw [Nat.succ_add]; exact ih _

theorem runCells_add (m n : Nat) (s : State) : s.runCells (m + n) = (s.runCells m).runCells n := by
  induction m generalizing s with
  | zero => simp [State.runCells]
  | succ m ih => rw [Nat.succ_add]; exact ih _

end Sys2Proof.Machine
end

