-- ==== Sys2Proof/Laws/Sequencer.lean ====
section
/-! SUPPORT. The sequencer: what the state selects, that the selected micro-operation runs, and what a step with nothing
arriving does. -/

namespace Sys2Proof.Machine

/-- While busy the byte being sent is one of the buffer's (part of R40 (b)). -/
def State.ByteInRange (s : State) : Prop := s.blk.phase ≠ .idle → s.blk.byteIdx.toNat < s.blk.lenL.toNat

theorem decode_select_idle (s : State) (h : s.blk.phase = .idle) :
    ∃ x, decode (.seq s.selectVector) = .ok (.idleHold x) := by
  simp only [State.selectVector, h, Phase.code]
  generalize s.reached = r; generalize s.lastBit = a; generalize s.lastByte = b
  cases r <;> cases a <;> cases b <;> exact ⟨_, rfl⟩

theorem decode_select_high (s : State) (h : s.blk.phase = .high) :
    ∃ x, decode (.seq s.selectVector) = .ok (if s.reached then .fall x else .highHold x) := by
  simp only [State.selectVector, h, Phase.code]
  generalize s.reached = r; generalize s.lastBit = a; generalize s.lastByte = b
  cases r <;> cases a <;> cases b <;> exact ⟨_, rfl⟩

theorem decode_select_low (s : State) (h : s.blk.phase = .low) :
    ∃ (x : BitVec 2) (y : BitVec 1), decode (.seq s.selectVector) = .ok
      (if s.reached then (if s.lastBit then (if s.lastByte then .finish else .nextByte) else .nextBit y)
        else .lowHold x) := by
  simp only [State.selectVector, h, Phase.code]
  generalize s.reached = r; generalize s.lastBit = a; generalize s.lastByte = b
  exact ⟨BitVec.ofBool a ++ BitVec.ofBool b, BitVec.ofBool b, by cases r <;> cases a <;> cases b <;> rfl⟩

theorem reached_high {s : State} (h : s.blk.phase = .high) :
    s.reached = decide (s.thr.toNat ≤ s.elapsed.toNat + 1) := by simp [State.reached, h]

theorem reached_low {s : State} (h : s.blk.phase = .low) :
    s.reached = decide (s.blk.period.toNat ≤ s.elapsed.toNat + 1) := by simp [State.reached, h]

/-- The micro-operation that the state selects runs, and its effect is `sequencerCycle` (R84, section 4). -/
theorem exec_selected (s : State) (hb : s.ByteInRange) :
    ∃ i, decode (.seq s.selectVector) = .ok i ∧ exec i s = .next s.sequencerCycle := by
  cases h : s.blk.phase with
  | idle =>
    obtain ⟨x, hx⟩ := decode_select_idle s h
    exact ⟨_, hx, by simp [exec, execIdleHold, State.sequencerCycle, h]⟩
  | high =>
    obtain ⟨x, hx⟩ := decode_select_high s h
    refine ⟨_, hx, ?_⟩
    have hr := reached_high h
    cases hc : s.reached <;> rw [hc] at hr <;>
      simp_all [exec, execFall, execHighHold, State.sequencerCycle]
  | low =>
    obtain ⟨x, y, hx⟩ := decode_select_low s h
    refine ⟨_, hx, ?_⟩
    have hr := reached_low h
    have hb' := hb (by simp [h])
    cases hc : s.reached with
    | false => rw [hc] at hr; simp_all [exec, execLowHold, State.sequencerCycle]
    | true =>
      rw [hc] at hr
      have hr' : s.blk.period.toNat ≤ s.elapsed.toNat + 1 := by simpa using hr.symm
      cases hl : s.lastBit with
      | false =>
        have hz : 0 < s.blk.bitIdx.toNat := by
          simp only [State.lastBit, beq_eq_false_iff_ne, ne_eq] at hl
          exact Nat.pos_of_ne_zero fun h0 => hl (BitVec.eq_of_toNat_eq h0)
        simp [exec, execNextBit, State.sequencerCycle, h, hc, hl, hr', hz]
      | true =>
        have hz : s.blk.bitIdx = 0 := by simpa [State.lastBit] using hl
        cases hy : s.lastByte with
        | false =>
          have hn : s.blk.byteIdx.toNat + 1 < s.blk.lenL.toNat := by
            simp only [State.lastByte, beq_eq_false_iff_ne, ne_eq] at hy; omega
          simp [exec, execNextByte, State.sequencerCycle, h, hc, hl, hy, hr', hz, hn]
        | true =>
          have hn : s.blk.byteIdx.toNat + 1 = s.blk.lenL.toNat := by simpa [State.lastByte] using hy
          simp [exec, execFinish, State.sequencerCycle, h, hc, hl, hy, hr', hz, hn]

/-- A step in which nothing arrives, with no driver call in progress, is one cycle of the sequencer. -/
theorem step_noStimulus (s : State) (hs : s.stimuli = []) (hc : s.drv.stage = .idle) (hb : s.ByteInRange) :
    step s = .next s.sequencerCycle := by
  obtain ⟨i, hi, he⟩ := exec_selected s hb
  simp [step, State.fetch, State.fetchDriver, hs, hc, State.fetchMicro, hi, he]

/-- A cycle in which what arrives changes only what the sequencer does not look at: the selected micro-operation runs. -/
theorem fetchMicro_runs (s : State) (hb : s.ByteInRange) :
    ∃ i, s.fetchMicro = .run i s ∧ exec i s = .next s.sequencerCycle := by
  obtain ⟨i, hi, he⟩ := exec_selected s hb
  exact ⟨i, by simp [State.fetchMicro, hi], he⟩

/-- The sequencer's cycle counts one on the counter (R27). -/
@[simp] theorem sequencerCycle_cc (s : State) : s.sequencerCycle.cc = s.cc + 1 := by
  unfold State.sequencerCycle; repeat' split
  all_goals rfl

/-- A cycle keeps the byte being sent inside the buffer. -/
theorem sequencerCycle_byteInRange (s : State) (hb : s.ByteInRange) : s.sequencerCycle.ByteInRange := by
  intro hp
  simp only [State.sequencerCycle_blk_lenL]
  unfold State.sequencerCycle at hp ⊢
  cases h : s.blk.phase with
  | idle => simp [h, State.holdCycle] at hp
  | high =>
    have := hb (by simp [h])
    cases hr : s.reached <;> simpa [State.holdCycle, State.fallCycle]
  | low =>
    have hb' := hb (by simp [h])
    cases hr : s.reached with
    | false => simpa [State.holdCycle]
    | true =>
      cases hl : s.lastBit with
      | false => simpa [State.nextBitCycle]
      | true =>
        cases hy : s.lastByte with
        | false =>
          have hn : s.blk.byteIdx.toNat + 1 < s.blk.lenL.toNat := by
            simp only [State.lastByte, beq_eq_false_iff_ne, ne_eq] at hy; omega
          have := s.blk.lenL.isLt
          have h1 : (1 : U16).toNat = 1 := rfl
          simp only [if_true, State.nextByteCycle, State.endCycle_blk, State.rise_blk, BitVec.toNat_add, h1,
            Bool.false_eq_true, if_false]
          omega
        | true => simp [h, hr, hl, hy, State.finishCycle] at hp

/-- A run with no stimuli and no driver call in progress is cycle after cycle of the sequencer. -/
theorem run_noStimulus (n : Nat) (s : State) (hs : s.stimuli = []) (hc : s.drv.stage = .idle) (hb : s.ByteInRange) :
    Host.Core.run Sys2Proof.core n s = .next (s.runCycles n) := by
  induction n generalizing s with
  | zero => rfl
  | succ n ih =>
    have h := step_noStimulus s hs hc hb
    simp only [Host.Core.run, Sys2Proof.core, State.runCycles] at ih ⊢
    rw [h]
    exact ih s.sequencerCycle (by simp [hs]) (by simp [hc]) (sequencerCycle_byteInRange s hb)

/-- Whatever micro-operation runs to a next state in a state, it is the one the state selects (R84). -/
theorem exec_micro_next {v : BitVec 5} {i : Instr} {s t : State} (hd : decode (.seq v) = .ok i)
    (h : exec i s = .next t) : t = s.sequencerCycle := by
  have key : ∀ (c : Prop) [Decidable c] (u : State) (r : Refusal),
      (if c then Host.Outcome.next u else .refused r : Host.Outcome State Fault Refusal) = .next t → c ∧ t = u := by
    intro c _ u r hh
    split at hh
    · exact ⟨‹_›, by simpa using hh.symm⟩
    · cases hh
  simp only [decode, decodeSeq] at hd
  split at hd <;> cases hd
  · obtain ⟨c, rfl⟩ := key _ _ _ h
    simp [State.sequencerCycle, c]
  · obtain ⟨⟨c, d⟩, rfl⟩ := key _ _ _ h
    simp [State.sequencerCycle, c, reached_high c, Nat.not_le.2 d]
  · obtain ⟨⟨c, d⟩, rfl⟩ := key _ _ _ h
    simp [State.sequencerCycle, c, reached_high c, d]
  · obtain ⟨⟨c, d⟩, rfl⟩ := key _ _ _ h
    simp [State.sequencerCycle, c, reached_low c, Nat.not_le.2 d]
  · obtain ⟨⟨c, d, e⟩, rfl⟩ := key _ _ _ h
    have : s.lastBit = false := by
      simp only [State.lastBit, beq_eq_false_iff_ne, ne_eq]; intro hh; rw [hh] at e; exact absurd e (by decide)
    simp [State.sequencerCycle, c, reached_low c, d, this]
  · obtain ⟨⟨c, d, e, f⟩, rfl⟩ := key _ _ _ h
    have hb : s.lastBit = true := by simp [State.lastBit, e]
    have hy : s.lastByte = false := by simp only [State.lastByte, beq_eq_false_iff_ne, ne_eq]; omega
    simp [State.sequencerCycle, c, reached_low c, d, hb, hy]
  · obtain ⟨⟨c, d, e, f⟩, rfl⟩ := key _ _ _ h
    have hb : s.lastBit = true := by simp [State.lastBit, e]
    have hy : s.lastByte = true := by simp [State.lastByte, f]
    simp [State.sequencerCycle, c, reached_low c, d, hb, hy]

/-- What a fetched outcome leads to. -/
def Fetched.outcome : Fetched → Host.Outcome State Fault Refusal
  | .run i s => exec i s
  | .goTo s => .next s
  | .stop r => .refused r

theorem step_eq (s : State) : step s = s.fetch.outcome := by
  unfold step Fetched.outcome; cases s.fetch <;> rfl

theorem fetchMicro_outcome {s : State} (hb : s.ByteInRange) : s.fetchMicro.outcome = .next s.sequencerCycle := by
  obtain ⟨i, hi, he⟩ := fetchMicro_runs s hb
  rw [hi]; exact he

theorem fetchMicro_next {s t : State} (h : s.fetchMicro.outcome = .next t) : t = s.sequencerCycle := by
  unfold State.fetchMicro at h
  split at h
  · exact exec_micro_next (by assumption) h
  · cases h

end Sys2Proof.Machine
end

