-- ==== Sys2Proof/Laws/Cell.lean ====
section
/-! SUPPORT. A cell: `period` cycles of the sequencer from the first cycle of a cell are `wholeCell` (R128 to R130). -/

namespace Sys2Proof.Machine

theorem pushSegment_zero (l : Bool) (w : List Segment) : pushSegment l 0 w = w := by simp [pushSegment]

theorem pushSegment_add (l : Bool) (a b : Nat) (w : List Segment) :
    pushSegment l b (pushSegment l a w) = pushSegment l (a + b) w := by
  by_cases ha : a = 0
  · simp [ha, pushSegment_zero]
  by_cases hb : b = 0
  · simp [hb, pushSegment_zero]
  cases w with
  | nil => simp [pushSegment, ha, hb]
  | cons g rest =>
    by_cases hg : g.level = l
    · simp [pushSegment, ha, hb, hg, Nat.add_assoc]
    · simp [pushSegment, ha, hb, hg]

theorem holdFor_elapsed {s : State} {n : Nat} (h : s.elapsed.toNat + n < 4294967296) :
    (s.holdFor n).elapsed.toNat = s.elapsed.toNat + n := by
  have e : (s.holdFor n).elapsed = s.elapsed + BitVec.ofNat 32 n := by
    simp only [State.elapsed, State.holdFor]; ring
  rw [e, BitVec.toNat_add, BitVec.toNat_ofNat]; omega

theorem holdFor_succ {s : State} {n : Nat} (hb : s.busy = true) : (s.holdFor n).holdCycle = s.holdFor (n + 1) := by
  have hb' : (s.holdFor n).busy = true := hb
  have hl : (s.holdFor n).lineLevel = s.lineLevel := rfl
  have hc : s.cc + BitVec.ofNat 32 n + 1 = s.cc + BitVec.ofNat 32 (n + 1) := by
    rw [BitVec.add_assoc]; congr 1; exact (BitVec.ofNat_add n 1).symm
  simp only [State.holdCycle, State.endCycle, State.recorded, hb', if_true, hl]
  simp only [State.holdFor, hc, pushSegment_add]

/-- The high part of a cell: `HIGH_HOLD` cycles. -/
theorem runCycles_high {s : State} (h : s.blk.phase = .high) {n : Nat} (hn : s.elapsed.toNat + n < s.thr.toNat) :
    s.runCycles n = s.holdFor n := by
  induction n with
  | zero => simp [State.runCycles, State.holdFor, pushSegment_zero]
  | succ n ih =>
    have ht := s.thr.isLt
    have he := holdFor_elapsed (s := s) (n := n) (by omega)
    have hp : (s.holdFor n).blk.phase = .high := h
    have hth : (s.holdFor n).thr = s.thr := rfl
    have hr : (s.holdFor n).reached = false := by
      rw [reached_high hp, hth, he]; exact decide_eq_false (by omega)
    rw [runCycles_add, ih (by omega)]
    simp only [State.runCycles, State.sequencerCycle, hp, hr, Bool.false_eq_true, if_false]
    exact holdFor_succ (by simp [State.busy, h, Phase.busy])

/-- The low part of a cell but its last cycle: `LOW_HOLD` cycles. -/
theorem runCycles_low {s : State} (h : s.blk.phase = .low) {n : Nat} (hn : s.elapsed.toNat + n < s.blk.period.toNat) :
    s.runCycles n = s.holdFor n := by
  induction n with
  | zero => simp [State.runCycles, State.holdFor, pushSegment_zero]
  | succ n ih =>
    have ht := s.blk.period.isLt
    have he := holdFor_elapsed (s := s) (n := n) (by omega)
    have hp : (s.holdFor n).blk.phase = .low := h
    have hper : (s.holdFor n).blk.period = s.blk.period := rfl
    have hr : (s.holdFor n).reached = false := by
      rw [reached_low hp, hper, he]; exact decide_eq_false (by omega)
    rw [runCycles_add, ih (by omega)]
    simp only [State.runCycles, State.sequencerCycle, hp, hr, Bool.false_eq_true, if_false]
    exact holdFor_succ (by simp [State.busy, h, Phase.busy])

theorem atCellStart_iff {s : State} :
    s.atCellStart = true ↔ s.blk.phase = .high ∧ s.blk.startTime = s.cc ∧ s.lineLevel = true
      ∧ 1 ≤ s.thr.toNat ∧ s.thr.toNat < s.blk.period.toNat := by
  simp only [State.atCellStart, Bool.and_eq_true, decide_eq_true_eq, and_assoc]

theorem level_drive_self (g : Lines) (p : Pin) (v : Bool) : Lines.level (Lines.drive g p v) p = v := by
  have := p.isLt
  cases v <;> simp [Lines.level, Lines.drive, BitVec.getLsbD_shiftLeft]
  omega

theorem level_drive_other (g : Lines) {p q : Pin} (h : q ≠ p) (v : Bool) :
    Lines.level (Lines.drive g p v) q = Lines.level g q := by
  have hq := q.isLt
  have hne : q.toNat ≠ p.toNat := fun e => h (BitVec.eq_of_toNat_eq e)
  have hb : (1#64 <<< p.toNat).getLsbD q.toNat = false := by
    simp only [BitVec.getLsbD_shiftLeft, BitVec.getLsbD_one]
    by_cases hlt : q.toNat < p.toNat
    · simp [hlt]
    · simp; omega
  cases v
  · simp only [Lines.level, Lines.drive, Bool.false_eq_true, if_false, BitVec.getLsbD_and, BitVec.getLsbD_not, hb]
    simp; omega
  · simp only [Lines.level, Lines.drive, if_true, BitVec.getLsbD_or, hb, Bool.or_false]

/-- The cycles of a cell from its first to the one before its last. -/
theorem runCycles_toLast {s : State} (h : s.atCellStart = true) :
    s.runCycles (s.blk.period.toNat - 1) = s.cellLastCycle := by
  obtain ⟨hp, hs, hl, h1, h2⟩ := atCellStart_iff.1 h
  have hper := s.blk.period.isLt
  have he : s.elapsed.toNat = 0 := by simp [State.elapsed, hs]
  have hn : s.blk.period.toNat - 1 = (s.thr.toNat - 1) + (1 + (s.blk.period.toNat - 1 - s.thr.toNat)) := by omega
  rw [hn, runCycles_add, runCycles_add, runCycles_high hp (by omega)]
  have hp' : (s.holdFor (s.thr.toNat - 1)).blk.phase = .high := hp
  have he' := holdFor_elapsed (s := s) (n := s.thr.toNat - 1) (by omega)
  have hth : (s.holdFor (s.thr.toNat - 1)).thr = s.thr := rfl
  have hr : (s.holdFor (s.thr.toNat - 1)).reached = true := by
    rw [reached_high hp', hth, he']; exact decide_eq_true (by omega)
  have hf : (s.holdFor (s.thr.toNat - 1)).runCycles 1
      = { s.dropLine with
          blk.phase := .low, cc := s.cc + BitVec.ofNat 32 s.thr.toNat,
          obs.wave := pushSegment true s.thr.toNat s.obs.wave } := by
    have hb : (s.holdFor (s.thr.toNat - 1)).busy = true := by simp [State.busy, hp', Phase.busy]
    have hll : (s.holdFor (s.thr.toNat - 1)).lineLevel = true := hl
    have hc : s.cc + BitVec.ofNat 32 (s.thr.toNat - 1) + 1 = s.cc + BitVec.ofNat 32 s.thr.toNat := by
      rw [BitVec.add_assoc]; congr 1
      rw [show (1 : U32) = BitVec.ofNat 32 1 from rfl, ← BitVec.ofNat_add, Nat.sub_add_cancel h1]
    have hw : pushSegment true 1 (pushSegment true (s.thr.toNat - 1) s.obs.wave)
        = pushSegment true s.thr.toNat s.obs.wave := by rw [pushSegment_add, Nat.sub_add_cancel h1]
    simp only [State.runCycles, State.sequencerCycle, hp', hr, if_true, State.fallCycle, State.endCycle, State.recorded,
      hb, hll]
    simp only [State.holdFor, hl, State.dropLine, hc, hw]
  rw [hf]
  rw [runCycles_low]
  · simp only [State.holdFor, State.cellLastCycle, State.dropLine]
    have hlow : State.lineLevel { s with
        gpio := Lines.drive s.gpio s.blk.pinL false, blk.phase := .low, cc := s.cc + BitVec.ofNat 32 s.thr.toNat,
        obs.wave := pushSegment true s.thr.toNat s.obs.wave } = false := level_drive_self _ _ _
    have hc : s.cc + BitVec.ofNat 32 s.thr.toNat + BitVec.ofNat 32 (s.blk.period.toNat - 1 - s.thr.toNat)
        = s.cc + (s.blk.period - 1) := by
      rw [BitVec.add_assoc, ← BitVec.ofNat_add]
      congr 1
      apply BitVec.eq_of_toNat_eq
      have h1' : (1 : U32).toNat = 1 := rfl
      rw [BitVec.toNat_ofNat, BitVec.toNat_sub, h1']; omega
    rw [hlow, hc]
  · rfl
  · have : s.cc + BitVec.ofNat 32 s.thr.toNat - s.blk.startTime = BitVec.ofNat 32 s.thr.toNat := by
      rw [hs, BitVec.add_comm, BitVec.add_sub_cancel]
    simp only [State.elapsed, State.dropLine, this, BitVec.toNat_ofNat]
    omega

/-- R130: `period` cycles of the sequencer from the first cycle of a cell are the closed form. -/
theorem runCycles_cell {s : State} (h : s.atCellStart = true) : s.runCycles s.blk.period.toNat = s.wholeCell := by
  have h2 := (atCellStart_iff.1 h).2.2.2
  have hn : s.blk.period.toNat = (s.blk.period.toNat - 1) + 1 := by omega
  rw [hn, runCycles_add, runCycles_toLast h]
  rfl

/-- In the last cycle of a cell the period is reached. -/
theorem cellLastCycle_reached {s : State} (h : s.atCellStart = true) : s.cellLastCycle.reached = true := by
  obtain ⟨_, hs, _, h1, h2⟩ := atCellStart_iff.1 h
  have hper := s.blk.period.isLt
  rw [reached_low (s := s.cellLastCycle) rfl]
  have e : s.cellLastCycle.elapsed = s.blk.period - 1 := by
    simp only [State.elapsed, State.cellLastCycle_cc, State.cellLastCycle_blk, hs]; ring
  have h1' : (1 : U32).toNat = 1 := rfl
  rw [e, BitVec.toNat_sub, h1']
  exact decide_eq_true (by simp only [State.cellLastCycle_blk]; omega)

/-- A cell counts `period` cycles. -/
theorem wholeCell_cc (s : State) : s.wholeCell.cc = s.cc + s.blk.period := by
  rw [State.wholeCell, sequencerCycle_cc, State.cellLastCycle_cc]; ring

/-- What a cell records: its high and its low segment, after a record that does not end high. -/
theorem wholeCell_wave {s : State} (h : s.atCellStart = true) (hw : s.recordEndsLow = true) :
    s.wholeCell.obs.wave = { level := false, cycles := s.blk.period.toNat - s.thr.toNat }
      :: { level := true, cycles := s.thr.toNat } :: s.obs.wave := by
  obtain ⟨_, _, _, h1, h2⟩ := atCellStart_iff.1 h
  have hl : s.cellLastCycle.lineLevel = false := level_drive_self _ _ _
  have hb : s.cellLastCycle.busy = true := rfl
  have hseq : s.wholeCell.obs.wave = pushSegment false 1 s.cellLastCycle.obs.wave := by
    have e : ∀ b : State, b.obs.wave = s.cellLastCycle.obs.wave →
        (State.endCycle s.cellLastCycle b).obs.wave = pushSegment false 1 s.cellLastCycle.obs.wave := by
      intro b hb'; simp [State.recorded, hb, hl, hb']
    unfold State.wholeCell State.sequencerCycle
    simp only [show s.cellLastCycle.blk.phase = .low from rfl]
    repeat' split
    all_goals exact e _ rfl
  rw [hseq, State.cellLastCycle_obs_wave, pushSegment_add]
  have hn : s.blk.period.toNat - 1 - s.thr.toNat + 1 = s.blk.period.toNat - s.thr.toNat := by omega
  rw [hn]
  have hne : s.thr.toNat ≠ 0 := by omega
  have hne' : s.blk.period.toNat - s.thr.toNat ≠ 0 := by omega
  cases hwv : s.obs.wave with
  | nil => simp [pushSegment, hne, hne']
  | cons g rest =>
    have hg : g.level = false := by simpa [State.recordEndsLow, hwv] using hw
    simp [pushSegment, hne, hne', hg]

end Sys2Proof.Machine
end

