-- ==== Sys2Proof/Laws/Memory.lean ====
section
/-! SUPPORT. Data memory: read after write, the canonical form, and byte-by-byte copying. -/

namespace Sys2Proof.Machine

theorem Memory.wfFrom_cons {lo k : Nat} {v : U8} {m : Memory} :
    Memory.wfFrom lo ((k, v) :: m) = true ↔
      lo ≤ k ∧ k < 4294967296 ∧ v ≠ Memory.unlisted ∧ Memory.wfFrom (k + 1) m = true := by
  simp [Memory.wfFrom, and_assoc]

theorem Memory.wfFrom_mono {lo lo' : Nat} {m : Memory} (h : Memory.wfFrom lo m = true) (hl : lo' ≤ lo) :
    Memory.wfFrom lo' m = true := by
  cases m with
  | nil => rfl
  | cons c m =>
    obtain ⟨k, v⟩ := c
    rw [Memory.wfFrom_cons] at *
    exact ⟨by omega, h.2⟩

/-- Below the first key nothing is listed. -/
theorem Memory.lookup_below {lo a : Nat} {m : Memory} (h : Memory.wfFrom lo m = true) (ha : a < lo) :
    Memory.lookup m a = Memory.unlisted := by
  induction m generalizing lo with
  | nil => rfl
  | cons c m ih =>
    obtain ⟨k, v⟩ := c
    rw [Memory.wfFrom_cons] at h
    rw [Memory.lookup, if_neg (by omega)]
    exact ih h.2.2.2 (by omega)

theorem Memory.lookup_store_self {lo : Nat} {m : Memory} (h : Memory.wfFrom lo m = true) (a : Nat) (v : U8) :
    Memory.lookup (Memory.store m a v) a = v := by
  induction m generalizing lo with
  | nil => simp only [Memory.store]; split <;> simp_all [Memory.lookup]
  | cons c m ih =>
    obtain ⟨k, x⟩ := c
    have h' := Memory.wfFrom_cons.1 h
    simp only [Memory.store]
    split
    · split
      · rename_i hlt hv
        rw [hv]; exact Memory.lookup_below (Memory.wfFrom_cons.2 ⟨Nat.le_refl k, h'.2⟩) hlt
      · simp [Memory.lookup]
    · split
      · split
        · rename_i hk hv
          rw [hv]; exact Memory.lookup_below h'.2.2.2 (by omega)
        · simp [Memory.lookup]
      · rw [Memory.lookup, if_neg (by omega)]
        exact ih h'.2.2.2

theorem Memory.lookup_store_other (m : Memory) {a b : Nat} (hne : b ≠ a) (v : U8) :
    Memory.lookup (Memory.store m a v) b = Memory.lookup m b := by
  induction m with
  | nil => simp only [Memory.store]; split <;> simp [Memory.lookup, hne.symm]
  | cons c m ih =>
    obtain ⟨k, x⟩ := c
    simp only [Memory.store]
    split
    · split <;> simp [Memory.lookup, hne.symm]
    · split
      · rename_i hk
        split <;> simp [Memory.lookup, hne.symm, ← hk]
      · simp [Memory.lookup, ih]

theorem Memory.store_wfFrom {lo : Nat} {m : Memory} (h : Memory.wfFrom lo m = true) {a : Nat} (hlo : lo ≤ a)
    (ha : a < 4294967296) (v : U8) : Memory.wfFrom lo (Memory.store m a v) = true := by
  induction m generalizing lo with
  | nil =>
    simp only [Memory.store]; split
    · rfl
    · exact Memory.wfFrom_cons.2 ⟨hlo, ha, ‹_›, rfl⟩
  | cons c m ih =>
    obtain ⟨k, x⟩ := c
    have h' := Memory.wfFrom_cons.1 h
    simp only [Memory.store]
    split
    · split
      · exact h
      · exact Memory.wfFrom_cons.2 ⟨hlo, ha, ‹_›, Memory.wfFrom_cons.2 ⟨by omega, h'.2⟩⟩
    · split
      · rename_i hk
        split
        · exact Memory.wfFrom_mono h'.2.2.2 (by omega)
        · exact Memory.wfFrom_cons.2 ⟨hlo, ha, ‹_›, by rw [hk]; exact h'.2.2.2⟩
      · exact Memory.wfFrom_cons.2 ⟨h'.1, h'.2.1, h'.2.2.1, ih h'.2.2.2 (by omega)⟩

theorem Memory.read_write_self {m : Memory} (h : m.wf = true) (a : U32) (v : U8) : (m.write a v).read a = v :=
  Memory.lookup_store_self h _ _

theorem Memory.read_write_other (m : Memory) {a b : U32} (hne : b ≠ a) (v : U8) : (m.write a v).read b = m.read b :=
  Memory.lookup_store_other m (fun h => hne (BitVec.eq_of_toNat_eq h)) v

theorem Memory.write_wf {m : Memory} (h : m.wf = true) (a : U32) (v : U8) : (m.write a v).wf = true :=
  Memory.store_wfFrom h (Nat.zero_le _) a.isLt v

theorem byteAddr_toNat {base : U32} {i : Nat} (h : base.toNat + i < 4294967296) :
    (byteAddr base i).toNat = base.toNat + i := by
  simp only [byteAddr, BitVec.toNat_add, BitVec.toNat_ofNat]; omega

theorem byteAddr_zero (base : U32) : byteAddr base 0 = base := by simp [byteAddr]

theorem fitsSpace_iff {base : U32} {n : Nat} : fitsSpace base n = true ↔ base.toNat + n ≤ 4294967296 := by
  simp [fitsSpace]

theorem disjoint_iff {a b : U32} {na nb : Nat} :
    disjoint a na b nb = true ↔ na = 0 ∨ nb = 0 ∨ a.toNat + na ≤ b.toNat ∨ b.toNat + nb ≤ a.toNat := by
  simp [disjoint, or_assoc]

theorem inRange_iff {base a : U32} {n : Nat} :
    inRange base n a = true ↔ base.toNat ≤ a.toNat ∧ a.toNat < base.toNat + n := by simp [inRange]

/-- Copying keeps the canonical form. -/
theorem Memory.transform_wf (f : U8 → U8) (src dst : U32) (n : Nat) {m : Memory} (h : m.wf = true) :
    (m.transform f src dst n).wf = true := by
  induction n with
  | zero => exact h
  | succ n ih => exact Memory.write_wf ih _ _

/-- Copying changes no byte outside the destination. -/
theorem Memory.transform_other (f : U8 → U8) (src : U32) {dst : U32} {n : Nat} (hd : fitsSpace dst n = true)
    (m : Memory) {a : U32} (ha : inRange dst n a = false) : (m.transform f src dst n).read a = m.read a := by
  rw [fitsSpace_iff] at hd
  induction n with
  | zero => rfl
  | succ n ih =>
    rw [← Bool.not_eq_true, inRange_iff] at ha
    have hn := byteAddr_toNat (base := dst) (i := n) (by omega)
    rw [Memory.transform, Memory.read_write_other]
    · exact ih (by omega) (by rw [← Bool.not_eq_true, inRange_iff]; omega)
    · intro h; subst h; omega

/-- A copy to a disjoint place: byte `i` there is `f` of byte `i` here. -/
theorem Memory.transform_disjoint (f : U8 → U8) {src dst : U32} {n : Nat} (hs : fitsSpace src n = true)
    (hd : fitsSpace dst n = true) (hdis : disjoint dst n src n = true) {m : Memory} (hm : m.wf = true) {i : Nat}
    (hi : i < n) : (m.transform f src dst n).read (byteAddr dst i) = f (m.read (byteAddr src i)) := by
  rw [fitsSpace_iff] at hs hd
  rw [disjoint_iff] at hdis
  have key : ∀ k ≤ n, ∀ i < k, (m.transform f src dst k).read (byteAddr dst i) = f (m.read (byteAddr src i)) := by
    intro k
    induction k with
    | zero => intro _ i hi; omega
    | succ k ih =>
      intro hk i hi
      have hk' := byteAddr_toNat (base := dst) (i := k) (by omega)
      have hi' := byteAddr_toNat (base := dst) (i := i) (by omega)
      rw [Memory.transform]
      by_cases hik : i = k
      · subst hik
        rw [Memory.read_write_self (Memory.transform_wf f src dst i hm),
          Memory.transform_other f src (fitsSpace_iff.2 (by omega))]
        rw [← Bool.not_eq_true, inRange_iff]
        have := byteAddr_toNat (base := src) (i := i) (by omega)
        omega
      · rw [Memory.read_write_other _ (by intro h; rw [h] at hi'; omega)]
        exact ih (by omega) i (by omega)
  exact key n (Nat.le_refl n) i hi

/-- A change in place: byte `i` becomes `f` of itself. -/
theorem Memory.transform_inPlace (f : U8 → U8) {base : U32} {n : Nat} (hb : fitsSpace base n = true) {m : Memory}
    (hm : m.wf = true) {i : Nat} (hi : i < n) :
    (m.transform f base base n).read (byteAddr base i) = f (m.read (byteAddr base i)) := by
  rw [fitsSpace_iff] at hb
  have key : ∀ k ≤ n, ∀ i < k, (m.transform f base base k).read (byteAddr base i) = f (m.read (byteAddr base i)) := by
    intro k
    induction k with
    | zero => intro _ i hi; omega
    | succ k ih =>
      intro hk i hi
      have hk' := byteAddr_toNat (base := base) (i := k) (by omega)
      have hi' := byteAddr_toNat (base := base) (i := i) (by omega)
      rw [Memory.transform]
      by_cases hik : i = k
      · subst hik
        rw [Memory.read_write_self (Memory.transform_wf f base base i hm),
          Memory.transform_other f base (fitsSpace_iff.2 (by omega))]
        rw [← Bool.not_eq_true, inRange_iff]
        omega
      · rw [Memory.read_write_other _ (by intro h; rw [h] at hi'; omega)]
        exact ih (by omega) i (by omega)
  exact key n (Nat.le_refl n) i hi

end Sys2Proof.Machine
end

