-- ==== Sys2Proof/Laws/Frame.lean ====
section
/-! SUPPORT. A frame: the `8 * N` cells of a transmission, cell by cell (R75, R118, R119, R130, R131). -/

namespace Sys2Proof.Machine

/-- The state in the first cycle of a transmission of `lenL >= 1` bytes, as an accepted START leaves it (R112). -/
structure FrameStart (t : State) : Prop where
  phase : t.blk.phase = .high
  startTime : t.blk.startTime = t.cc
  line : t.lineLevel = true
  byteIdx : t.blk.byteIdx = 0
  bitIdx : t.blk.bitIdx = 7
  pix : t.blk.pix = t.mem.read t.blk.bufL
  some_byte : 0 < t.blk.lenL.toNat
  time0 : 1 ≤ t.blk.time0.toNat
  time01 : t.blk.time0.toNat < t.blk.time1.toNat
  time1 : t.blk.time1.toNat < t.blk.period.toNat
  wave : t.obs.wave = []
  reads : t.obs.reads = [t.blk.bufL]

/-- The waveform of the first `k` cells of the frame that starts in `t`, oldest segment first. -/
def cellsWave (t : State) (k : Nat) : List Segment :=
  (List.range k).flatMap fun j =>
    cellWave t.blk.time0.toNat t.blk.time1.toNat t.blk.period.toNat (frameBit t.mem t.blk.bufL j)

/-- `s` is the state in the first cycle of cell `k` of the frame that starts in `t`. -/
structure AtCell (t : State) (k : Nat) (s : State) : Prop where
  phase : s.blk.phase = .high
  startTime : s.blk.startTime = s.cc
  cc : s.cc = t.cc + BitVec.ofNat 32 (k * t.blk.period.toNat)
  gpio : s.gpio = t.gpio
  byteIdx : s.blk.byteIdx.toNat = k / 8
  bitIdx : s.blk.bitIdx.toNat = 7 - k % 8
  pix : s.blk.pix = t.mem.read (byteAddr t.blk.bufL (k / 8))
  outside : SameOutside t s
  latched : SameLatched t s
  wave : s.obs.wave = (cellsWave t k).reverse
  reads : s.obs.reads = ((List.range (k / 8 + 1)).map (byteAddr t.blk.bufL)).reverse

/-- `s` is the state after the last cell of the frame that starts in `t`. -/
structure FrameEnd (t s : State) : Prop where
  phase : s.blk.phase = .idle
  cc : s.cc = t.cc + BitVec.ofNat 32 (8 * t.blk.lenL.toNat * t.blk.period.toNat)
  gpio : s.gpio = Lines.drive t.gpio t.blk.pinL false
  outside : SameOutside t s
  latched : SameLatched t s
  wave : s.obs.wave = (cellsWave t (8 * t.blk.lenL.toNat)).reverse
  reads : s.obs.reads = ((List.range t.blk.lenL.toNat).map (byteAddr t.blk.bufL)).reverse

theorem drive_high_again {g : Lines} {p : Pin} (h : Lines.level g p = true) :
    Lines.drive (Lines.drive g p false) p true = g := by
  apply BitVec.eq_of_getLsbD_eq
  intro i hi
  by_cases hip : i = p.toNat
  · subst hip
    have := level_drive_self (Lines.drive g p false) p true
    simp only [Lines.level] at this h
    rw [this, h]
  · have hb : (1#64 <<< p.toNat).getLsbD i = false := by
      simp only [BitVec.getLsbD_shiftLeft, BitVec.getLsbD_one]
      by_cases hlt : i < p.toNat
      · simp [hlt]
      · simp; omega
    simp only [Lines.drive, if_true, Bool.false_eq_true, if_false, BitVec.getLsbD_or, BitVec.getLsbD_and,
      BitVec.getLsbD_not, hb, hi, decide_true, Bool.not_false, Bool.and_self, Bool.and_true, Bool.or_false]

theorem cellsWave_succ (t : State) (k : Nat) :
    (cellsWave t (k + 1)).reverse =
      (cellWave t.blk.time0.toNat t.blk.time1.toNat t.blk.period.toNat (frameBit t.mem t.blk.bufL k)).reverse
        ++ (cellsWave t k).reverse := by
  simp [cellsWave, List.range_succ, List.flatMap_append]

theorem cellsWave_endsLow (t s : State) (k : Nat) (h : s.obs.wave = (cellsWave t k).reverse) :
    s.recordEndsLow = true := by
  cases k with
  | zero => simp [State.recordEndsLow, h, cellsWave]
  | succ k => simp [State.recordEndsLow, h, cellsWave_succ, cellWave]

theorem FrameStart.atCell {t : State} (h : FrameStart t) : AtCell t 0 t where
  phase := h.phase
  startTime := h.startTime
  cc := by simp
  gpio := rfl
  byteIdx := by simp [h.byteIdx]
  bitIdx := by simp [h.bitIdx]
  pix := by simp [h.pix, byteAddr_zero]
  outside := SameOutside.rfl' t
  latched := SameLatched.rfl' t
  wave := by simp [h.wave, cellsWave]
  reads := by simp [h.reads, byteAddr_zero]

theorem AtCell.dataBit {t s : State} {k : Nat} (a : AtCell t k s) : s.dataBit = frameBit t.mem t.blk.bufL k := by
  simp [State.dataBit, frameBit, a.pix, a.bitIdx]

theorem AtCell.thr {t s : State} {k : Nat} (a : AtCell t k s) :
    s.thr = if frameBit t.mem t.blk.bufL k then t.blk.time1 else t.blk.time0 := by
  obtain ⟨-, -, -, -, h0, h1, -⟩ := a.latched
  rw [State.thr, a.dataBit, h0, h1]

theorem AtCell.atCellStart {t s : State} {k : Nat} (h : FrameStart t) (a : AtCell t k s) : s.atCellStart = true := by
  obtain ⟨hp, -, -, -, -, -, hper, -⟩ := a.latched
  have h0 := h.time0; have h01 := h.time01; have h1 := h.time1
  refine atCellStart_iff.2 ⟨a.phase, a.startTime, ?_, ?_, ?_⟩
  · rw [State.lineLevel, a.gpio, hp]; exact h.line
  · rw [a.thr]; split <;> omega
  · rw [a.thr, hper]; split <;> omega

/-- What a cell of the frame adds to the record. -/
theorem AtCell.wave_next {t s : State} {k : Nat} (h : FrameStart t) (a : AtCell t k s) :
    s.wholeCell.obs.wave = (cellsWave t (k + 1)).reverse := by
  obtain ⟨-, -, -, -, -, -, hper, -⟩ := a.latched
  rw [wholeCell_wave (a.atCellStart h) (cellsWave_endsLow t s k a.wave), a.wave, a.thr, hper, cellsWave_succ]
  cases frameBit t.mem t.blk.bufL k <;> simp [cellWave]

theorem AtCell.cc_next {t s : State} {k : Nat} (a : AtCell t k s) :
    s.wholeCell.cc = t.cc + BitVec.ofNat 32 ((k + 1) * t.blk.period.toNat) := by
  obtain ⟨-, -, -, -, -, -, hper, -⟩ := a.latched
  rw [wholeCell_cc, a.cc, hper, BitVec.add_assoc]
  congr 1
  rw [Nat.succ_mul, BitVec.ofNat_add, BitVec.ofNat_toNat, BitVec.setWidth_eq]

theorem AtCell.gpio_next {t s : State} {k : Nat} (h : FrameStart t) (a : AtCell t k s) :
    Lines.drive (Lines.drive s.gpio s.blk.pinL false) s.blk.pinL true = t.gpio := by
  obtain ⟨hp, -⟩ := a.latched
  rw [a.gpio, hp]; exact drive_high_again h.line

/-- NEXT_BIT ends the cell of a bit that is not the last of its byte. -/
theorem AtCell.next_bit {t s : State} {k : Nat} (h : FrameStart t) (a : AtCell t k s) (hk : k % 8 ≠ 7) :
    AtCell t (k + 1) s.wholeCell := by
  have hb := a.bitIdx
  have hlb : s.cellLastCycle.lastBit = false := by
    simp only [State.lastBit, State.cellLastCycle_blk, beq_eq_false_iff_ne, ne_eq]
    intro h0; rw [h0] at hb; have : (0 : BitVec 3).toNat = 0 := rfl; omega
  have e : s.wholeCell = s.cellLastCycle.nextBitCycle := by
    rw [State.wholeCell, State.sequencerCycle, show s.cellLastCycle.blk.phase = .low from rfl]
    simp [cellLastCycle_reached (a.atCellStart h), hlb]
  refine ⟨?_, ?_, a.cc_next, ?_, ?_, ?_, ?_, a.outside.trans' (wholeCell_sameOutside s),
    a.latched.trans' (wholeCell_sameLatched s), a.wave_next h, ?_⟩
  · rw [e]; rfl
  · rw [e]; rfl
  · rw [e]; exact a.gpio_next h
  · rw [e]
    show s.blk.byteIdx.toNat = (k + 1) / 8
    rw [a.byteIdx]; omega
  · rw [e]
    show (s.blk.bitIdx - 1).toNat = 7 - (k + 1) % 8
    have h1 : (1 : BitVec 3).toNat = 1 := rfl
    rw [BitVec.toNat_sub, h1, hb]; omega
  · rw [e]
    show s.blk.pix = t.mem.read (byteAddr t.blk.bufL ((k + 1) / 8))
    rw [a.pix, show (k + 1) / 8 = k / 8 by omega]
  · rw [e]
    show s.obs.reads = ((List.range ((k + 1) / 8 + 1)).map (byteAddr t.blk.bufL)).reverse
    rw [a.reads, show (k + 1) / 8 = k / 8 by omega]

/-- NEXT_BYTE ends the cell of the last bit of a byte that is not the last. -/
theorem AtCell.next_byte {t s : State} {k : Nat} (h : FrameStart t) (a : AtCell t k s) (hk : k % 8 = 7)
    (hn : k / 8 + 1 < t.blk.lenL.toNat) : AtCell t (k + 1) s.wholeCell := by
  have hb := a.bitIdx
  have hy := a.byteIdx
  obtain ⟨hmem, -⟩ := a.outside
  obtain ⟨-, hbuf, hlen, -⟩ := a.latched
  have hltN := t.blk.lenL.isLt
  have hlb : s.cellLastCycle.lastBit = true := by
    simp only [State.lastBit, State.cellLastCycle_blk, beq_iff_eq]
    apply BitVec.eq_of_toNat_eq
    have : (0 : BitVec 3).toNat = 0 := rfl
    omega
  have hly : s.cellLastCycle.lastByte = false := by
    simp only [State.lastByte, State.cellLastCycle_blk, beq_eq_false_iff_ne, ne_eq, hy, hlen]; omega
  have e : s.wholeCell = s.cellLastCycle.nextByteCycle := by
    rw [State.wholeCell, State.sequencerCycle, show s.cellLastCycle.blk.phase = .low from rfl]
    simp [cellLastCycle_reached (a.atCellStart h), hlb, hly]
  have haddr : s.nextByteAddr = byteAddr t.blk.bufL ((k + 1) / 8) := by
    rw [State.nextByteAddr, hbuf, hy, show (k + 1) / 8 = k / 8 + 1 by omega]
  refine ⟨?_, ?_, a.cc_next, ?_, ?_, ?_, ?_, a.outside.trans' (wholeCell_sameOutside s),
    a.latched.trans' (wholeCell_sameLatched s), a.wave_next h, ?_⟩
  · rw [e]; rfl
  · rw [e]; rfl
  · rw [e]; exact a.gpio_next h
  · rw [e]
    show (s.blk.byteIdx + 1).toNat = (k + 1) / 8
    have h1 : (1 : U16).toNat = 1 := rfl
    rw [BitVec.toNat_add, h1, hy]; omega
  · rw [e]
    show (7 : BitVec 3).toNat = 7 - (k + 1) % 8
    have : (7 : BitVec 3).toNat = 7 := rfl
    omega
  · rw [e]
    show s.mem.read s.nextByteAddr = _
    rw [haddr, hmem]
  · rw [e]
    show s.nextByteAddr :: s.obs.reads = _
    rw [haddr, a.reads, show (k + 1) / 8 + 1 = (k / 8 + 1) + 1 by omega, List.range_succ (n := k / 8 + 1),
      show (k + 1) / 8 = k / 8 + 1 by omega]
    simp

/-- FINISH ends the last cell of the frame. -/
theorem AtCell.last {t s : State} {k : Nat} (h : FrameStart t) (a : AtCell t k s) (hk : k + 1 = 8 * t.blk.lenL.toNat) :
    FrameEnd t s.wholeCell := by
  have hb := a.bitIdx
  have hy := a.byteIdx
  obtain ⟨hpin, hbuf, hlen, -⟩ := a.latched
  have hlb : s.cellLastCycle.lastBit = true := by
    simp only [State.lastBit, State.cellLastCycle_blk, beq_iff_eq]
    apply BitVec.eq_of_toNat_eq
    have : (0 : BitVec 3).toNat = 0 := rfl
    omega
  have hly : s.cellLastCycle.lastByte = true := by
    simp only [State.lastByte, State.cellLastCycle_blk, beq_iff_eq, hy, hlen]; omega
  have e : s.wholeCell = s.cellLastCycle.finishCycle := by
    rw [State.wholeCell, State.sequencerCycle, show s.cellLastCycle.blk.phase = .low from rfl]
    simp [cellLastCycle_reached (a.atCellStart h), hlb, hly]
  refine ⟨?_, ?_, ?_, a.outside.trans' (wholeCell_sameOutside s), a.latched.trans' (wholeCell_sameLatched s), ?_, ?_⟩
  · rw [e]; rfl
  · rw [a.cc_next, hk]
  · rw [e]
    show Lines.drive s.gpio s.blk.pinL false = _
    rw [a.gpio, hpin]
  · rw [a.wave_next h, hk]
  · rw [e]
    show s.obs.reads = _
    rw [a.reads, show k / 8 + 1 = t.blk.lenL.toNat by omega]

/-- Cell `k` of the frame begins in the state after `k` cells (R118). -/
theorem FrameStart.runCells {t : State} (h : FrameStart t) {k : Nat} (hk : k < 8 * t.blk.lenL.toNat) :
    AtCell t k (t.runCells k) := by
  induction k with
  | zero => exact h.atCell
  | succ k ih =>
    have a := ih (by omega)
    rw [runCells_add]
    show AtCell t (k + 1) (t.runCells k).wholeCell
    by_cases hb : k % 8 = 7
    · exact a.next_byte h hb (by omega)
    · exact a.next_bit h hb

/-- The frame ends after `8 * N` cells (R75, R118). -/
theorem FrameStart.frameEnd {t : State} (h : FrameStart t) : FrameEnd t (t.runCells (8 * t.blk.lenL.toNat)) := by
  have hn := h.some_byte
  obtain ⟨k, hk⟩ : ∃ k, 8 * t.blk.lenL.toNat = k + 1 := ⟨8 * t.blk.lenL.toNat - 1, by omega⟩
  have a := h.runCells (k := k) (by omega)
  rw [hk, runCells_add]
  exact a.last h hk.symm

/-- `k` cells of the frame are `k * period` cycles of the sequencer. -/
theorem FrameStart.runCycles {t : State} (h : FrameStart t) {k : Nat} (hk : k ≤ 8 * t.blk.lenL.toNat) :
    t.runCycles (k * t.blk.period.toNat) = t.runCells k := by
  induction k with
  | zero => simp [State.runCycles, State.runCells]
  | succ k ih =>
    have a := h.runCells (k := k) (by omega)
    obtain ⟨-, -, -, -, -, -, hper, -⟩ := a.latched
    rw [Nat.succ_mul, runCycles_add, ih (by omega), runCells_add, ← hper, runCycles_cell (a.atCellStart h)]
    rfl

/-- R130: cycle `r` of cell `k` is busy, and the line is high exactly when `r < thr`. -/
theorem FrameStart.closedForm {t : State} (h : FrameStart t) {k r : Nat} (hk : k < 8 * t.blk.lenL.toNat)
    (hr : r < t.blk.period.toNat) :
    (t.runCycles (k * t.blk.period.toNat + r)).busy = true
      ∧ (t.runCycles (k * t.blk.period.toNat + r)).lineLevel
        = decide (r < (if frameBit t.mem t.blk.bufL k then t.blk.time1 else t.blk.time0).toNat) := by
  have a := h.runCells hk
  have hst := a.atCellStart h
  obtain ⟨hp, hs, hl, h1, h2⟩ := atCellStart_iff.1 hst
  obtain ⟨-, -, -, -, -, -, hper, -⟩ := a.latched
  rw [runCycles_add, h.runCycles (by omega), ← a.thr]
  generalize t.runCells k = s at *
  have hps := s.blk.period.isLt
  rw [← hper] at hr
  have he : s.elapsed.toNat = 0 := by simp [State.elapsed, hs]
  by_cases hlt : r < s.thr.toNat
  · rw [runCycles_high hp (by omega), decide_eq_true hlt]
    refine ⟨?_, hl⟩
    show s.busy = true
    simp [State.busy, hp, Phase.busy]
  · -- the state after the falling edge
    have hfall : s.runCycles s.thr.toNat = (s.holdFor (s.thr.toNat - 1)).fallCycle := by
      have hn : s.thr.toNat = (s.thr.toNat - 1) + 1 := by omega
      have e := holdFor_elapsed (s := s) (n := s.thr.toNat - 1) (by omega)
      have hr' : (s.holdFor (s.thr.toNat - 1)).reached = true := by
        rw [reached_high (s := s.holdFor (s.thr.toNat - 1)) hp, e]
        exact decide_eq_true (by show s.thr.toNat ≤ _; omega)
      conv_lhs => rw [hn]
      rw [runCycles_add, runCycles_high hp (by omega)]
      simp only [State.runCycles, State.sequencerCycle, show (s.holdFor (s.thr.toNat - 1)).blk.phase = .high from hp,
        hr', if_true]
    have hn : r = s.thr.toNat + (r - s.thr.toNat) := by omega
    rw [hn, runCycles_add, hfall]
    generalize hf : (s.holdFor (s.thr.toNat - 1)).fallCycle = f
    have hfp : f.blk.phase = .low := by rw [← hf]; rfl
    have hfl : f.lineLevel = false := by rw [← hf]; exact level_drive_self _ _ _
    have hfper : f.blk.period = s.blk.period := by rw [← hf]; rfl
    have hfe : f.elapsed.toNat = s.thr.toNat := by
      have : f.elapsed = BitVec.ofNat 32 s.thr.toNat := by
        rw [← hf]
        show s.cc + BitVec.ofNat 32 (s.thr.toNat - 1) + 1 - s.blk.startTime = _
        rw [hs, BitVec.add_assoc, BitVec.add_comm, BitVec.add_sub_cancel,
          show (1 : U32) = BitVec.ofNat 32 1 from rfl, ← BitVec.ofNat_add, Nat.sub_add_cancel h1]
      rw [this, BitVec.toNat_ofNat]; omega
    rw [runCycles_low hfp (by rw [hfe, hfper]; omega)]
    refine ⟨?_, ?_⟩
    · show f.busy = true
      simp [State.busy, hfp, Phase.busy]
    · show f.lineLevel = _
      rw [hfl]; exact (decide_eq_false (by omega)).symm

/-- The bits of the first `n` bytes of a buffer, in the order they are sent, are the bits of the first `8 * n` cells. -/
theorem sentBits_bytes (m : Memory) (base : U32) (n : Nat) :
    (m.bytes base n).flatMap sentBits = (List.range (8 * n)).map (frameBit m base) := by
  induction n with
  | zero => rfl
  | succ n ih =>
    have hb : m.bytes base (n + 1) = m.bytes base n ++ [m.read (byteAddr base n)] := by
      simp [Memory.bytes, List.range_succ]
    have hr : List.range (8 * (n + 1)) = List.range (8 * n) ++ (List.range 8).map (8 * n + ·) := by
      rw [show 8 * (n + 1) = 8 * n + 8 by ring, List.range_add]
    have hd : ∀ j < 8, (8 * n + j) / 8 = n ∧ (8 * n + j) % 8 = j := by intro j hj; omega
    rw [hb, List.flatMap_append, ih, hr, List.map_append, List.map_map]
    congr 1
    have h8 : List.range 8 = [0, 1, 2, 3, 4, 5, 6, 7] := rfl
    simp [h8, sentBits, frameBit, (hd 1 (by omega)).1, (hd 1 (by omega)).2, (hd 2 (by omega)).1,
      (hd 2 (by omega)).2, (hd 3 (by omega)).1, (hd 3 (by omega)).2, (hd 4 (by omega)).1, (hd 4 (by omega)).2,
      (hd 5 (by omega)).1, (hd 5 (by omega)).2, (hd 6 (by omega)).1, (hd 6 (by omega)).2, (hd 7 (by omega)).1,
      (hd 7 (by omega)).2]

/-- The cells of a whole frame are the waveform of its bytes (R75, R131). -/
theorem cellsWave_frame (t : State) (n : Nat) :
    cellsWave t (8 * n)
      = frameWave t.blk.time0.toNat t.blk.time1.toNat t.blk.period.toNat (t.mem.bytes t.blk.bufL n) := by
  rw [frameWave, sentBits_bytes, cellsWave, List.flatMap_map]

end Sys2Proof.Machine
end

