-- ==== Sys2Proof/Laws/Start.lean ====
section
/-! SUPPORT. START: when it is accepted (R117, R191) and what it leaves (R112, R116); the latched timing (R95, R96). -/

namespace Sys2Proof.Machine

theorem busy_iff {s : State} : s.busy = true ↔ s.blk.phase ≠ .idle := by
  unfold State.busy; cases s.blk.phase <;> simp [Phase.busy]

theorem busy_false_iff {s : State} : s.busy = false ↔ s.blk.phase = .idle := by
  unfold State.busy; cases s.blk.phase <;> simp [Phase.busy]

/-- R117 and R191: no reason to refuse is the same as a legal START. -/
theorem startRefusal_none {s : State} {pin : Pin} {r : Bool} :
    s.startRefusal pin r = none ↔ s.StartLegal pin r := by
  unfold State.startRefusal State.StartLegal
  rw [← busy_false_iff]
  constructor
  · intro h
    repeat' split at h
    all_goals simp_all
  · rintro ⟨h1, h2, h3, h4, h5, h6⟩
    simp [h1, h3, h4, h5, h6]; omega

/-- An accepted START is `startEffect` at the end of the cycle. -/
theorem start_legal {s : State} {pin : Pin} {r : Bool} (h : s.StartLegal pin r) :
    s.start pin r = .next (s.endCycle (s.startEffect pin r)) := by
  simp [State.start, startRefusal_none.2 h]

/-- What START can do: a refusal for a reason, or the effect of a legal START. -/
theorem start_next {s t : State} {pin : Pin} {r : Bool} (h : s.start pin r = .next t) :
    s.StartLegal pin r ∧ t = s.endCycle (s.startEffect pin r) := by
  unfold State.start at h
  cases hr : s.startRefusal pin r with
  | none => rw [hr] at h; exact ⟨startRefusal_none.1 hr, by simpa using h.symm⟩
  | some e => rw [hr] at h; cases h

theorem legal_iff {n : Nominal} {c : Nat} :
    n.legal c = true ↔ c < n.t0H ∧ 1 ≤ n.time0 c ∧ n.time0 c < n.time1 c ∧ n.time1 c < n.period
      ∧ n.period < 4294967296 := by
  simp [Nominal.legal, and_assoc]

/-- The latched values are those of rule R95, unclipped, when the timing is legal. -/
theorem newTimes {s : State} {r : Bool} (h : s.timingLegal r = true) :
    (s.newTime0 r).toNat = (s.nominal r).time0 s.params.comp
      ∧ (s.newTime1 r).toNat = (s.nominal r).time1 s.params.comp
      ∧ (s.newPeriod r).toNat = (s.nominal r).period := by
  obtain ⟨-, h0, h01, h1, hp⟩ := legal_iff.1 h
  simp only [State.newTime0, State.newTime1, State.newPeriod, BitVec.toNat_ofNat]
  omega

/-- `1 <= time0 < time1 < period` (R26, R96). -/
theorem newTimes_ordered {s : State} {r : Bool} (h : s.timingLegal r = true) :
    1 ≤ (s.newTime0 r).toNat ∧ (s.newTime0 r).toNat < (s.newTime1 r).toNat
      ∧ (s.newTime1 r).toNat < (s.newPeriod r).toNat := by
  obtain ⟨e0, e1, ep⟩ := newTimes h
  obtain ⟨-, h0, h01, h1, -⟩ := legal_iff.1 h
  omega

theorem toNat_pos {n : Nat} {x : BitVec n} (h : x ≠ 0) : 0 < x.toNat :=
  Nat.pos_of_ne_zero fun e => h (BitVec.eq_of_toNat_eq (by simpa using e))

/-- A START in an idle block does not record. -/
theorem recorded_idle {s : State} (h : s.blk.phase = .idle) (w : List Segment) : s.recorded w = w := by
  simp [State.recorded, busy_false_iff.2 h]

/-- An accepted START with at least one byte begins a frame (R112). -/
theorem frameStart_of_start {s : State} {pin : Pin} {r : Bool} (h : s.StartLegal pin r) (hl : s.blk.len ≠ 0) :
    FrameStart (s.endCycle (s.startEffect pin r)) := by
  obtain ⟨hi, -, ht, -⟩ := h
  obtain ⟨h0, h01, h1⟩ := newTimes_ordered ht
  have e : s.startEffect pin r = (s.latch pin r).firstCell := if_neg hl
  rw [e]
  exact
    { phase := rfl, startTime := rfl, line := level_drive_self _ _ _, byteIdx := rfl, bitIdx := rfl, pix := rfl,
      some_byte := toNat_pos hl, time0 := h0, time01 := h01, time1 := h1, wave := recorded_idle hi _, reads := rfl }

/-- An accepted START without a byte latches the operands, and the block stays idle (R116). -/
theorem start_empty {s : State} {pin : Pin} {r : Bool} (h : s.StartLegal pin r) (hl : s.blk.len = 0) :
    s.start pin r = .next { s.latch pin r with cc := s.cc + 1 } := by
  rw [start_legal h, State.startEffect, if_pos hl]
  simp only [State.endCycle, recorded_idle h.1, State.latch]

end Sys2Proof.Machine
end

