-- ==== Sys2Proof/Laws/Invariant.lean ====
section
/-! SUPPORT. The invariant of rule R40: each of the machine's own operations keeps it, and from it every transmission
ends within `8 * lenL * period` cycles (R118). -/

namespace Sys2Proof.Machine

/-- An idle cycle counts, and does nothing else (R120). -/
theorem sequencerCycle_idle {s : State} (h : s.blk.phase = .idle) : s.sequencerCycle = { s with cc := s.cc + 1 } := by
  simp only [State.sequencerCycle, h, State.holdCycle, State.endCycle, recorded_idle h]

theorem drive_zero_false (p : Pin) : Lines.drive 0 p false = 0 := by simp [Lines.drive]

theorem drive_true_false (g : Lines) (p : Pin) (h : g = Lines.drive 0 p true) : Lines.drive g p false = 0 := by
  subst h
  simp only [Lines.drive, if_true, Bool.false_eq_true, if_false]
  ext i hi; simp

theorem elapsed_succ {s : State} (h : s.elapsed.toNat + 1 < 4294967296) :
    (s.cc + 1 - s.blk.startTime).toNat = s.elapsed.toNat + 1 := by
  have e : s.cc + 1 - s.blk.startTime = s.elapsed + 1 := by simp only [State.elapsed]; ring
  have h1 : (1 : U32).toNat = 1 := rfl
  rw [e, BitVec.toNat_add, h1]; omega

/-- The threshold lies between 1 and `period` (R26, R96). -/
theorem TransmissionInv_thr {s : State} (h : s.TransmissionInv) :
    1 ≤ s.thr.toNat ∧ s.thr.toNat < s.blk.period.toNat := by
  obtain ⟨-, -, -, -, h0, h01, h1⟩ := h
  unfold State.thr; split <;> omega

theorem PhaseInv_idle {s : State} (h : s.blk.phase = .idle) : s.PhaseInv ↔ s.gpio = 0 := by simp [State.PhaseInv, h]

theorem PhaseInv_high {s : State} (h : s.blk.phase = .high) :
    s.PhaseInv ↔ s.TransmissionInv ∧ s.gpio = Lines.drive 0 s.blk.pinL true ∧ s.elapsed.toNat < s.thr.toNat := by
  simp [State.PhaseInv, h]

theorem PhaseInv_low {s : State} (h : s.blk.phase = .low) :
    s.PhaseInv ↔ s.TransmissionInv ∧ s.gpio = 0 ∧ s.thr.toNat ≤ s.elapsed.toNat
      ∧ s.elapsed.toNat < s.blk.period.toNat := by
  simp [State.PhaseInv, h]

/-- While busy, clause (b) of rule R40 holds. -/
theorem phaseInv_transmission {s : State} (h : s.PhaseInv) (hb : s.blk.phase ≠ .idle) : s.TransmissionInv := by
  cases hp : s.blk.phase with
  | idle => exact absurd hp hb
  | high => exact ((PhaseInv_high hp).1 h).1
  | low => exact ((PhaseInv_low hp).1 h).1

theorem phaseInv_byteInRange {s : State} (h : s.PhaseInv) : s.ByteInRange :=
  fun hb => (phaseInv_transmission h hb).1

/-- The cycle count in a cell, from the invariant. -/
theorem phaseInv_elapsed_lt {s : State} (h : s.PhaseInv) (hb : s.blk.phase ≠ .idle) :
    s.elapsed.toNat < s.blk.period.toNat := by
  cases hp : s.blk.phase with
  | idle => exact absurd hp hb
  | high =>
    obtain ⟨ht, -, he⟩ := (PhaseInv_high hp).1 h
    have := TransmissionInv_thr ht; omega
  | low => exact ((PhaseInv_low hp).1 h).2.2.2

/-- What one busy cycle of the sequencer does to a state that meets the invariant, by micro-operation. -/
theorem sequencerCycle_cases {s : State} (h : s.PhaseInv) (hb : s.blk.phase ≠ .idle) :
    (s.sequencerCycle = s.holdCycle ∧ s.blk.phase = .high ∧ s.elapsed.toNat + 1 < s.thr.toNat)
    ∨ (s.sequencerCycle = s.fallCycle ∧ s.blk.phase = .high ∧ s.elapsed.toNat + 1 = s.thr.toNat)
    ∨ (s.sequencerCycle = s.holdCycle ∧ s.blk.phase = .low ∧ s.elapsed.toNat + 1 < s.blk.period.toNat)
    ∨ (s.sequencerCycle = s.nextBitCycle ∧ s.blk.phase = .low ∧ s.elapsed.toNat + 1 = s.blk.period.toNat
        ∧ 0 < s.blk.bitIdx.toNat)
    ∨ (s.sequencerCycle = s.nextByteCycle ∧ s.blk.phase = .low ∧ s.elapsed.toNat + 1 = s.blk.period.toNat
        ∧ s.blk.bitIdx.toNat = 0 ∧ s.blk.byteIdx.toNat + 1 < s.blk.lenL.toNat)
    ∨ (s.sequencerCycle = s.finishCycle ∧ s.blk.phase = .low ∧ s.elapsed.toNat + 1 = s.blk.period.toNat
        ∧ s.blk.bitIdx.toNat = 0 ∧ s.blk.byteIdx.toNat + 1 = s.blk.lenL.toNat) := by
  cases hp : s.blk.phase with
  | idle => exact absurd hp hb
  | high =>
    obtain ⟨ht, -, he⟩ := (PhaseInv_high hp).1 h
    by_cases hr : s.thr.toNat ≤ s.elapsed.toNat + 1
    · refine Or.inr (Or.inl ⟨?_, rfl, by omega⟩)
      simp [State.sequencerCycle, hp, reached_high hp, hr]
    · refine Or.inl ⟨?_, rfl, by omega⟩
      simp [State.sequencerCycle, hp, reached_high hp, hr]
  | low =>
    obtain ⟨ht, -, -, he⟩ := (PhaseInv_low hp).1 h
    by_cases hr : s.blk.period.toNat ≤ s.elapsed.toNat + 1
    · by_cases hz : s.blk.bitIdx.toNat = 0
      · have hz' : s.blk.bitIdx = 0 := BitVec.eq_of_toNat_eq hz
        by_cases hy : s.blk.byteIdx.toNat + 1 = s.blk.lenL.toNat
        · refine Or.inr (Or.inr (Or.inr (Or.inr (Or.inr ⟨?_, rfl, by omega, hz, hy⟩))))
          simp [State.sequencerCycle, hp, reached_low hp, hr, State.lastBit, hz', State.lastByte, hy]
        · have hlt := ht.1
          refine Or.inr (Or.inr (Or.inr (Or.inr (Or.inl ⟨?_, rfl, by omega, hz, by omega⟩))))
          simp [State.sequencerCycle, hp, reached_low hp, hr, State.lastBit, hz', State.lastByte, hy]
      · have hz' : s.blk.bitIdx ≠ 0 := fun e => hz (by rw [e]; rfl)
        refine Or.inr (Or.inr (Or.inr (Or.inl ⟨?_, rfl, by omega, by omega⟩)))
        have hl : s.lastBit = false := by simpa [State.lastBit] using hz'
        simp [State.sequencerCycle, hp, reached_low hp, hr, hl]
    · refine Or.inr (Or.inr (Or.inl ⟨?_, rfl, by omega⟩))
      simp [State.sequencerCycle, hp, reached_low hp, hr]

/-- RISE at the end of a cell begins a cell (R122): the invariant's HIGH clause. -/
theorem rise_phaseInv {a b : State} (hT : b.TransmissionInv) (hcc : b.cc = a.cc) (hg : b.gpio = 0) :
    (a.endCycle b.rise).PhaseInv := by
  have hthr := (TransmissionInv_thr hT).1
  rw [PhaseInv_high rfl]
  refine ⟨hT, ?_, ?_⟩
  · show Lines.drive b.gpio b.blk.pinL true = _
    rw [hg]; rfl
  · have : (a.endCycle b.rise).elapsed = 0 := by
      show a.cc + 1 - (b.cc + 1) = 0
      rw [hcc, BitVec.sub_self]; rfl
    rw [this]; exact hthr

/-- A cycle of the sequencer keeps rule R40. -/
theorem sequencerCycle_phaseInv {s : State} (h : s.PhaseInv) : s.sequencerCycle.PhaseInv := by
  by_cases hi : s.blk.phase = .idle
  · rw [sequencerCycle_idle hi, PhaseInv_idle (by exact hi)]
    exact (PhaseInv_idle hi).1 h
  have hT := phaseInv_transmission h hi
  have hper := s.blk.period.isLt
  have hthr := TransmissionInv_thr hT
  rcases sequencerCycle_cases h hi with ⟨e, hp, he⟩ | ⟨e, hp, he⟩ | ⟨e, hp, he⟩ | ⟨e, hp, he, hz⟩ | ⟨e, hp, he, hz, hy⟩
    | ⟨e, hp, -⟩
  · rw [e, PhaseInv_high (by exact hp)]
    obtain ⟨-, hg, -⟩ := (PhaseInv_high hp).1 h
    refine ⟨hT, hg, ?_⟩
    show (s.cc + 1 - s.blk.startTime).toNat < s.thr.toNat
    rw [elapsed_succ (by omega)]; exact he
  · rw [e, PhaseInv_low (by rfl)]
    obtain ⟨-, hg, -⟩ := (PhaseInv_high hp).1 h
    have hes := elapsed_succ (s := s) (by omega)
    refine ⟨hT, drive_true_false _ _ hg, ?_, ?_⟩
    · show s.thr.toNat ≤ (s.cc + 1 - s.blk.startTime).toNat
      omega
    · show (s.cc + 1 - s.blk.startTime).toNat < s.blk.period.toNat
      omega
  · rw [e, PhaseInv_low (by exact hp)]
    obtain ⟨-, hg, hlo, -⟩ := (PhaseInv_low hp).1 h
    have hes := elapsed_succ (s := s) (by omega)
    refine ⟨hT, hg, ?_, ?_⟩
    · show s.thr.toNat ≤ (s.cc + 1 - s.blk.startTime).toNat
      omega
    · show (s.cc + 1 - s.blk.startTime).toNat < s.blk.period.toNat
      omega
  · rw [e]
    exact rise_phaseInv (b := { s with blk.bitIdx := s.blk.bitIdx - 1 }) hT rfl ((PhaseInv_low hp).1 h).2.1
  · rw [e]
    obtain ⟨-, -, hf, hpin, h0, h01, h1⟩ := hT
    have h1' : (1 : U16).toNat = 1 := rfl
    have hlen := s.blk.lenL.isLt
    have hby : (s.blk.byteIdx + 1).toNat = s.blk.byteIdx.toNat + 1 := by rw [BitVec.toNat_add, h1']; omega
    refine rise_phaseInv (a := s) (b := { s with
      blk.pix := s.mem.read s.nextByteAddr
      blk.byteIdx := s.blk.byteIdx + 1
      blk.bitIdx := 7
      obs.reads := s.nextByteAddr :: s.obs.reads }) ⟨?_, ?_, hf, hpin, h0, h01, h1⟩ rfl ((PhaseInv_low hp).1 h).2.1
    · show (s.blk.byteIdx + 1).toNat < s.blk.lenL.toNat
      omega
    · show s.mem.read s.nextByteAddr = s.mem.read (byteAddr s.blk.bufL (s.blk.byteIdx + 1).toNat)
      rw [hby]; rfl
  · rw [e, PhaseInv_idle (by rfl)]
    exact ((PhaseInv_low hp).1 h).2.1

/-- A cycle of the sequencer begins no transmission. -/
theorem sequencerCycle_busy {s : State} (h : s.sequencerCycle.busy = true) : s.busy = true := by
  by_contra hb
  have hi := busy_false_iff.1 (Bool.not_eq_true _ ▸ hb)
  rw [sequencerCycle_idle hi] at h
  exact hb h

/-- What the driver may hold depends on the driver and on the buffer of the transmission in progress. -/
theorem callInv_of {s t : State} (h : s.CallInv) (hd : t.drv = s.drv) (hb : t.busy = true → s.busy = true)
    (h1 : t.blk.bufL = s.blk.bufL) (h2 : t.blk.lenL = s.blk.lenL) : t.CallInv := by
  have hs : s.ScratchHeld → t.ScratchHeld := by
    rintro ⟨a, b⟩
    refine ⟨by rw [hd]; exact a, ?_⟩
    simp only [State.mayHoldScratch, State.apartFromFlight, hd, h1, h2, Bool.and_eq_true, Bool.or_eq_true,
      Bool.not_eq_true'] at b ⊢
    refine ⟨b.1, ?_⟩
    rcases b.2 with b2 | b2
    · left; rw [← Bool.not_eq_true] at b2 ⊢; exact fun hh => b2 (hb hh)
    · exact .inr b2
  unfold State.CallInv at h ⊢
  rw [hd]
  cases hst : s.drv.stage <;> simp only [hst] at h ⊢ <;> first | exact h | skip
  · exact ⟨h.1, h.2.1, hs h.2.2⟩
  · exact ⟨h.1, hs h.2.1, h.2.2⟩

theorem sequencerCycle_callInv {s : State} (h : s.CallInv) : s.sequencerCycle.CallInv :=
  callInv_of h (by simp) sequencerCycle_busy (by simp) (by simp)

/-- A cycle of the sequencer keeps the invariant. -/
theorem sequencerCycle_inv {s : State} (h : s.Inv) : s.sequencerCycle.Inv :=
  ⟨by simpa using h.1, sequencerCycle_callInv h.2.1, sequencerCycle_phaseInv h.2.2⟩

theorem runCycles_phaseInv {s : State} (h : s.PhaseInv) (n : Nat) : (s.runCycles n).PhaseInv := by
  induction n generalizing s with
  | zero => exact h
  | succ n ih => exact ih (sequencerCycle_phaseInv h)

/-- A whole cell keeps rule R40. -/
theorem wholeCell_phaseInv {s : State} (h : s.PhaseInv) (hc : s.atCellStart = true) : s.wholeCell.PhaseInv := by
  rw [← runCycles_cell hc]; exact runCycles_phaseInv h _

/-- An accepted START keeps rule R40, and with a byte to send begins a transmission that meets it. -/
theorem start_phaseInv {s : State} {pin : Pin} {r : Bool} (h : s.PhaseInv) (hs : s.StartLegal pin r) :
    (s.endCycle (s.startEffect pin r)).PhaseInv := by
  have hg := (PhaseInv_idle hs.1).1 h
  obtain ⟨h0, h01, h1⟩ := newTimes_ordered hs.2.2.1
  by_cases hl : s.blk.len = 0
  · have e : s.startEffect pin r = s.latch pin r := if_pos hl
    rw [e, PhaseInv_idle (by exact hs.1)]; exact hg
  · have e : s.startEffect pin r = (s.latch pin r).firstCell := if_neg hl
    rw [e]
    refine rise_phaseInv (a := s) (b := { s.latch pin r with
      blk.pix := (s.latch pin r).mem.read (s.latch pin r).blk.bufL
      blk.byteIdx := 0
      blk.bitIdx := 7
      obs.reads := [(s.latch pin r).blk.bufL] }) ⟨toNat_pos hl, ?_, hs.2.2.2.1, hs.2.1, h0, h01, h1⟩ rfl hg
    show s.mem.read s.blk.buf = s.mem.read (byteAddr s.blk.buf 0)
    rw [byteAddr_zero]

/-- A change of memory keeps rule R40 while it leaves the buffer being transmitted alone (R60, R61). -/
theorem mem_phaseInv {s : State} {m : Memory} (h : s.PhaseInv)
    (hm : s.blk.phase ≠ .idle → ∀ a, inRange s.blk.bufL s.blk.lenL.toNat a = true → m.read a = s.mem.read a) :
    State.PhaseInv { s with mem := m } := by
  by_cases hi : s.blk.phase = .idle
  · rw [PhaseInv_idle (by exact hi)]; exact (PhaseInv_idle hi).1 h
  · obtain ⟨hb, hx, hf, hT⟩ := phaseInv_transmission h hi
    have hT' : State.TransmissionInv { s with mem := m } := by
      refine ⟨hb, ?_, hf, hT⟩
      show s.blk.pix = m.read (byteAddr s.blk.bufL s.blk.byteIdx.toNat)
      rw [hm hi, hx]
      rw [fitsSpace_iff] at hf
      rw [inRange_iff, byteAddr_toNat (by omega)]
      omega
    cases hp : s.blk.phase with
    | idle => exact absurd hp hi
    | high => rw [PhaseInv_high (by exact hp)]; exact ⟨hT', ((PhaseInv_high hp).1 h).2⟩
    | low => rw [PhaseInv_low (by exact hp)]; exact ⟨hT', ((PhaseInv_low hp).1 h).2⟩

/-! ### Every transmission ends (R118) -/

/-- A busy cycle leaves one cycle less. -/
theorem remaining_cycle {s : State} (h : s.PhaseInv) (hb : s.blk.phase ≠ .idle) :
    s.sequencerCycle.remaining + 1 = s.remaining := by
  have hT := phaseInv_transmission h hb
  have hthr := TransmissionInv_thr hT
  have hel := phaseInv_elapsed_lt h hb
  have hper := s.blk.period.isLt
  have hr : s.remaining = ((s.blk.lenL.toNat - 1 - s.blk.byteIdx.toNat) * 8 + s.blk.bitIdx.toNat) * s.blk.period.toNat
      + (s.blk.period.toNat - s.elapsed.toNat) := by rw [State.remaining, if_pos (busy_iff.2 hb)]
  have hold : ∀ u : State, u.busy = true → u.blk = { s.blk with phase := u.blk.phase } → u.cc = s.cc + 1 →
      s.elapsed.toNat + 1 < s.blk.period.toNat → u.remaining + 1 = s.remaining := by
    intro u hu hblk hcc hlt
    have he : u.elapsed.toNat = s.elapsed.toNat + 1 := by
      rw [State.elapsed, hcc, hblk]; exact elapsed_succ (by omega)
    rw [State.remaining, if_pos hu, he, hr, hblk]
    show _ + (s.blk.period.toNat - (s.elapsed.toNat + 1)) + 1 = _
    simp only; omega
  have hnew : ∀ u : State, u.busy = true → u.blk.startTime = u.cc → u.blk.lenL = s.blk.lenL →
      u.blk.period = s.blk.period →
      ((s.blk.lenL.toNat - 1 - u.blk.byteIdx.toNat) * 8 + u.blk.bitIdx.toNat + 1
        = (s.blk.lenL.toNat - 1 - s.blk.byteIdx.toNat) * 8 + s.blk.bitIdx.toNat) →
      s.elapsed.toNat + 1 = s.blk.period.toNat → u.remaining + 1 = s.remaining := by
    intro u hu hst hlen hp hpos he
    have he0 : u.elapsed.toNat = 0 := by simp [State.elapsed, hst]
    rw [State.remaining, if_pos hu, he0, hr, hlen, hp, ← hpos, Nat.succ_mul]
    omega
  rcases sequencerCycle_cases h hb with ⟨e, hp, he⟩ | ⟨e, hp, he⟩ | ⟨e, hp, he⟩ | ⟨e, hp, he, hz⟩
    | ⟨e, hp, he, hz, hy⟩ | ⟨e, hp, he, hz, hy⟩
  · rw [e]; exact hold _ (busy_iff.2 (by exact hb)) rfl rfl (by omega)
  · rw [e]; exact hold _ rfl rfl rfl (by omega)
  · rw [e]; exact hold _ (busy_iff.2 (by exact hb)) rfl rfl he
  · rw [e]
    refine hnew _ rfl rfl rfl rfl ?_ he
    have h1 : (1 : BitVec 3).toNat = 1 := rfl
    have hsub : (s.blk.bitIdx - 1).toNat + 1 = s.blk.bitIdx.toNat := by
      rw [BitVec.toNat_sub, h1]; have := s.blk.bitIdx.isLt; omega
    show _ * 8 + (s.blk.bitIdx - 1).toNat + 1 = _
    simp only [State.nextBitCycle, State.endCycle_blk, State.rise_blk]; omega
  · rw [e]
    refine hnew _ rfl rfl rfl rfl ?_ he
    have h1 : (1 : U16).toNat = 1 := rfl
    have h7 : (7 : BitVec 3).toNat = 7 := rfl
    have hlen := s.blk.lenL.isLt
    have hadd : (s.blk.byteIdx + 1).toNat = s.blk.byteIdx.toNat + 1 := by rw [BitVec.toNat_add, h1]; omega
    show (s.blk.lenL.toNat - 1 - (s.blk.byteIdx + 1).toNat) * 8 + (7 : BitVec 3).toNat + 1 = _
    omega
  · rw [e, hr]
    have : s.finishCycle.remaining = 0 := rfl
    have hz' : s.blk.lenL.toNat - 1 - s.blk.byteIdx.toNat = 0 := by omega
    rw [this, hz', hz]; omega

/-- What is left is at most the whole transmission (R118). -/
theorem remaining_le {s : State} (h : s.PhaseInv) : s.remaining ≤ 8 * s.blk.lenL.toNat * s.blk.period.toNat := by
  unfold State.remaining
  split
  · rename_i hb
    have hT := phaseInv_transmission h (busy_iff.1 hb)
    have hlt := hT.1
    have hbit := s.blk.bitIdx.isLt
    have hk : (s.blk.lenL.toNat - 1 - s.blk.byteIdx.toNat) * 8 + s.blk.bitIdx.toNat + 1 ≤ 8 * s.blk.lenL.toNat := by omega
    have := Nat.mul_le_mul_right s.blk.period.toNat hk
    rw [Nat.succ_mul] at this
    omega
  · exact Nat.zero_le _

/-- After the cycles left the block is idle, and not before. -/
theorem runCycles_remaining {s : State} (h : s.PhaseInv) {n : Nat} :
    (n < s.remaining → (s.runCycles n).busy = true) ∧ (s.runCycles s.remaining).blk.phase = .idle := by
  constructor
  · intro hn
    induction n generalizing s with
    | zero =>
      show s.busy = true
      by_contra hb
      rw [State.remaining, if_neg hb] at hn; omega
    | succ n ih =>
      have hb : s.blk.phase ≠ .idle := by
        rw [← busy_iff]; by_contra hb; rw [State.remaining, if_neg hb] at hn; omega
      have := remaining_cycle h hb
      exact ih (sequencerCycle_phaseInv h) (by omega)
  · generalize hk : s.remaining = k
    induction k generalizing s with
    | zero =>
      by_cases hi : s.blk.phase = .idle
      · exact hi
      · have := remaining_cycle h hi; omega
    | succ k ih =>
      have hb : s.blk.phase ≠ .idle := by
        rw [← busy_iff]; by_contra hb; rw [State.remaining, if_neg hb] at hk; omega
      have := remaining_cycle h hb
      exact ih (sequencerCycle_phaseInv h) (by omega)

theorem remaining_idle {s : State} (h : s.blk.phase = .idle) : s.remaining = 0 := by
  rw [State.remaining, busy_false_iff.2 h]; rfl

/-- A frame that begins has all its cycles left. -/
theorem FrameStart.remaining {t : State} (h : FrameStart t) : t.remaining = 8 * t.blk.lenL.toNat * t.blk.period.toNat := by
  have hb : t.busy = true := busy_iff.2 (by rw [h.phase]; decide)
  have he : t.elapsed.toNat = 0 := by simp [State.elapsed, h.startTime]
  have h7 : (7 : BitVec 3).toNat = 7 := rfl
  have h0 : (0 : U16).toNat = 0 := rfl
  have hn := h.some_byte
  rw [State.remaining, if_pos hb, he, h.byteIdx, h.bitIdx, h0, h7]
  have : 8 * t.blk.lenL.toNat = (t.blk.lenL.toNat - 1 - 0) * 8 + 7 + 1 := by omega
  rw [this]
  generalize (t.blk.lenL.toNat - 1 - 0) * 8 + 7 = k
  rw [Nat.add_mul, Nat.one_mul, Nat.sub_zero]

end Sys2Proof.Machine
end

