-- ==== Sys2Proof/Laws/PerInstr.lean ====
section
/-! SUPPORT. Per instruction: the word that `encode` writes is read back by the decoder with every operand (R71, R84,
R85). -/

namespace Sys2Proof.Laws.RoundTrip

/-- The decoder reads an instruction's own word back, operands and ignored bits included. -/
def Statement (i : Instr) : Prop := decode (encode i) = .ok i

theorem tx800 (pin : Pin) : Statement (.tx800 pin) := by
  revert pin; unfold Statement; decide +kernel

theorem tx400 (pin : Pin) : Statement (.tx400 pin) := by
  revert pin; unfold Statement; decide +kernel

theorem ctrlNop (ignored : BitVec 7) : Statement (.ctrlNop ignored) := by
  revert ignored; unfold Statement; decide +kernel

theorem sym0 : Statement .sym0 := rfl

theorem sym1 : Statement .sym1 := rfl

theorem idleHold (ignored : BitVec 3) : Statement (.idleHold ignored) := by
  revert ignored; unfold Statement; decide

theorem highHold (ignored : BitVec 2) : Statement (.highHold ignored) := by
  revert ignored; unfold Statement; decide

theorem fall (ignored : BitVec 2) : Statement (.fall ignored) := by
  revert ignored; unfold Statement; decide

theorem lowHold (ignored : BitVec 2) : Statement (.lowHold ignored) := by
  revert ignored; unfold Statement; decide

theorem nextBit (ignored : BitVec 1) : Statement (.nextBit ignored) := by
  revert ignored; unfold Statement; decide

theorem nextByte : Statement .nextByte := rfl

theorem finish : Statement .finish := rfl

theorem showFrame (ignored : BitVec 8) : Statement (.showFrame ignored) := by
  revert ignored; unfold Statement; decide +kernel

theorem setBrightness (n : U8) : Statement (.setBrightness n) := by
  revert n; unfold Statement; decide +kernel

end Sys2Proof.Laws.RoundTrip
end

