-- ==== Sys2Proof/Laws/Driver.lean ====
section
/-! SUPPORT. The driver: where a scratch buffer lies (R146), what copying and scaling make of memory (R147 to R149), what each
stage of a call does (R152), and one TX whole (R83). -/

namespace Sys2Proof.Machine

/-! ### The scratch buffer -/

theorem mayHoldScratch_iff {s : State} {a : U32} :
    s.mayHoldScratch a = true ↔ fitsSpace a s.drv.numBytes.toNat = true
      ∧ disjoint a s.drv.numBytes.toNat s.drv.callerBuf s.drv.numBytes.toNat = true
      ∧ s.apartFromFlight a s.drv.numBytes.toNat = true := by
  simp only [State.mayHoldScratch, Bool.and_eq_true, and_assoc]

theorem apartFromFlight_iff {s : State} {a : U32} {n : Nat} :
    s.apartFromFlight a n = true ↔ (s.blk.phase ≠ .idle → disjoint a n s.blk.bufL s.blk.lenL.toNat = true) := by
  rw [← busy_iff, State.apartFromFlight]
  cases s.busy <;> simp

/-- R146: wherever the allocator's answer lies, the scratch buffer lies where it may. -/
theorem placeScratch_mayHold (s : State) (a : U32) : s.mayHoldScratch (s.placeScratch a) = true := by
  have hn := s.drv.numBytes.isLt
  have hl := s.blk.lenL.isLt
  have e0 : (0x00000000 : U32).toNat = 0 := rfl
  have e1 : (0x00020000 : U32).toNat = 131072 := rfl
  have e2 : (0x00040000 : U32).toNat = 262144 := rfl
  unfold State.placeScratch
  split
  · assumption
  split
  · assumption
  split
  · assumption
  rename_i h0 h1
  simp only [mayHoldScratch_iff, apartFromFlight_iff, fitsSpace_iff, disjoint_iff] at h0 h1 ⊢
  by_cases hb : s.blk.phase = .idle
  · simp only [hb, ne_eq, not_true_eq_false, false_imp_iff, and_true] at h0 h1 ⊢; omega
  · simp only [hb, ne_eq, not_false_eq_true, true_imp_iff] at h0 h1 ⊢; omega

/-- An answer of the allocator that may hold the buffer is where it lies. -/
theorem placeScratch_self {s : State} {a : U32} (h : s.mayHoldScratch a = true) : s.placeScratch a = a := if_pos h

/-- The memory of the scaled path when it transmits. -/
def scaledMem (m : Memory) (b : U8) (pixels base : U32) (n : Nat) : Memory :=
  (m.transform id pixels base n).transform (fun x => scale x b) base base n

theorem scaledMem_other (m : Memory) (b : U8) (p : U32) {base : U32} {n : Nat} (hb : fitsSpace base n = true) {a : U32}
    (ha : inRange base n a = false) : (scaledMem m b p base n).read a = m.read a := by
  rw [scaledMem, Memory.transform_other _ _ hb _ ha, Memory.transform_other _ _ hb _ ha]

/-- The block is given exactly the scaled bytes (R149). -/
theorem scaledMem_bytes {m : Memory} (h : m.wf = true) (b : U8) {p base : U32} {n : Nat} (hp : fitsSpace p n = true)
    (hb : fitsSpace base n = true) (hd : disjoint base n p n = true) :
    (scaledMem m b p base n).bytes base n = (m.bytes p n).map fun x => scale x b := by
  simp only [Memory.bytes, List.map_map]
  apply List.map_congr_left
  intro i hi
  have hi' : i < n := List.mem_range.1 hi
  simp only [Function.comp, scaledMem]
  rw [Memory.transform_inPlace _ hb (Memory.transform_wf _ _ _ _ h) hi', Memory.transform_disjoint _ hp hb hd h hi']
  rfl

/-- The caller's bytes are outside the scratch buffer. -/
theorem inRange_caller {p base : U32} {n i : Nat} (hp : fitsSpace p n = true) (hd : disjoint base n p n = true)
    (hi : i < n) : inRange base n (byteAddr p i) = false := by
  rw [fitsSpace_iff] at hp
  rw [disjoint_iff] at hd
  rw [← Bool.not_eq_true, inRange_iff, byteAddr_toNat (by omega)]
  omega

/-- A change of memory inside the scratch buffer leaves the caller's bytes. -/
theorem bytes_caller {m m' : Memory} {p base : U32} {n : Nat} (hp : fitsSpace p n = true) (hd : disjoint base n p n = true)
    (hm : ∀ a, inRange base n a = false → m'.read a = m.read a) : m'.bytes p n = m.bytes p n := by
  simp only [Memory.bytes]
  apply List.map_congr_left
  intro i hi
  exact hm _ (inRange_caller hp hd (List.mem_range.1 hi))

/-- `countAlloc` changes only the allocator's side. -/
theorem countAlloc_eq (s : State) : s.countAlloc = { s with alloc := s.countAlloc.alloc } := by
  unfold State.countAlloc; split <;> rfl

/-! ### What each stage of a call does -/

/-- `t` is what the stage of the driver's call makes of `s`, beside the sequencer's cycle. -/
inductive DriverStep (s : State) : State → Prop where
  | rest (h : s.drv.stage = .idle) : DriverStep s s.sequencerCycle
  | allocate (h : s.drv.stage = .allocate) : DriverStep s s.allocateScratch.sequencerCycle
  | copy (h : s.drv.stage = .copy) (hc : s.copyRefusal = none) : DriverStep s s.copyAndSwap.sequencerCycle
  | scale (h : s.drv.stage = .scale) : DriverStep s s.scaleScratch.sequencerCycle
  | wait (h : s.drv.stage = .waitIdle ∨ s.drv.stage = .waitDone) : DriverStep s s.poll.sequencerCycle
  | writeBuf (h : s.drv.stage = .writeBuf) (hi : s.blk.phase = .idle) :
      DriverStep s ((s.enter .writeLen).setBuf s.drv.activeBuf).sequencerCycle
  | writeLen (h : s.drv.stage = .writeLen) (hi : s.blk.phase = .idle) :
      DriverStep s ((s.enter .writeCtrl).setLen (s.drv.numBytes.zeroExtend 32)).sequencerCycle
  | writeCtrl (h : s.drv.stage = .writeCtrl) (hs : (s.enter .waitDone).StartLegal s.drv.pin s.drv.is800) :
      DriverStep s ((s.enter .waitDone).endCycle ((s.enter .waitDone).startEffect s.drv.pin s.drv.is800))
  | swapBack (h : s.drv.stage = .swapBack) : DriverStep s s.swapBack.sequencerCycle
  | free (h : s.drv.stage = .free) : DriverStep s s.freeScratch.sequencerCycle

/-- The word the driver writes to `BTG_CTRL` is that of the START it means (R83). -/
theorem decode_startWord (pin : Pin) (r : Bool) :
    decode (.ctrl (startWord pin r)) = .ok (if r then .tx800 pin else .tx400 pin) := by
  cases r
  · exact Laws.RoundTrip.tx400 pin
  · exact Laws.RoundTrip.tx800 pin

/-- Everything the driver's stage can do in a cycle. -/
theorem fetchDriver_next {s t : State} (h : s.fetchDriver.outcome = .next t) : DriverStep s t := by
  unfold State.fetchDriver at h
  cases hst : s.drv.stage <;> simp only [hst] at h
  case idle => rw [fetchMicro_next h]; exact .rest hst
  case allocate => rw [fetchMicro_next h]; exact .allocate hst
  case copy =>
    cases hc : s.copyRefusal with
    | some r => rw [hc] at h; cases h
    | none => rw [hc] at h; rw [fetchMicro_next h]; exact .copy hst hc
  case scale => rw [fetchMicro_next h]; exact .scale hst
  case waitIdle => rw [fetchMicro_next h]; exact .wait (.inl hst)
  case writeBuf =>
    simp only [State.fetchWrite] at h
    split at h
    · cases h
    · rename_i hb
      rw [fetchMicro_next h]; exact .writeBuf hst (busy_false_iff.1 (Bool.not_eq_true _ ▸ hb))
  case writeLen =>
    simp only [State.fetchWrite] at h
    split at h
    · cases h
    · rename_i hb
      rw [fetchMicro_next h]; exact .writeLen hst (busy_false_iff.1 (Bool.not_eq_true _ ▸ hb))
  case writeCtrl =>
    simp only [State.fetchWrite, decode_startWord] at h
    have h' : (s.enter .waitDone).start s.drv.pin s.drv.is800 = .next t := by
      rw [← h]; cases s.drv.is800 <;> rfl
    obtain ⟨hl, rfl⟩ := start_next h'
    exact .writeCtrl hst hl
  case waitDone => rw [fetchMicro_next h]; exact .wait (.inr hst)
  case swapBack => rw [fetchMicro_next h]; exact .swapBack hst
  case free => rw [fetchMicro_next h]; exact .free hst

/-- What a stage does, it does in every state whose byte index is in range. -/
theorem DriverStep.runs {s t : State} (h : DriverStep s t) (hb : s.ByteInRange) : s.fetchDriver.outcome = .next t := by
  have other : ∀ u : State, u.blk = s.blk → u.fetchMicro.outcome = .next u.sequencerCycle := fun u hu =>
    fetchMicro_outcome (by unfold State.ByteInRange; rw [hu]; exact hb)
  have idle : ∀ u : State, u.blk.phase = .idle → u.fetchMicro.outcome = .next u.sequencerCycle := fun u hu =>
    fetchMicro_outcome fun hn => absurd hu hn
  cases h with
  | rest h => simp only [State.fetchDriver, h]; exact other _ rfl
  | allocate h => simp only [State.fetchDriver, h]; exact other _ (by simp)
  | copy h hc => simp only [State.fetchDriver, h, hc]; exact other _ rfl
  | scale h => simp only [State.fetchDriver, h]; exact other _ (by simp)
  | wait h => rcases h with h | h <;> (simp only [State.fetchDriver, h]; exact other _ rfl)
  | writeBuf h hi =>
    simp only [State.fetchDriver, h, State.fetchWrite, show (s.enter .writeLen).busy = false from busy_false_iff.2 hi,
      Bool.false_eq_true, if_false]
    exact idle _ hi
  | writeLen h hi =>
    simp only [State.fetchDriver, h, State.fetchWrite, show (s.enter .writeCtrl).busy = false from busy_false_iff.2 hi,
      Bool.false_eq_true, if_false]
    exact idle _ hi
  | writeCtrl h hs =>
    have := start_legal hs
    simp only [State.fetchDriver, h, State.fetchWrite, decode_startWord]
    rw [← this]; cases s.drv.is800 <;> rfl
  | swapBack h => simp only [State.fetchDriver, h]; exact other _ rfl
  | free h => simp only [State.fetchDriver, h]; exact other _ rfl

/-! ### Runs -/

theorem run_succ {n : Nat} {s t : State} (h : step s = .next t) :
    Host.Core.run Sys2Proof.core (n + 1) s = Host.Core.run Sys2Proof.core n t := by
  simp only [Host.Core.run, Sys2Proof.core]; rw [h]

theorem run_add {m n : Nat} {s t : State} (h : Host.Core.run Sys2Proof.core m s = .next t) :
    Host.Core.run Sys2Proof.core (m + n) s = Host.Core.run Sys2Proof.core n t := by
  induction m generalizing s with
  | zero => cases h; rw [Nat.zero_add]
  | succ m ih =>
    rw [Nat.succ_add]
    cases hs : step s with
    | next u => rw [run_succ hs] at h ⊢; exact ih h
    | fault r => cases r
    | refused r => simp only [Host.Core.run, Sys2Proof.core] at h; rw [hs] at h; cases h

/-- With nothing arriving a step is the driver's stage. -/
theorem step_driver {s : State} (hs : s.stimuli = []) : step s = s.fetchDriver.outcome := by
  rw [step_eq, State.fetch, hs]

theorem DriverStep.step {s t : State} (h : DriverStep s t) (hs : s.stimuli = []) (hb : s.ByteInRange) :
    step s = .next t := by rw [step_driver hs]; exact h.runs hb

/-- A wait of the driver while the block is busy: one poll a cycle, beside the block's own cycles (R83). -/
theorem wait_polls {s : State} (hst : s.drv.stage = .waitIdle ∨ s.drv.stage = .waitDone) (hs : s.stimuli = [])
    (h : s.PhaseInv) {j : Nat} (hj : j ≤ s.remaining) :
    ∃ d, Host.Core.run Sys2Proof.core j s = .next { s.runCycles j with busData := d } := by
  induction j with
  | zero => exact ⟨s.busData, rfl⟩
  | succ j ih =>
    obtain ⟨d, hd⟩ := ih (by omega)
    have hb := (runCycles_remaining h).1 (show j < s.remaining by omega)
    obtain ⟨⟨-, -, -, o4, -, -, -, o8, -⟩, -⟩ := runCycles_same j s
    have hw := (DriverStep.wait (s := { s.runCycles j with busData := d }) (by
      show (s.runCycles j).drv.stage = _ ∨ (s.runCycles j).drv.stage = _
      rw [o4]; exact hst)).step (o8.trans hs) fun _ => phaseInv_byteInRange (runCycles_phaseInv h j) (busy_iff.1 hb)
    have hb' : State.busy { s.runCycles j with busData := d } = true := hb
    have hpoll : State.poll { s.runCycles j with busData := d } = { s.runCycles j with
        drv := (s.runCycles j).sequencerCycle.drv, busData := State.statusWord { s.runCycles j with busData := d } } := by
      simp only [State.poll, hb', if_true, State.sequencerCycle_drv]
    refine ⟨State.statusWord { s.runCycles j with busData := d }, ?_⟩
    rw [run_add hd, run_succ hw, hpoll, sequencerCycle_host, runCycles_add]
    rfl

/-- The state after a wait of the driver: the block's cycles until it is idle, the cycle of the poll that found it so, which
gave back `d`, and the next stage. -/
def State.waitOver (s : State) (d : U32) : State :=
  { s.runCycles s.remaining with
    cc := (s.runCycles s.remaining).cc + 1, busData := d, drv := { s.drv with stage := s.drv.afterWait } }

/-- A wait of the driver: one poll a cycle until the block is idle, and then the next stage (R83). -/
theorem wait_run {s : State} (hst : s.drv.stage = .waitIdle ∨ s.drv.stage = .waitDone) (hs : s.stimuli = [])
    (h : s.PhaseInv) : ∃ d, Host.Core.run Sys2Proof.core (s.remaining + 1) s = .next (s.waitOver d) := by
  obtain ⟨d, hd⟩ := wait_polls hst hs h (Nat.le_refl _)
  have hi := (runCycles_remaining h (n := 0)).2
  obtain ⟨⟨-, -, -, o4, -, -, -, o8, -⟩, -⟩ := runCycles_same s.remaining s
  have hw := (DriverStep.wait (s := { s.runCycles s.remaining with busData := d }) (by
    show (s.runCycles s.remaining).drv.stage = _ ∨ (s.runCycles s.remaining).drv.stage = _
    rw [o4]; exact hst)).step (o8.trans hs) fun hb => absurd hi hb
  have hb : State.busy { s.runCycles s.remaining with busData := d } = false := busy_false_iff.2 hi
  refine ⟨State.statusWord { s.runCycles s.remaining with busData := d }, ?_⟩
  rw [run_add hd, run_succ hw, sequencerCycle_idle (by exact hi)]
  show Host.Outcome.next _ = _
  simp only [State.poll, hb, Bool.false_eq_true, if_false]
  rw [o4]
  rfl

/-! ### One TX -/

/-- The state in which the TX of rule R83 writes `BTG_CTRL`: `BUF` and `LEN` hold the operands, two cycles later. -/
def State.txReady (s : State) : State :=
  { s with
    blk.buf := s.drv.activeBuf, blk.len := s.drv.numBytes, bufWritten := true, lenWritten := true, cc := s.cc + 1 + 1
    drv.stage := .writeCtrl }

/-- The two register writes of a TX (R83). -/
theorem txReady_run {s : State} (hst : s.drv.stage = .writeBuf) (hs : s.stimuli = []) (hi : s.blk.phase = .idle) :
    Host.Core.run Sys2Proof.core 2 s = .next s.txReady := by
  have hz : (s.drv.numBytes.zeroExtend 32).setWidth 16 = s.drv.numBytes := by
    apply BitVec.eq_of_toNat_eq
    have := s.drv.numBytes.isLt
    simp only [BitVec.truncate_eq_setWidth, BitVec.toNat_setWidth]; omega
  have b1 : s.ByteInRange := fun hn => absurd hi hn
  have e1 := (DriverStep.writeBuf hst hi).step hs b1
  rw [sequencerCycle_idle (by exact hi)] at e1
  rw [run_succ e1]
  have e2 := (DriverStep.writeLen (s := { (s.enter .writeLen).setBuf s.drv.activeBuf with
    cc := ((s.enter .writeLen).setBuf s.drv.activeBuf).cc + 1 }) rfl hi).step hs (fun hn => absurd hi hn)
  rw [sequencerCycle_idle (by exact hi)] at e2
  rw [run_succ e2]
  show Host.Outcome.next _ = _
  simp only [State.enter, State.setBuf, State.setLen, State.txReady, hz]

/-- An accepted START and the cycles to the end of its transmission, whole (R112, R116, R118, R125, R131). -/
theorem start_ends {v : State} {pin : Pin} {r : Bool} (hl : v.StartLegal pin r) (h : v.PhaseInv) {e w : State}
    (he : e = v.endCycle (v.startEffect pin r)) (hw : w = e.runCycles e.remaining) :
    Transmitted v w pin r v.blk.buf v.blk.len (v.mem.bytes v.blk.buf v.blk.len.toNat)
      ∧ w.mem = v.mem ∧ w.alloc = v.alloc := by
  have hp : e.PhaseInv := by rw [he]; exact start_phaseInv h hl
  have hg : w.gpio = 0 := by
    rw [hw]; exact (PhaseInv_idle (runCycles_remaining hp (n := 0)).2).1 (runCycles_phaseInv hp _)
  have lines : ∀ p : Pin, Lines.level w.gpio p = false := by
    intro p; rw [hg]; simp [Lines.level]
  by_cases hlen : v.blk.len = 0
  · -- no byte: only the latched registers
    have e0 : v.startEffect pin r = v.latch pin r := if_pos hlen
    have hei : e.blk.phase = .idle := by rw [he, e0]; exact hl.1
    rw [remaining_idle hei] at hw
    have hwe : w = v.endCycle (v.latch pin r) := by rw [hw, ← e0, ← he]; rfl
    have hz : v.blk.len.toNat = 0 := by rw [hlen]; rfl
    have hwave : w.obs.wave = [] := by rw [hwe]; exact recorded_idle hl.1 _
    rw [hz]
    refine ⟨⟨⟨hw ▸ hei, ?_, ?_⟩, ⟨?_, ?_, ?_, ?_⟩, ⟨?_, ?_, ?_⟩, congrArg List.reverse hwave, ?_, lines, ?_, ?_, ?_⟩, ?_, ?_⟩
    case refine_10 => rw [hz, hwe]; rfl
    all_goals (rw [hwe]; rfl)
  · have hf := frameStart_of_start hl hlen
    have hE := hf.frameEnd
    rw [← he] at hf hE
    rw [← hf.runCycles (Nat.le_refl _), ← hf.remaining, ← hw] at hE
    have e0 : v.startEffect pin r = (v.latch pin r).firstCell := if_neg hlen
    obtain ⟨hph, -, -, ⟨o1, o2, -, -, o5, -, -, o8, o9⟩, ⟨l1, l2, l3, l4, l5, l6, l7, l8, l9⟩, hwv, hr⟩ := hE
    have r1 := congrArg List.reverse hwv
    have r2 := congrArg List.reverse hr
    rw [List.reverse_reverse, cellsWave_frame] at r1
    rw [List.reverse_reverse] at r2
    rw [he, e0] at o1 o2 o5 o8 o9 l1 l2 l3 l4 l5 l6 l7 l8 l9 r1 r2
    exact ⟨⟨⟨hph, l8, l9⟩, ⟨l1, l4, l2, l3⟩, ⟨l5, l6, l7⟩, r1, r2, lines, ⟨o2, o5, o8⟩⟩, o1, o9⟩

/-- R83, R111: one TX from its first register write on, whole: the two writes, the START, and the wait for its end. -/
theorem tx_run {s : State} (hst : s.drv.stage = .writeBuf) (hs : s.stimuli = []) (hi : s.blk.phase = .idle)
    (hg : s.gpio = 0) (hx : s.TxLegal s.drv.pin s.drv.is800 s.drv.activeBuf s.drv.numBytes) :
    ∃ k u, Host.Core.run Sys2Proof.core k s = .next u
      ∧ Transmitted s u s.drv.pin s.drv.is800 s.drv.activeBuf s.drv.numBytes
          (s.mem.bytes s.drv.activeBuf s.drv.numBytes.toNat)
      ∧ u.drv = { s.drv with stage := if s.drv.saved.isSome then .swapBack else .idle }
      ∧ u.mem = s.mem ∧ u.alloc = s.alloc := by
  have hl : (s.txReady.enter .waitDone).StartLegal s.drv.pin s.drv.is800 := ⟨hi, hx.1, hx.2.1, hx.2.2, rfl, rfl⟩
  have hr0 : (s.txReady.enter .waitDone).PhaseInv := (PhaseInv_idle (by exact hi)).2 hg
  have e3 := (DriverStep.writeCtrl (s := s.txReady) rfl hl).step hs (fun hn => absurd hi hn)
  have hpin : s.txReady.drv.pin = s.drv.pin := rfl
  have hr8 : s.txReady.drv.is800 = s.drv.is800 := rfl
  rw [hpin, hr8] at e3
  generalize he : (s.txReady.enter .waitDone).endCycle
    ((s.txReady.enter .waitDone).startEffect s.drv.pin s.drv.is800) = e at e3
  have hp : e.PhaseInv := by rw [← he]; exact start_phaseInv hr0 hl
  have hdrv : e.drv = { s.drv with stage := .waitDone } := by rw [← he]; simp [State.txReady]
  obtain ⟨d, hd⟩ := wait_run (s := e) (by rw [hdrv]; exact .inr rfl) (by rw [← he]; simpa [State.txReady] using hs) hp
  obtain ⟨hT, hm, ha⟩ := start_ends hl hr0 he.symm rfl
  refine ⟨2 + (e.remaining + 1 + 1), e.waitOver d, ?_, hT, ?_, hm, ha⟩
  · rw [run_add (txReady_run hst hs hi), run_succ e3]; exact hd
  · show { e.drv with stage := e.drv.afterWait } = _
    rw [hdrv]; rfl

end Sys2Proof.Machine
end

