-- ==== Sys2Proof/Laws/Call.lean ====
section
/-! SUPPORT. A driver call: every stage keeps the invariant, what a call leaves alone (R153), and the scaled path up to its TX
(R144 to R149). -/

namespace Sys2Proof.Machine

/-! ### Every stage keeps the invariant -/

/-- Rule R40 speaks of the block, the counter, the lines, memory and the parameters only. -/
theorem phaseInv_of {s t : State} (h : s.PhaseInv) (h1 : t.blk = s.blk) (h2 : t.cc = s.cc) (h3 : t.gpio = s.gpio)
    (h4 : t.mem = s.mem) (h5 : t.params = s.params) : t.PhaseInv := by
  unfold State.PhaseInv State.TransmissionInv State.elapsed State.thr State.dataBit at h ⊢
  rw [h1, h2, h3, h4, h5]; exact h

/-- Where a scratch buffer may lie depends on the caller's buffer and on that of the transmission in progress. -/
theorem mayHoldScratch_congr {s t : State} {a : U32} (h1 : t.drv.numBytes = s.drv.numBytes)
    (h2 : t.drv.callerBuf = s.drv.callerBuf) (h3 : t.blk = s.blk) : t.mayHoldScratch a = s.mayHoldScratch a := by
  simp only [State.mayHoldScratch, State.apartFromFlight, State.busy, h1, h2, h3]

theorem callerPixels_rest {d : Driver} (h : d.saved = none) : d.callerPixels = d.pixels := by
  simp [Driver.callerPixels, h]

theorem callerPixels_saved {d : Driver} (h : d.saved ≠ none) : d.callerPixels = d.saved := by
  cases hs : d.saved with
  | none => exact absurd hs h
  | some p => simp [Driver.callerPixels, hs]

theorem copyRefusal_none {s : State} (h : s.copyRefusal = none) :
    fitsSpace s.drv.callerBuf s.drv.numBytes.toNat = true
      ∧ s.apartFromFlight s.drv.callerBuf s.drv.numBytes.toNat = true := by
  unfold State.copyRefusal at h
  split at h
  · cases h
  split at h
  · cases h
  · rename_i h1 h2; exact ⟨by simpa using h1, by simpa using h2⟩

/-- Bytes written into a scratch buffer are none of the transmission in progress. -/
theorem scratchHeld_phaseInv {s : State} (hs : s.ScratchHeld) (h : s.PhaseInv) (f : U8 → U8) (src : U32) :
    State.PhaseInv { s with mem := s.mem.transform f src s.drv.scratchBase s.drv.numBytes.toNat } := by
  obtain ⟨hf, -, ha⟩ := mayHoldScratch_iff.1 hs.2
  apply mem_phaseInv h
  intro hb a hin
  apply Memory.transform_other _ _ hf
  have hd := disjoint_iff.1 (apartFromFlight_iff.1 ha hb)
  rw [inRange_iff] at hin
  rw [← Bool.not_eq_true, inRange_iff]
  omega

theorem allocateScratch_inv {s : State} (h : s.Inv) (hst : s.drv.stage = .allocate) : s.allocateScratch.Inv := by
  obtain ⟨hm, hc, hp⟩ := h
  simp only [State.CallInv, hst] at hc
  refine ⟨by simpa using hm, ?_, phaseInv_of hp (by simp) (by simp) (by simp) (by simp) (by simp)⟩
  unfold State.allocateScratch
  split
  · simpa [State.CallInv, Driver.AtRest] using hc.1
  · rename_i a _
    simp only [State.CallInv, State.holdScratch_drv, State.countAlloc_drv]
    refine ⟨hc.1.1, hc.2, by simp [State.holdScratch], ?_⟩
    rw [mayHoldScratch_congr (s := s) (by simp) ?_ (by simp)]
    · simpa [Driver.scratchBase] using placeScratch_mayHold s a
    · simp [Driver.callerBuf, Driver.callerPixels]

theorem copyAndSwap_inv {s : State} (h : s.Inv) (hst : s.drv.stage = .copy) (hcr : s.copyRefusal = none) :
    s.copyAndSwap.Inv := by
  obtain ⟨hm, hc, hp⟩ := h
  simp only [State.CallInv, hst] at hc
  obtain ⟨h1, h2, h3⟩ := hc
  have hcb : s.copyAndSwap.drv.callerBuf = s.drv.callerBuf := by
    rw [Driver.callerBuf, Driver.callerBuf, callerPixels_rest h1, callerPixels_saved (by simpa using h2)]; simp
  refine ⟨by simpa using Memory.transform_wf _ _ _ _ hm, ?_,
    phaseInv_of (scratchHeld_phaseInv h3 hp id s.drv.activeBuf) rfl rfl rfl rfl rfl⟩
  show s.copyAndSwap.drv.Swapped ∧ s.copyAndSwap.ScratchHeld ∧ _
  refine ⟨⟨by simpa using h2, by simpa using h3.1, rfl⟩, ⟨by simpa using h3.1, ?_⟩, ?_⟩
  · exact (mayHoldScratch_congr (s := s) (by simp) hcb (by simp)).trans h3.2
  · rw [hcb]; exact (copyRefusal_none hcr).1

theorem scaleScratch_inv {s : State} (h : s.Inv) (hst : s.drv.stage = .scale) : s.scaleScratch.Inv := by
  obtain ⟨hm, hc, hp⟩ := h
  simp only [State.CallInv, hst] at hc
  obtain ⟨h1, h2, -⟩ := hc
  have ha : s.drv.activeBuf = s.drv.scratchBase := by simp [Driver.activeBuf, h1.2.2]
  refine ⟨by simpa using Memory.transform_wf _ _ _ _ hm, ?_, ?_⟩
  · show s.scaleScratch.drv.pixels ≠ none ∧ (s.scaleScratch.drv.AtRest ∨ s.scaleScratch.drv.Swapped)
    simp only [State.scaleScratch_drv]
    exact ⟨by simp [h1.2.2], .inr h1⟩
  · refine phaseInv_of (scratchHeld_phaseInv h2 hp (fun b => scale b s.drv.brightness) s.drv.activeBuf) (by simp) (by simp)
      (by simp) ?_ (by simp)
    rw [State.scaleScratch_mem, ha]

theorem poll_inv {s : State} (h : s.Inv) (hst : s.drv.stage = .waitIdle ∨ s.drv.stage = .waitDone) : s.poll.Inv := by
  obtain ⟨hm, hc, hp⟩ := h
  have hc' : s.drv.pixels ≠ none ∧ (s.drv.AtRest ∨ s.drv.Swapped) := by
    rcases hst with hst | hst <;> simpa only [State.CallInv, hst] using hc
  refine ⟨hm, ?_, phaseInv_of hp rfl rfl rfl rfl rfl⟩
  cases hb : s.busy with
  | true =>
    have : s.poll.drv.stage = s.drv.stage := by simp [hb]
    rcases hst with hst | hst <;> (rw [hst] at this; simp only [State.CallInv, this]; exact hc')
  | false =>
    have hs : s.poll.drv.stage = s.drv.afterWait := by simp [hb]
    rcases hst with hst | hst
    · simp only [Driver.afterWait, hst] at hs
      simp only [State.CallInv, hs]; exact hc'
    · simp only [Driver.afterWait, hst] at hs
      rcases hc'.2 with hr | hw
      · rw [hr.1] at hs
        simp only [State.CallInv, hs]; exact hr
      · rw [Option.isSome_iff_ne_none.2 hw.1] at hs
        simp only [State.CallInv, hs]; exact hw

/-- Every stage of a call keeps the invariant. -/
theorem DriverStep.inv {s t : State} (h : DriverStep s t) (hi : s.Inv) : t.Inv := by
  cases h with
  | rest _ => exact sequencerCycle_inv hi
  | allocate h => exact sequencerCycle_inv (allocateScratch_inv hi h)
  | copy h hc => exact sequencerCycle_inv (copyAndSwap_inv hi h hc)
  | scale h => exact sequencerCycle_inv (scaleScratch_inv hi h)
  | wait h => exact sequencerCycle_inv (poll_inv hi h)
  | writeBuf h hp =>
    refine sequencerCycle_inv ⟨hi.1, ?_, (PhaseInv_idle (by exact hp)).2 ((PhaseInv_idle hp).1 hi.2.2)⟩
    have := hi.2.1; simp only [State.CallInv, h] at this; exact this
  | writeLen h hp =>
    refine sequencerCycle_inv ⟨hi.1, ?_, (PhaseInv_idle (by exact hp)).2 ((PhaseInv_idle hp).1 hi.2.2)⟩
    have := hi.2.1; simp only [State.CallInv, h] at this; exact this
  | writeCtrl h hs =>
    refine ⟨by simpa using hi.1, ?_, start_phaseInv (phaseInv_of hi.2.2 rfl rfl rfl rfl rfl) hs⟩
    have hc := hi.2.1; simp only [State.CallInv, h] at hc
    have hd : ((s.enter .waitDone).endCycle ((s.enter .waitDone).startEffect s.drv.pin s.drv.is800)).drv
        = { s.drv with stage := .waitDone } := by simp
    simp only [State.CallInv, hd]; exact hc
  | swapBack h =>
    refine sequencerCycle_inv ⟨hi.1, ?_, phaseInv_of hi.2.2 rfl rfl rfl rfl rfl⟩
    have hc := hi.2.1; simp only [State.CallInv, h] at hc
    exact ⟨rfl, hc.1⟩
  | free h =>
    refine sequencerCycle_inv ⟨hi.1, ?_, phaseInv_of hi.2.2 rfl rfl rfl rfl rfl⟩
    have hc := hi.2.1; simp only [State.CallInv, h] at hc
    exact ⟨hc.1, rfl⟩

/-! ### What a stage leaves alone -/

/-- A stage changes neither the parameters, the clock rate, the stimuli nor what the host configured. -/
theorem DriverStep.frame {s t : State} (h : DriverStep s t) :
    t.params = s.params ∧ t.fCpu = s.fCpu ∧ t.stimuli = s.stimuli ∧ t.drv.numBytes = s.drv.numBytes
      ∧ t.drv.brightness = s.drv.brightness ∧ t.drv.pin = s.drv.pin ∧ t.drv.is800 = s.drv.is800 := by
  cases h <;> simp
  case allocate => unfold State.allocateScratch; split <;> simp

/-- A stage counts one cycle on the counter (R27). -/
theorem DriverStep.cc {s t : State} (h : DriverStep s t) : t.cc = s.cc + 1 := by cases h <;> simp

/-- Every stage writes memory inside the scratch buffer only, and only to copy and to scale (R66). -/
theorem DriverStep.mem {s t : State} (h : DriverStep s t) (hi : s.Inv) :
    t.mem = s.mem ∨ ((s.drv.stage = .copy ∨ s.drv.stage = .scale)
      ∧ fitsSpace s.drv.callerBuf s.drv.numBytes.toNat = true ∧ s.mayHoldScratch s.drv.scratchBase = true
      ∧ ∀ a, inRange s.drv.scratchBase s.drv.numBytes.toNat a = false → t.mem.read a = s.mem.read a) := by
  have hc := hi.2.1
  cases h
  case copy h hcr =>
    simp only [State.CallInv, h] at hc
    refine .inr ⟨.inl h, (copyRefusal_none hcr).1, hc.2.2.2, fun a ha => ?_⟩
    rw [State.sequencerCycle_mem, State.copyAndSwap_mem, Memory.transform_other _ _ (mayHoldScratch_iff.1 hc.2.2.2).1 _ ha]
  case scale h =>
    simp only [State.CallInv, h] at hc
    refine .inr ⟨.inr h, hc.2.2, hc.2.1.2, fun a ha => ?_⟩
    have hab : s.drv.activeBuf = s.drv.scratchBase := by simp [Driver.activeBuf, hc.1.2.2]
    rw [State.sequencerCycle_mem, State.scaleScratch_mem, hab,
      Memory.transform_other _ _ (mayHoldScratch_iff.1 hc.2.1.2).1 _ ha]
  all_goals (left; simp)

/-- Every stage leaves the caller's bytes (R153). -/
theorem DriverStep.callerBytes {s t : State} (h : DriverStep s t) (hi : s.Inv) {p : U32}
    (hp : s.drv.callerPixels = some p) : t.mem.bytes p s.drv.numBytes.toNat = s.mem.bytes p s.drv.numBytes.toNat := by
  rcases h.mem hi with h1 | ⟨-, hf, hs, ho⟩
  · rw [h1]
  · have hcb : s.drv.callerBuf = p := by simp [Driver.callerBuf, hp]
    rw [hcb] at hf
    obtain ⟨-, hd, -⟩ := mayHoldScratch_iff.1 hs
    rw [hcb] at hd
    exact bytes_caller hf hd ho

/-- Every stage leaves the caller's own pointer, active or saved (R153). -/
theorem DriverStep.callerPixels {s t : State} (h : DriverStep s t) (hi : s.Inv) :
    t.drv.callerPixels = s.drv.callerPixels := by
  have hc := hi.2.1
  cases h
  case allocate =>
    rw [State.sequencerCycle_drv]; unfold State.allocateScratch; split <;> simp [Driver.callerPixels]
  case copy h _ =>
    simp only [State.CallInv, h] at hc
    rw [State.sequencerCycle_drv, callerPixels_rest hc.1, callerPixels_saved (by simpa using hc.2.1)]; simp
  case swapBack h =>
    simp only [State.CallInv, h] at hc
    rw [State.sequencerCycle_drv, callerPixels_saved hc.1, callerPixels_rest (by simp)]; simp
  all_goals simp [Driver.callerPixels]

/-- A block that is idle stays so but for the START of the call, whose wait lasts until it is idle again (R83, R153). -/
theorem DriverStep.blockIdle {s t : State} (h : DriverStep s t)
    (hi : s.drv.stage ≠ .waitDone → s.blk.phase = .idle) : t.drv.stage ≠ .waitDone → t.blk.phase = .idle := by
  have seq : ∀ u : State, u.blk.phase = .idle → u.sequencerCycle.blk.phase = .idle := fun u hu => by
    rw [sequencerCycle_idle hu]; exact hu
  intro hne
  cases h
  case rest h => exact seq _ (hi (by rw [h]; decide))
  case allocate h => exact seq _ (by simpa using hi (by rw [h]; decide))
  case copy h _ => exact seq _ (by simpa using hi (by rw [h]; decide))
  case scale h => exact seq _ (by simpa using hi (by rw [h]; decide))
  case wait h =>
    apply seq
    rcases h with h | h
    · simpa using hi (by rw [h]; decide)
    · cases hb : s.busy with
      | true => simp [hb, h] at hne
      | false => exact busy_false_iff.1 hb
  case writeBuf h hp => exact seq _ hp
  case writeLen h hp => exact seq _ hp
  case writeCtrl => simp at hne
  case swapBack h => exact seq _ (by simpa using hi (by rw [h]; decide))
  case free h => exact seq _ (by simpa using hi (by rw [h]; decide))

/-- Only `Allocate` asks the allocator, once, and no stage comes back to it (R144, R152). -/
theorem DriverStep.alloc {s t : State} (h : DriverStep s t) :
    t.drv.stage ≠ .allocate
      ∧ t.alloc = if s.drv.stage = .allocate then s.countAlloc.alloc else s.alloc := by
  have haw : s.drv.stage = .waitIdle ∨ s.drv.stage = .waitDone → s.drv.afterWait ≠ .allocate := by
    rintro (h | h) <;> simp only [Driver.afterWait, h]
    · decide
    · split <;> decide
  cases h
  case allocate h =>
    refine ⟨?_, by simp [h]⟩
    rw [State.sequencerCycle_drv]; unfold State.allocateScratch; split <;> simp
  case wait h =>
    have hs := haw h
    rcases h with h | h <;> (refine ⟨?_, by simp [h]⟩; simp only [State.sequencerCycle_drv, State.poll_drv, h]; split)
    all_goals first | exact CallStage.noConfusion | exact hs
  all_goals simp_all

/-! ### A call, from the state in which it was made -/

/-- `u` is reached, with nothing arriving, from a call of SHOW made in `s` (R153). -/
structure AfterCall (s u : State) : Prop where
  inv : u.Inv
  stimuli : u.stimuli = []
  pixels : u.drv.callerPixels = s.drv.pixels
  brightness : u.drv.brightness = s.drv.brightness
  numBytes : u.drv.numBytes = s.drv.numBytes
  bytes : ∀ p, s.drv.pixels = some p → u.mem.bytes p s.drv.numBytes.toNat = s.mem.bytes p s.drv.numBytes.toNat
  blockIdle : s.blk.phase = .idle → u.drv.stage ≠ .waitDone → u.blk.phase = .idle

theorem AfterCall.next {s u v : State} (a : AfterCall s u) (h : step u = .next v) : AfterCall s v := by
  rw [step_driver a.stimuli] at h
  have d := fetchDriver_next h
  obtain ⟨-, -, f1, f2, f3, -⟩ := d.frame
  refine ⟨d.inv a.inv, f1.trans a.stimuli, (d.callerPixels a.inv).trans a.pixels, f3.trans a.brightness,
    f2.trans a.numBytes, fun p hp => ?_, fun hi => d.blockIdle (a.blockIdle hi)⟩
  rw [← a.bytes p hp, ← a.numBytes]
  exact d.callerBytes a.inv (a.pixels.trans hp)

theorem AfterCall.run {s : State} (n : Nat) {u v : State} (a : AfterCall s u)
    (h : Host.Core.run Sys2Proof.core n u = .next v) : AfterCall s v := by
  induction n generalizing u with
  | zero => cases h; exact a
  | succ n ih =>
    cases hs : step u with
    | next w => rw [run_succ hs] at h; exact ih (a.next hs) h
    | fault r => cases r
    | refused r => simp only [Host.Core.run, Sys2Proof.core] at h; rw [hs] at h; cases h

/-- Everything SHOW can do in the cycle of the call (R142, R143, R152, R155). -/
theorem show_next {x : BitVec 8} {s t : State} (h : exec (.showFrame x) s = .next t) :
    s.drv.stage = .idle ∧ ((s.drv.pixels = none ∧ t = s.sequencerCycle)
      ∨ (s.drv.pixels ≠ none
          ∧ t = (s.enter (if s.drv.brightness = 255 then .waitIdle else .allocate)).sequencerCycle)) := by
  simp only [exec, execShow] at h
  split at h
  · cases h
  · rename_i hst
    refine ⟨by simpa using hst, ?_⟩
    split at h
    · rename_i hp; cases h; exact .inl ⟨hp, rfl⟩
    · rename_i p hp; cases h; exact .inr ⟨by simp [hp], rfl⟩

theorem show_inv {x : BitVec 8} {s t : State} (hi : s.Inv) (h : exec (.showFrame x) s = .next t) : t.Inv := by
  obtain ⟨hst, ⟨-, rfl⟩ | ⟨hp, rfl⟩⟩ := show_next h
  · exact sequencerCycle_inv hi
  · refine sequencerCycle_inv ⟨hi.1, ?_, phaseInv_of hi.2.2 rfl rfl rfl rfl rfl⟩
    have hc := hi.2.1
    simp only [State.CallInv, hst] at hc
    by_cases hb : s.drv.brightness = 255
    · rw [if_pos hb]; exact ⟨hp, .inl hc⟩
    · rw [if_neg hb]; exact ⟨hc, hp⟩

theorem show_afterCall {x : BitVec 8} {s t : State} (hi : s.Inv) (hs : s.stimuli = [])
    (h : exec (.showFrame x) s = .next t) : AfterCall s t := by
  have hsv : s.drv.saved = none := by
    have hc := hi.2.1
    simp only [State.CallInv, (show_next h).1] at hc; exact hc.1
  have ht : t.stimuli = [] ∧ t.drv.callerPixels = s.drv.pixels ∧ t.drv.brightness = s.drv.brightness
      ∧ t.drv.numBytes = s.drv.numBytes ∧ t.mem = s.mem ∧ (s.blk.phase = .idle → t.blk.phase = .idle) := by
    obtain ⟨-, ⟨-, rfl⟩ | ⟨-, rfl⟩⟩ := show_next h
    · refine ⟨by simpa using hs, by simp [Driver.callerPixels, hsv], by simp, by simp, by simp, fun hp => ?_⟩
      rw [sequencerCycle_idle hp]; exact hp
    · refine ⟨by simpa using hs, by simp [Driver.callerPixels, hsv], by simp, by simp, by simp, fun hp => ?_⟩
      rw [sequencerCycle_idle (by exact hp)]; exact hp
  obtain ⟨h1, h2, h3, h4, h5, h6⟩ := ht
  exact ⟨show_inv hi h, h1, h2, h3, h4, fun p _ => by rw [h5], fun hp _ => h6 hp⟩

/-- With nothing arriving and no stage left to do, the allocator is asked no more. -/
theorem run_alloc (n : Nat) {u v : State} (hs : u.stimuli = []) (ha : u.drv.stage ≠ .allocate)
    (h : Host.Core.run Sys2Proof.core n u = .next v) : v.alloc = u.alloc := by
  induction n generalizing u with
  | zero => cases h; rfl
  | succ n ih =>
    cases hst : step u with
    | next w =>
      rw [run_succ hst] at h
      rw [step_driver hs] at hst
      have d := fetchDriver_next hst
      obtain ⟨d1, d2⟩ := d.alloc
      rw [if_neg ha] at d2
      rw [ih (d.frame.2.2.1.trans hs) d1 h, d2]
    | fault r => cases r
    | refused r => simp only [Host.Core.run, Sys2Proof.core] at h; rw [hst] at h; cases h

/-! ### A whole TX, and the stages before it -/

/-- What a wait leaves (R83). -/
theorem waitOver_facts {s : State} (h : s.PhaseInv) (d : U32) :
    (s.waitOver d).blk.phase = .idle ∧ (s.waitOver d).gpio = 0 ∧ (s.waitOver d).mem = s.mem
      ∧ (s.waitOver d).fCpu = s.fCpu ∧ (s.waitOver d).params = s.params ∧ (s.waitOver d).stimuli = s.stimuli
      ∧ (s.waitOver d).alloc = s.alloc ∧ (s.waitOver d).drv = { s.drv with stage := s.drv.afterWait } := by
  have hi := (runCycles_remaining h (n := 0)).2
  obtain ⟨o1, o2, -, -, o5, -, -, o8, o9⟩ := (runCycles_same s.remaining s).1
  exact ⟨hi, (PhaseInv_idle hi).1 (runCycles_phaseInv h _), o1, o2, o5, o8, o9, rfl⟩

theorem Transmitted.of {s s' t : State} {pin : Pin} {r : Bool} {buf : U32} {len : U16} {bytes : List U8}
    (h : Transmitted s' t pin r buf len bytes) (h1 : s'.fCpu = s.fCpu) (h2 : s'.params = s.params)
    (h3 : s'.stimuli = s.stimuli) : Transmitted s t pin r buf len bytes := by
  unfold Transmitted State.newTime0 State.newTime1 State.newPeriod State.nominal at h ⊢
  rw [h1, h2, h3] at h; exact h

/-- R83: one TX whole, from its first wait. -/
theorem txWait_run {s : State} (hst : s.drv.stage = .waitIdle) (hs : s.stimuli = []) (h : s.PhaseInv)
    (hx : s.TxLegal s.drv.pin s.drv.is800 s.drv.activeBuf s.drv.numBytes) :
    ∃ k u, Host.Core.run Sys2Proof.core k s = .next u
      ∧ Transmitted s u s.drv.pin s.drv.is800 s.drv.activeBuf s.drv.numBytes
          (s.mem.bytes s.drv.activeBuf s.drv.numBytes.toNat)
      ∧ u.drv = { s.drv with stage := if s.drv.saved.isSome then .swapBack else .idle }
      ∧ u.mem = s.mem ∧ u.alloc = s.alloc := by
  obtain ⟨d, hd⟩ := wait_run (.inl hst) hs h
  obtain ⟨w1, w2, w3, w4, w5, w6, w7, w8⟩ := waitOver_facts h d
  have hw : (s.waitOver d).drv = { s.drv with stage := .writeBuf } := by rw [w8]; simp [Driver.afterWait, hst]
  have hx' : (s.waitOver d).TxLegal (s.waitOver d).drv.pin (s.waitOver d).drv.is800 (s.waitOver d).drv.activeBuf
      (s.waitOver d).drv.numBytes := by
    rw [hw]
    unfold State.TxLegal State.timingLegal State.nominal at hx ⊢
    rw [w4, w5]; exact hx
  obtain ⟨k, u, hk, hT, hdv, hm, ha⟩ := tx_run (by rw [hw]) (w6.trans hs) w1 w2 hx'
  rw [hw] at hT hdv
  rw [w3] at hT hm
  exact ⟨s.remaining + 1 + k, u, (run_add hd).trans hk, hT.of w4 w5 w6, hdv, hm, ha.trans w7⟩

/-! ### SHOW whole -/

/-- A buffer apart from the transmission in progress stays so while no other begins. -/
theorem apartFromFlight_of {s t : State} {a : U32} {n : Nat} (h : s.apartFromFlight a n = true)
    (hb : t.busy = true → s.busy = true) (h1 : t.blk.bufL = s.blk.bufL) (h2 : t.blk.lenL = s.blk.lenL) :
    t.apartFromFlight a n = true := by
  simp only [apartFromFlight_iff, ← busy_iff, h1, h2] at h ⊢
  exact fun hh => h (hb hh)

/-- SHOW at full brightness (R143). -/
theorem showFull_run {x : BitVec 8} {s : State} {p : U32} (hi : s.Inv) (hst : s.drv.stage = .idle) (hs : s.stimuli = [])
    (hp : s.drv.pixels = some p) (hb : s.drv.brightness = 255)
    (hx : s.TxLegal s.drv.pin s.drv.is800 p s.drv.numBytes) :
    ∃ t k u, exec (.showFrame x) s = .next t ∧ Host.Core.run Sys2Proof.core k t = .next u
      ∧ Transmitted s u s.drv.pin s.drv.is800 p s.drv.numBytes (s.mem.bytes p s.drv.numBytes.toNat)
      ∧ u.drv = s.drv ∧ u.mem = s.mem ∧ u.alloc = s.alloc := by
  have he : exec (.showFrame x) s = .next (s.enter .waitIdle).sequencerCycle := by simp [exec, execShow, hst, hp, hb]
  have ht := show_inv hi he
  generalize hu : (s.enter .waitIdle).sequencerCycle = t at he ht
  have hd : t.drv = { s.drv with stage := .waitIdle } := by rw [← hu]; simp
  have hf : t.fCpu = s.fCpu ∧ t.params = s.params ∧ t.stimuli = s.stimuli ∧ t.mem = s.mem ∧ t.alloc = s.alloc := by
    rw [← hu]; simp
  obtain ⟨f1, f2, f3, f4, f5⟩ := hf
  have hab : t.drv.activeBuf = p := by rw [hd]; simp [Driver.activeBuf, hp]
  have hsv : s.drv.saved = none := by
    have hc := hi.2.1
    simp only [State.CallInv, hst] at hc; exact hc.1
  have hx' : t.TxLegal t.drv.pin t.drv.is800 t.drv.activeBuf t.drv.numBytes := by
    rw [hab, hd]
    unfold State.TxLegal State.timingLegal State.nominal at hx ⊢
    rw [f1, f2]; exact hx
  obtain ⟨k, u, hk, hT, h1, h2, h3⟩ := txWait_run (by rw [hd]) (f3.trans hs) ht.2.2 hx'
  rw [hab, hd, f4] at hT
  refine ⟨t, k, u, he, hk, hT.of f1 f2 f3, ?_, h2.trans f4, h3.trans f5⟩
  rw [h1, hd]
  simp only [hsv, Option.isSome_none, Bool.false_eq_true, if_false]
  rw [← hst, ← hsv]

/-- SHOW below full brightness, once the allocation has succeeded (R144, R146 to R151). -/
theorem showScaled_run {x : BitVec 8} {s : State} {p a : U32} (hi : s.Inv) (hst : s.drv.stage = .idle)
    (hs : s.stimuli = []) (hp : s.drv.pixels = some p) (hb : s.drv.brightness ≠ 255) (ha : s.allocAnswer = some a)
    (hf : fitsSpace p s.drv.numBytes.toNat = true) (hap : s.apartFromFlight p s.drv.numBytes.toNat = true)
    (hpin : s.drv.pin.toNat < s.params.npins) (htm : s.timingLegal s.drv.is800 = true) :
    ∃ t k u base, exec (.showFrame x) s = .next t ∧ Host.Core.run Sys2Proof.core k t = .next u
      ∧ fitsSpace base s.drv.numBytes.toNat = true
      ∧ disjoint base s.drv.numBytes.toNat p s.drv.numBytes.toNat = true
      ∧ (s.mayHoldScratch a = true → base = a)
      ∧ Transmitted s u s.drv.pin s.drv.is800 base s.drv.numBytes
          ((s.mem.bytes p s.drv.numBytes.toNat).map fun b => scale b s.drv.brightness)
      ∧ u.drv = { s.drv with cache := some s.drv.brightness }
      ∧ u.mem = scaledMem s.mem s.drv.brightness p base s.drv.numBytes.toNat ∧ u.alloc = s.countAlloc.alloc := by
  have hrest : s.drv.AtRest := by
    have hc := hi.2.1
    simp only [State.CallInv, hst] at hc; exact hc
  -- the cycle of the call
  have he : exec (.showFrame x) s = .next (s.enter .allocate).sequencerCycle := by
    simp only [exec, execShow, hst, hp, ne_eq, not_true_eq_false, if_false, if_neg hb]
  have ht := show_inv hi he
  have htb : (s.enter .allocate).sequencerCycle.busy = true → s.busy = true := sequencerCycle_busy
  generalize hte : (s.enter .allocate).sequencerCycle = t at he ht htb
  have d0 : t.drv = { s.drv with stage := .allocate } := by rw [← hte]; simp
  have g0 : t.fCpu = s.fCpu ∧ t.params = s.params ∧ t.stimuli = s.stimuli ∧ t.mem = s.mem ∧ t.alloc = s.alloc
      ∧ t.blk.bufL = s.blk.bufL ∧ t.blk.lenL = s.blk.lenL := by rw [← hte]; simp
  obtain ⟨g1, g2, g3, g4, g5, g6, g7⟩ := g0
  -- Allocate
  have hplace : t.allocPlace = s.allocPlace := by unfold State.allocPlace; rw [d0, g2]
  have hans : t.allocAnswer = some a := by
    rw [← ha]; unfold State.allocAnswer; rw [hplace, g5]
  have hca : t.countAlloc.alloc = s.countAlloc.alloc := by
    unfold State.countAlloc; rw [hplace]; cases s.allocPlace <;> simp only [g5]
  obtain ⟨base, hbase⟩ : ∃ base, base = t.placeScratch a := ⟨_, rfl⟩
  have hmay : t.mayHoldScratch base = true := hbase ▸ placeScratch_mayHold t a
  have hcb : t.drv.callerBuf = p := by simp [Driver.callerBuf, Driver.callerPixels, d0, hp, hrest.1]
  obtain ⟨m1, m2, m3⟩ := mayHoldScratch_iff.1 hmay
  rw [hcb] at m2
  have s1 := DriverStep.allocate (s := t) (by rw [d0])
  have i1 := s1.inv ht
  have r1 := s1.step (g3.trans hs) (phaseInv_byteInRange ht.2.2)
  have hu1 : t.allocateScratch = t.countAlloc.holdScratch base := by
    unfold State.allocateScratch; rw [hans, hbase]
  rw [hu1] at r1 i1
  have b1 : (t.countAlloc.holdScratch base).sequencerCycle.busy = true → s.busy = true := fun h =>
    htb (by have := sequencerCycle_busy h; simpa [State.busy] using this)
  generalize hv1 : (t.countAlloc.holdScratch base).sequencerCycle = v1 at r1 i1 b1
  have d1 : v1.drv = { s.drv with stage := .copy, scratch := some { base := base, place := s.allocPlace } } := by
    rw [← hv1, State.sequencerCycle_drv, State.holdScratch_drv, State.countAlloc_drv, d0]
    have : t.countAlloc.allocPlace = s.allocPlace := by
      rw [← hplace]; unfold State.allocPlace; rw [State.countAlloc_drv, State.countAlloc_params]
    rw [this]
  have k1 : v1.fCpu = s.fCpu ∧ v1.params = s.params ∧ v1.stimuli = s.stimuli ∧ v1.mem = s.mem
      ∧ v1.alloc = s.countAlloc.alloc ∧ v1.blk.bufL = s.blk.bufL ∧ v1.blk.lenL = s.blk.lenL := by
    rw [← hv1]; simp [g1, g2, g3, g4, g6, g7, hca]
  obtain ⟨k11, k12, k13, k14, k15, k16, k17⟩ := k1
  -- Copy
  have hcb1 : v1.drv.callerBuf = p := by simp [Driver.callerBuf, Driver.callerPixels, d1, hp, hrest.1]
  have hcr : v1.copyRefusal = none := by
    unfold State.copyRefusal
    rw [hcb1, apartFromFlight_of (t := v1) (a := p) (by rw [d1]; exact hap) b1 k16 k17, d1]
    simp only [hf, Bool.true_eq_false, if_false]
  have s2 := DriverStep.copy (s := v1) (by rw [d1]) hcr
  have i2 := s2.inv i1
  have r2 := s2.step (k13.trans hs) (phaseInv_byteInRange i1.2.2)
  generalize hv2 : v1.copyAndSwap.sequencerCycle = v2 at r2 i2
  have d2 : v2.drv = { s.drv with
      stage := .scale, scratch := some { base := base, place := s.allocPlace }, saved := some p, pixels := some base } := by
    rw [← hv2]; simp [d1, hp, Driver.scratchBase]
  have k2 : v2.fCpu = s.fCpu ∧ v2.params = s.params ∧ v2.stimuli = s.stimuli ∧ v2.alloc = s.countAlloc.alloc
      ∧ v2.mem = s.mem.transform id p base s.drv.numBytes.toNat := by
    rw [← hv2]; simp [k11, k12, k13, k14, k15, d1, Driver.activeBuf, Driver.scratchBase, hp]
  obtain ⟨k21, k22, k23, k24, k25⟩ := k2
  -- Scale
  have s3 := DriverStep.scale (s := v2) (by rw [d2])
  have i3 := s3.inv i2
  have r3 := s3.step (k23.trans hs) (phaseInv_byteInRange i2.2.2)
  generalize hv3 : v2.scaleScratch.sequencerCycle = v3 at r3 i3
  have d3 : v3.drv = { s.drv with
      stage := .waitIdle, cache := some s.drv.brightness, scratch := some { base := base, place := s.allocPlace },
      saved := some p, pixels := some base } := by rw [← hv3]; simp [d2]
  have k3 : v3.fCpu = s.fCpu ∧ v3.params = s.params ∧ v3.stimuli = s.stimuli ∧ v3.alloc = s.countAlloc.alloc
      ∧ v3.mem = scaledMem s.mem s.drv.brightness p base s.drv.numBytes.toNat := by
    rw [← hv3]; simp [k21, k22, k23, k24, k25, d2, Driver.activeBuf, scaledMem]
  obtain ⟨k31, k32, k33, k34, k35⟩ := k3
  -- Transmit
  have hn : t.drv.numBytes = s.drv.numBytes := by rw [d0]
  rw [hn] at m1 m2
  have hx : v3.TxLegal v3.drv.pin v3.drv.is800 v3.drv.activeBuf v3.drv.numBytes := by
    rw [d3]
    unfold State.TxLegal State.timingLegal State.nominal at *
    rw [k31, k32]; exact ⟨hpin, htm, m1⟩
  obtain ⟨k, u, hk, hT, hd, hm, hal⟩ := txWait_run (by rw [d3]) (k33.trans hs) i3.2.2 hx
  rw [d3] at hT hd
  simp only [Driver.activeBuf, Option.getD_some, k35] at hT
  rw [scaledMem_bytes hi.1 _ hf m1 m2] at hT
  have hT' := hT.of k31 k32 k33
  have hui : u.blk.phase = .idle := hT'.1.1
  have hus : u.stimuli = [] := hT'.2.2.2.2.2.2.2.2.trans hs
  -- Swap-back and Free
  have s4 := (DriverStep.swapBack (s := u) (by rw [hd]; rfl)).step hus (fun hh => absurd hui hh)
  rw [sequencerCycle_idle (by exact hui)] at s4
  have s5 := (DriverStep.free (s := { u.swapBack with cc := u.swapBack.cc + 1 }) rfl).step hus (fun hh => absurd hui hh)
  rw [sequencerCycle_idle (by exact hui)] at s5
  refine ⟨t, k + 1 + 1 + 1 + 1 + 1,
    { State.freeScratch { u.swapBack with cc := u.swapBack.cc + 1 } with cc := u.swapBack.cc + 1 + 1 }, base, he, ?_, m1, m2,
    ?_, hT', ?_, hm.trans k35, hal.trans k34⟩
  · rw [run_succ r1, run_succ r2, run_succ r3, run_add (m := k) hk, run_succ s4, run_succ s5]
    rfl
  · intro hh
    rw [hbase]
    refine placeScratch_self ?_
    rw [mayHoldScratch_iff] at hh ⊢
    have hcs : s.drv.callerBuf = p := by simp [Driver.callerBuf, Driver.callerPixels, hp, hrest.1]
    rw [hcs] at hh
    rw [hcb, hn]
    exact ⟨hh.1, hh.2.1, apartFromFlight_of hh.2.2 htb g6 g7⟩
  · show { u.drv with pixels := u.drv.saved, saved := none, scratch := none, stage := .idle } = _
    rw [hd]
    simp only
    rw [← hp, ← hst, ← hrest.1, ← hrest.2]

end Sys2Proof.Machine
end

