-- ==== Sys2Proof/WellFormed.lean ====
section
/-! DEFINITION. Which instructions the spec gives a meaning under given parameters (rules R72 and R78). -/

namespace Sys2Proof

/-- A START names a line the block has: `PIN < NPINS` (R72, R78). Every other field is legal at every value. -/
def Instr.wellFormed (p : Params) : Instr → Bool
  | .tx800 pin => decide (pin.toNat < p.npins)
  | .tx400 pin => decide (pin.toNat < p.npins)
  | .ctrlNop _ => true
  | .sym0 => true
  | .sym1 => true
  | .idleHold _ => true
  | .highHold _ => true
  | .fall _ => true
  | .lowHold _ => true
  | .nextBit _ => true
  | .nextByte => true
  | .finish => true
  | .showFrame _ => true
  | .setBrightness _ => true

end Sys2Proof
end

