-- ==== Sys2Proof/Laws/Instr.lean ====
section
/-! SUPPORT. What an instruction, and what arrives in a step, can do, said once each. -/

namespace Sys2Proof.Machine

/-- With no driver call in progress, a step with something arriving is what `State.fetchStimulus` says of it. -/
theorem step_stimulus {s : State} {st : Stimulus} {rest : List Stimulus} (h : s.stimuli = st :: rest)
    (hc : s.drv.stage = .idle) : step s = (State.fetchStimulus { s with stimuli := rest } st).outcome := by
  rw [step_eq, State.fetch, h]
  simp only [hc, if_true]

/-- What arrives is taken in and the cycle is a quiet one. -/
theorem stepsAsQuiet_of_fetch {s t : State} {st : Stimulus} {rest : List Stimulus} (h : s.stimuli = st :: rest)
    (hc : s.drv.stage = .idle) (hd : t.drv.stage = .idle)
    (h2 : State.fetchStimulus { s with stimuli := rest } st = State.fetchMicro { t with stimuli := rest }) :
    StepsAsQuiet s t rest := by
  rw [StepsAsQuiet, step_stimulus h hc, h2]
  exact (step_stimulus (s := { t with stimuli := .quiet :: rest}) rfl hd).symm

/-- The line is high in HIGH (R21). -/
theorem line_high {s : State} (h : s.Inv) (hp : s.blk.phase = .high) : s.lineLevel = true := by
  have := ((PhaseInv_high hp).1 h.2.2).2.1
  rw [State.lineLevel, this]; exact level_drive_self _ _ _

/-- The line is low in LOW (R21). -/
theorem line_low {s : State} (h : s.Inv) (hp : s.blk.phase = .low) : s.lineLevel = false := by
  have := ((PhaseInv_low hp).1 h.2.2).2.1
  rw [State.lineLevel, this]; simp [Lines.level]

/-- A cycle of the sequencer writes no line but the selected one (R28). -/
theorem sequencerCycle_lines (s : State) : SameOtherLines s.blk.pinL s s.sequencerCycle := by
  intro q hq
  unfold State.sequencerCycle
  repeat' split
  all_goals first | rfl | exact level_drive_other _ hq _

/-- A cell writes no line but the selected one (R28). -/
theorem wholeCell_lines (s : State) : SameOtherLines s.blk.pinL s s.wholeCell := by
  intro q hq
  exact (sequencerCycle_lines s.cellLastCycle q hq).trans (level_drive_other _ hq _)

/-- Everything an instruction can do. -/
theorem exec_cases {i : Instr} {s t : State} (ht : exec i s = .next t) :
    t = s.sequencerCycle
      ∨ (∃ p r, (i = .tx800 p ∨ i = .tx400 p) ∧ s.StartLegal p r ∧ t = s.endCycle (s.startEffect p r))
      ∨ ((i = .sym0 ∨ i = .sym1) ∧ s.atCellStart = true ∧ t = s.wholeCell)
      ∨ (∃ n, i = .setBrightness n ∧ t = State.sequencerCycle { s with drv.brightness := n })
      ∨ (∃ x, i = .showFrame x ∧ s.drv.stage = .idle ∧ s.drv.pixels ≠ none
          ∧ t = (s.enter (if s.drv.brightness = 255 then .waitIdle else .allocate)).sequencerCycle) := by
  have micro : ∀ v, decode (.seq v) = .ok i → t = s.sequencerCycle := fun v hv => exec_micro_next hv ht
  have sy : ∀ b, s.symbol b = .next t → (s.atCellStart = true ∧ t = s.wholeCell) := by
    intro b hh
    unfold State.symbol at hh
    split at hh
    · cases hh
    · rename_i hc
      split at hh
      · cases hh; exact ⟨by simpa using hc, rfl⟩
      · cases hh
  cases i with
  | tx800 p => obtain ⟨a, b⟩ := start_next ht; exact .inr (.inl ⟨p, true, .inl rfl, a, b⟩)
  | tx400 p => obtain ⟨a, b⟩ := start_next ht; exact .inr (.inl ⟨p, false, .inr rfl, a, b⟩)
  | ctrlNop x =>
    simp only [exec, execCtrlNop] at ht
    split at ht
    · cases ht
    · rename_i hb
      have hi : s.blk.phase = .idle := busy_false_iff.1 (by simpa using hb)
      cases ht
      left; rw [State.sequencerCycle, hi]; rfl
  | sym0 => exact .inr (.inr (.inl ⟨.inl rfl, sy _ ht⟩))
  | sym1 => exact .inr (.inr (.inl ⟨.inr rfl, sy _ ht⟩))
  | idleHold x => exact .inl (micro _ (Laws.RoundTrip.idleHold x))
  | highHold x => exact .inl (micro _ (Laws.RoundTrip.highHold x))
  | fall x => exact .inl (micro _ (Laws.RoundTrip.fall x))
  | lowHold x => exact .inl (micro _ (Laws.RoundTrip.lowHold x))
  | nextBit x => exact .inl (micro _ (Laws.RoundTrip.nextBit x))
  | nextByte => exact .inl (micro _ (Laws.RoundTrip.nextByte))
  | finish => exact .inl (micro _ (Laws.RoundTrip.finish))
  | showFrame x =>
    obtain ⟨hst, ⟨-, e⟩ | ⟨hp, e⟩⟩ := show_next ht
    · exact .inl e
    · exact .inr (.inr (.inr (.inr ⟨x, rfl, hst, hp, e⟩)))
  | setBrightness n =>
    simp only [exec, execSetBrightness] at ht; cases ht; exact .inr (.inr (.inr (.inl ⟨n, rfl, rfl⟩)))

/-- Only a well-formed instruction runs (R72, R78). -/
theorem wellFormed_of_exec {i : Instr} {s t : State} (ht : exec i s = .next t) : i.wellFormed s.params = true := by
  cases i with
  | tx800 p => exact decide_eq_true (start_next ht).1.2.1
  | tx400 p => exact decide_eq_true (start_next ht).1.2.1
  | _ => rfl

/-- Every instruction keeps the invariant, where it can be asked for: with no driver call in progress, or by the call itself
once its scratch buffer is filled. -/
theorem exec_inv {i : Instr} {s t : State} (h : s.Inv) (hc : s.drv.stage = .idle ∨ s.drv.stage = .waitDone)
    (ht : exec i s = .next t) : t.Inv := by
  have hcall : ∀ u : State, u.drv = s.drv → u.CallInv := by
    intro u hu
    have := h.2.1
    rcases hc with hc | hc <;> (simp only [State.CallInv, hu, hc] at this ⊢; exact this)
  rcases exec_cases ht with rfl | ⟨p, r, -, hl, rfl⟩ | ⟨-, ha, rfl⟩ | ⟨n, -, rfl⟩ | ⟨x, rfl, -⟩
  · exact sequencerCycle_inv h
  · exact ⟨by simpa using h.1, hcall _ (by simp), start_phaseInv h.2.2 hl⟩
  · exact ⟨by simpa using h.1, hcall _ (by simp), wholeCell_phaseInv h.2.2 ha⟩
  · refine sequencerCycle_inv ⟨h.1, ?_, phaseInv_of h.2.2 rfl rfl rfl rfl rfl⟩
    have := h.2.1
    rcases hc with hc | hc <;> (simp only [State.CallInv, hc] at this ⊢; exact this)
  · exact show_inv h ht

/-! ### Everything a step can do -/

/-- `u` is `s` with what arrived in the cycle taken in, where that runs no instruction of its own; no driver call is in
progress. -/
inductive Arrives (s : State) : State → Prop where
  | read (r : List Stimulus) (d : U32) : Arrives s { s with stimuli := r, busData := d }
  | store (r : List Stimulus) (a : U32) (v : U8) (hs : s.stimuli = .memStore a v :: r)
      (h : s.blk.phase ≠ .idle → inRange s.blk.bufL s.blk.lenL.toNat a = false) :
      Arrives s { s with stimuli := r, mem := s.mem.write a v }
  | rate (r : List Stimulus) (hz : U32) : Arrives s { s with stimuli := r, fCpu := hz }
  | configure (r : List Stimulus) (px : Option U32) (n : U16) (pin : Pin) (is800 : Bool) :
      Arrives s
        { s with stimuli := r, drv := { s.drv with pixels := px, numBytes := n, pin := pin, is800 := is800 } }
  | buf (r : List Stimulus) (d : U32) (h : s.blk.phase = .idle) : Arrives s (State.setBuf { s with stimuli := r } d)
  | len (r : List Stimulus) (d : U32) (h : s.blk.phase = .idle) : Arrives s (State.setLen { s with stimuli := r } d)

/-- Everything a step can do: a cycle beside what arrived, an instruction that what arrived asks for, `rst`, or a cycle of the
driver (at rest where nothing arrives, in a call otherwise). -/
inductive StepCase (s t : State) : Prop where
  | arrives (u : State) (hc : s.drv.stage = .idle) (ha : Arrives s u) (h : t = u.sequencerCycle)
  | runs (i : Instr) (st : Stimulus) (r : List Stimulus) (hc : s.drv.stage = .idle) (hs : s.stimuli = st :: r)
      (hsym : st ≠ .cell → i ≠ .sym0 ∧ i ≠ .sym1) (h : exec i { s with stimuli := r } = .next t)
  | reset (r : List Stimulus) (hs : s.stimuli = .reset :: r) (h : t = State.resetCycle { s with stimuli := r })
  | driver (r : List Stimulus) (f : U32) (hs : s.drv.stage ≠ .idle ∨ s.stimuli = [])
      (h : DriverStep { s with stimuli := r, fCpu := f } t)

theorem step_cases {s t : State} (h : step s = .next t) : StepCase s t := by
  rw [step_eq, State.fetch] at h
  cases hs : s.stimuli with
  | nil =>
    rw [hs] at h
    have := fetchDriver_next h
    exact .driver [] s.fCpu (.inr hs) (by rw [← hs]; exact this)
  | cons st rest =>
    rw [hs] at h
    simp only at h
    by_cases hc : s.drv.stage = .idle
    · rw [if_pos hc] at h
      cases st with
      | quiet => exact .arrives _ hc (.read rest s.busData) (fetchMicro_next h)
      | regWrite w a d =>
        simp only [State.fetchStimulus] at h
        split at h
        · rename_i r _
          cases r with
          | ctrl =>
            simp only [State.fetchWrite] at h
            split at h
            · rename_i i hd
              refine .runs i _ rest hc hs (fun _ => ?_) h
              constructor <;> rintro rfl <;>
                (simp only [decode, decodeCtrl] at hd; repeat' split at hd) <;> cases hd
            · cases h
          | buf =>
            simp only [State.fetchWrite] at h
            split at h
            · cases h
            · rename_i hb
              exact .arrives _ hc (.buf rest d (busy_false_iff.1 (Bool.not_eq_true _ ▸ hb))) (fetchMicro_next h)
          | len =>
            simp only [State.fetchWrite] at h
            split at h
            · cases h
            · rename_i hb
              exact .arrives _ hc (.len rest d (busy_false_iff.1 (Bool.not_eq_true _ ▸ hb))) (fetchMicro_next h)
          | status => exact .arrives _ hc (.read rest s.busData) (fetchMicro_next h)
        · cases h
      | regRead w a =>
        simp only [State.fetchStimulus] at h
        split at h
        · exact .arrives _ hc (.read rest _) (fetchMicro_next h)
        · cases h
      | readCounter => exact .arrives _ hc (.read rest s.cc) (fetchMicro_next h)
      | memStore a v =>
        simp only [State.fetchStimulus] at h
        split at h
        · cases h
        · rename_i hb
          refine .arrives _ hc (.store rest a v hs fun hp => ?_) (fetchMicro_next h)
          have hb' : State.busy { s with stimuli := rest } = true := busy_iff.2 hp
          simpa [hb'] using hb
      | clockRate hz => exact .arrives _ hc (.rate rest hz) (fetchMicro_next h)
      | configure px n pin r => exact .arrives _ hc (.configure rest px n pin r) (fetchMicro_next h)
      | reset => cases h; exact .reset rest hs rfl
      | call c =>
        simp only [State.fetchStimulus] at h
        split at h
        · rename_i i hd
          refine .runs i _ rest hc hs (fun _ => ?_) h
          constructor <;> rintro rfl <;>
            (simp only [decode, decodeCall] at hd; split at hd) <;> cases hd
        · cases h
      | cell =>
        simp only [State.fetchStimulus] at h
        split at h
        · exact .runs _ _ rest hc hs (fun hh => absurd rfl hh) h
        · cases h
      | waitIdle =>
        exact .arrives _ hc (.read (if s.busy then .waitIdle :: rest else rest) s.statusWord) (fetchMicro_next h)
    · rw [if_neg hc] at h
      cases st with
      | quiet => exact .driver rest s.fCpu (.inl hc) (fetchDriver_next h)
      | clockRate hz => exact .driver rest hz (.inl hc) (fetchDriver_next h)
      | reset => cases h; exact .reset rest hs rfl
      | _ => exact .driver s.stimuli s.fCpu (.inl hc) (fetchDriver_next h)

/-- `rst` leaves the invariant (R191, R192). -/
theorem resetCycle_inv {s : State} (h : s.mem.wf = true) : s.resetCycle.Inv :=
  ⟨h, ⟨rfl, rfl⟩, (PhaseInv_idle rfl).2 rfl⟩

/-- What arrives keeps the invariant. -/
theorem Arrives.inv {s u : State} (h : Arrives s u) (hc : s.drv.stage = .idle) (hi : s.Inv) : u.Inv := by
  have hrest : s.drv.AtRest := by
    have := hi.2.1; simp only [State.CallInv, hc] at this; exact this
  have rest : ∀ v : State, v.drv.stage = .idle → v.drv.saved = s.drv.saved → v.drv.scratch = s.drv.scratch → v.CallInv := by
    intro v h1 h2 h3
    simp only [State.CallInv, h1]; exact ⟨h2.trans hrest.1, h3.trans hrest.2⟩
  cases h with
  | read r d => exact ⟨hi.1, rest _ hc rfl rfl, phaseInv_of hi.2.2 rfl rfl rfl rfl rfl⟩
  | store r a v hs h =>
    refine ⟨Memory.write_wf hi.1 a v, rest _ hc rfl rfl, phaseInv_of (mem_phaseInv (m := s.mem.write a v) hi.2.2 ?_)
      rfl rfl rfl rfl rfl⟩
    intro hp b hb
    apply Memory.read_write_other
    rintro rfl
    rw [h hp] at hb; cases hb
  | rate r hz => exact ⟨hi.1, rest _ hc rfl rfl, phaseInv_of hi.2.2 rfl rfl rfl rfl rfl⟩
  | configure r px n pin is800 => exact ⟨hi.1, rest _ hc rfl rfl, phaseInv_of hi.2.2 rfl rfl rfl rfl rfl⟩
  | buf r d h => exact ⟨hi.1, rest _ hc rfl rfl, (PhaseInv_idle (by exact h)).2 ((PhaseInv_idle h).1 hi.2.2)⟩
  | len r d h => exact ⟨hi.1, rest _ hc rfl rfl, (PhaseInv_idle (by exact h)).2 ((PhaseInv_idle h).1 hi.2.2)⟩

/-- The registers are reached at offsets 0, 4, 8 and 12 (R29). -/
theorem regAt_k (s : State) (k : Nat) (hk : k = 0 ∨ k = 4 ∨ k = 8 ∨ k = 12) :
    s.regAt .word (s.params.btgBase + BitVec.ofNat 32 k)
      = .ok (if k = 0 then .ctrl else if k = 4 then .buf else if k = 8 then .len else .status) := by
  have : (s.params.btgBase + BitVec.ofNat 32 k - s.params.btgBase).toNat = k := by
    rw [BitVec.add_comm, BitVec.add_sub_cancel, BitVec.toNat_ofNat]; omega
  unfold State.regAt
  simp only [this]
  rcases hk with rfl | rfl | rfl | rfl <;> rfl

/-- R148. -/
theorem scale_toNat (b s : U8) : (scale b s).toNat = b.toNat * s.toNat / 255 := by
  have h1 := b.isLt
  have h2 := s.isLt
  have : b.toNat * s.toNat ≤ 255 * 255 := Nat.mul_le_mul (by omega) (by omega)
  simp only [scale, BitVec.toNat_ofNat]
  omega

end Sys2Proof.Machine
end

