-- ==== Sys2Proof/Laws/Routine.lean ====
section
/-! SUPPORT. The software routine of rule R110 under a hold (R207): which wait ends on resumption, and what a new cell begins
with. -/

namespace Sys2Proof.Machine

@[simp] theorem holdFor_blk (s : State) (n : Nat) : (s.holdFor n).blk = s.blk := rfl
@[simp] theorem holdFor_thr (s : State) (n : Nat) : (s.holdFor n).thr = s.thr := rfl
@[simp] theorem holdFor_gpio (s : State) (n : Nat) : (s.holdFor n).gpio = s.gpio := rfl

/-- What is left of the wait in HIGH after a hold (R207). -/
theorem heldThenResumed_high {s : State} {d : Nat} (hp : s.blk.phase = .high) (hlt : s.elapsed.toNat + d < 4294967296) :
    s.heldThenResumed d =
      if s.thr.toNat ≤ s.elapsed.toNat + d then
        let u : State := { (s.holdFor d).dropLine with blk.phase := .low }
        if s.blk.period.toNat ≤ s.elapsed.toNat + d then u.routineNextCell else u
      else s.holdFor d := by
  have he := holdFor_elapsed hlt
  unfold State.heldThenResumed State.settle
  rw [holdFor_blk, hp]
  simp only [State.endHighWait, holdFor_thr, he]
  split
  · unfold State.endLowWait
    have el : ({ (s.holdFor d).dropLine with blk.phase := .low } : State).elapsed.toNat = s.elapsed.toNat + d := he
    rw [el]; rfl
  · rfl

/-- What is left of the wait in LOW after a hold (R207). -/
theorem heldThenResumed_low {s : State} {d : Nat} (hp : s.blk.phase = .low) (hlt : s.elapsed.toNat + d < 4294967296) :
    s.heldThenResumed d
      = if s.blk.period.toNat ≤ s.elapsed.toNat + d then (s.holdFor d).routineNextCell else s.holdFor d := by
  unfold State.heldThenResumed State.settle
  rw [holdFor_blk, hp]
  simp only [State.endLowWait, holdFor_blk, holdFor_elapsed hlt]

/-- The cell that begins when the routine drives the line high meets rule R40. -/
theorem routineRise_phaseInv {v : State} (hT : v.TransmissionInv) (hg : v.gpio = 0) : v.routineRise.PhaseInv := by
  rw [PhaseInv_high rfl]
  refine ⟨hT, ?_, ?_⟩
  · show Lines.drive v.gpio v.blk.pinL true = Lines.drive 0 v.blk.pinL true
    rw [hg]
  · have : v.routineRise.elapsed = 0 := by show v.cc - v.cc = 0; rw [BitVec.sub_self]; rfl
    rw [this]; exact (TransmissionInv_thr hT).1

/-- What is left of the frame when the routine drives the line high: the whole cell, and the cells after it. -/
theorem routineRise_remaining (v : State) :
    v.routineRise.remaining
      = ((v.blk.lenL.toNat - 1 - v.blk.byteIdx.toNat) * 8 + v.blk.bitIdx.toNat) * v.blk.period.toNat
        + v.blk.period.toNat := by
  have : v.routineRise.elapsed = 0 := by show v.cc - v.cc = 0; rw [BitVec.sub_self]; rfl
  rw [State.remaining, if_pos (show v.routineRise.busy = true from rfl), this]; rfl

/-- Everything the end of a low wait can do (R110): the next bit, the next byte, or the end of the routine. -/
theorem routineNextCell_cases (u : State) :
    (u.blk.bitIdx ≠ 0 ∧ u.routineNextCell = State.routineRise { u with blk.bitIdx := u.blk.bitIdx - 1 })
    ∨ (u.blk.bitIdx = 0 ∧ u.blk.byteIdx.toNat + 1 ≠ u.blk.lenL.toNat
        ∧ u.routineNextCell = State.routineRise
          { u with
            blk.pix := u.mem.read u.nextByteAddr
            blk.byteIdx := u.blk.byteIdx + 1
            blk.bitIdx := 7
            obs.reads := u.nextByteAddr :: u.obs.reads })
    ∨ (u.blk.bitIdx = 0 ∧ u.blk.byteIdx.toNat + 1 = u.blk.lenL.toNat
        ∧ u.routineNextCell = { u with blk.phase := .idle }) := by
  by_cases hz : u.blk.bitIdx = 0
  · by_cases hy : u.blk.byteIdx.toNat + 1 = u.blk.lenL.toNat
    · exact .inr (.inr ⟨hz, hy, by simp [State.routineNextCell, State.lastBit, State.lastByte, hz, hy]⟩)
    · exact .inr (.inl ⟨hz, hy, by simp [State.routineNextCell, State.lastBit, State.lastByte, hz, hy]⟩)
  · refine .inl ⟨hz, ?_⟩
    have : u.lastBit = false := by simpa [State.lastBit] using hz
    simp [State.routineNextCell, this]

end Sys2Proof.Machine
end

