-- ==== Sys2Proof/Tests/Slice0.lean ====
section
/-! SUPPORT. The model's own tests: ill-formed terms and words, one written-out word per constructor, one-step tests with the
expected values of spec/95_test_vectors.md, and a witness for the hypotheses of every statement. -/

namespace Sys2Proof.Tests

open Sys2Proof.Machine

-- The theorems below are checked one after the other: side by side they would need a thread each.
set_option Elab.async false

/-! ### Helpers -/

/-- The outcome is a next state of which `f` holds. -/
def nextIs (o : Host.Outcome State Fault Refusal) (f : State → Bool) : Bool :=
  match o with
  | .next t => f t
  | .fault _ => false
  | .refused _ => false

/-- The outcome is this refusal. -/
def refusedAs (o : Host.Outcome State Fault Refusal) (r : Refusal) : Bool :=
  match o with
  | .next _ => false
  | .fault _ => false
  | .refused q => q == r

/-- Vector tables B2 and C of spec/95: 17 lines; 256 bytes from the stack (B8); the smallest legal clock (B1, row 12). -/
def lab : State :=
  { State.reset with
    params := { Params.standard with npins := 17, stackThreshold := 256 }
    fCpu := 2500000
    cc := 7 }

/-- The host has written `BUF` and `LEN`. -/
def ready (buf : U32) (len : U16) : State :=
  { lab with
    blk := { Block.reset with buf := buf, len := len }
    bufWritten := true
    lenWritten := true
    mem := [(buf.toNat, 0x81)] }

/-- In a transmission at 80 MHz and 800 kHz (B1, row 1) of three bytes at 0x100 on line 2, `e` cycles into a cell. -/
def busyAt (phase : Phase) (pix : U8) (bitIdx : BitVec 3) (byteIdx : U16) (e : U32) : State :=
  { lab with
    blk := {
      phase := phase, pix := pix, bitIdx := bitIdx, byteIdx := byteIdx, startTime := 0xFFFFFFF0#32, pinL := 2
      bufL := 0x100, lenL := 3, is800L := true, time0 := 32, time1 := 64, period := 100, buf := 0x100, len := 3 }
    cc := 0xFFFFFFF0#32 + e
    gpio := if phase = .high then 4 else 0
    mem := if pix = 0 then [] else [(256 + byteIdx.toNat, pix)]
    bufWritten := true
    lenWritten := true }

/-- The driver holds two bytes 0xFF, 0x80 at 0x200 for line 3 at 800 kHz. -/
def painted (brightness : U8) : State :=
  { lab with
    mem := [(512, 0xFF), (513, 0x80)]
    drv := { lab.drv with pixels := some 0x200, numBytes := 2, pin := 3, brightness := brightness } }

/-- `painted`, in a SHOW that has reached `stage`, with a scratch buffer at 0x300; `swapped`: the pointers are swapped. -/
def calling (brightness : U8) (stage : CallStage) (swapped : Bool) : State :=
  { painted brightness with
    drv := {
      (painted brightness).drv with
      stage := stage
      scratch := some { base := 0x300, place := .stack }
      pixels := some (if swapped then 0x300 else 0x200)
      saved := if swapped then some 0x200 else none } }

/-- The last cycle of a transmission of `busyAt`, beside the driver of `s`. -/
def lastBusyCycle (s : State) : State := { busyAt .low 0 0 2 99 with drv := s.drv }

/-- `s`, with `st` arriving next. -/
def arriving (s : State) (st : Stimulus) : State := { s with stimuli := [st] }

/-! ### WellFormed: the term each check refuses (R72, R78; NPINS = 17 as in table B2) -/

theorem test_wellFormed_pin_out_of_range :
    (Instr.tx800 17).wellFormed lab.params = false ∧ (Instr.tx400 17).wellFormed lab.params = false
      ∧ (Instr.tx800 16).wellFormed lab.params = true ∧ (Instr.tx400 16).wellFormed lab.params = true := by decide

/-! ### Decoding: a word for every constructor, written out from R71, R84 and R85, and the words no instruction has -/

theorem test_decode_tx800 : decode (.ctrl 0b00000000000000000000000000001011#32) = .ok (.tx800 2) := by decide
theorem test_decode_tx400 : decode (.ctrl 0b00000000000000000000000001000001#32) = .ok (.tx400 16) := by decide
theorem test_decode_ctrlNop : decode (.ctrl 0b00000000000000000000000011111110#32) = .ok (.ctrlNop 0b1111111) := by decide
theorem test_decode_sym0 : decode (.cell false) = .ok .sym0 := by decide
theorem test_decode_sym1 : decode (.cell true) = .ok .sym1 := by decide
theorem test_decode_idleHold : decode (.seq 0b00101#5) = .ok (.idleHold 0b101) := by decide
theorem test_decode_highHold : decode (.seq 0b01010#5) = .ok (.highHold 0b10) := by decide
theorem test_decode_fall : decode (.seq 0b01101#5) = .ok (.fall 0b01) := by decide
theorem test_decode_lowHold : decode (.seq 0b10001#5) = .ok (.lowHold 0b01) := by decide
theorem test_decode_nextBit : decode (.seq 0b10101#5) = .ok (.nextBit 0b1) := by decide
theorem test_decode_nextByte : decode (.seq 0b10110#5) = .ok .nextByte := by decide
theorem test_decode_finish : decode (.seq 0b10111#5) = .ok .finish := by decide
theorem test_decode_showFrame : decode (.call 0b011111111#9) = .ok (.showFrame 0xFF) := by decide
theorem test_decode_setBrightness : decode (.call 0b110000000#9) = .ok (.setBrightness 128) := by decide

/-- Table B2, rows 7 and 8: one reserved bit, the lowest and the highest. -/
theorem test_decode_reserved :
    decode (.ctrl 0x00000100#32) = .error .reservedCommand ∧ decode (.ctrl 0x80000003#32) = .error .reservedCommand := by
  decide

/-- R84: `phase` = 11 does not occur. -/
theorem test_decode_noSuchPhase :
    decode (.seq 0b11000#5) = .error .noSuchPhase ∧ decode (.seq 0b11111#5) = .error .noSuchPhase := by decide

/-! ### One step of each instruction -/

/-- R112's example: `cc` 1000, word 0x0000000B, 80 MHz, three bytes. -/
theorem test_tx800_starts :
    nextIs (step (arriving { ready 0x3FFE8000 3 with fCpu := 80000000, cc := 1000 } (.regWrite .word 0 0x0000000B)))
      (fun t => t.blk.phase == .high && t.blk.startTime == 1001 && t.gpio == 4 && t.blk.time0 == 32 && t.blk.time1 == 64
        && t.blk.period == 100 && t.cc == 1001 && t.blk.pix == 0x81 && t.statusWord == 3) = true := by decide +kernel

/-- Table B5, row 5: three bytes at 0xFFFFFFFE run past the top. -/
theorem test_tx800_past_top : refusedAs (exec (.tx800 2) (ready 0xFFFFFFFE 3)) .bufferPastTop = true := by decide +kernel

/-- Table B1, row 2, by the word 0x00000041. -/
theorem test_tx400_starts :
    nextIs (step (arriving { ready 0 1 with fCpu := 80000000 } (.regWrite .word 0 0x00000041)))
      (fun t => t.blk.time0 == 40 && t.blk.time1 == 96 && t.blk.period == 200 && t.gpio == 0x10000 && !t.blk.is800L) = true := by
  decide +kernel

/-- Table B1, row 15: 1 999 999 Hz. -/
theorem test_tx400_illegal_clock :
    refusedAs (exec (.tx400 0) { ready 0 1 with fCpu := 1999999 }) .illegalTiming = true := by decide +kernel

/-- R114's example: 0x00000008 while idle changes nothing. -/
theorem test_ctrlNop_nothing :
    nextIs (step (arriving (ready 0x40 1) (.regWrite .word 0 0x00000008)))
      (fun t => t == { ready 0x40 1 with cc := 8 }) = true := by decide +kernel

/-- R114: while busy it is `refuse`. -/
theorem test_ctrlNop_busy :
    refusedAs (step (arriving (busyAt .low 0 0 0 70) (.regWrite .word 0 0x00000008))) .registerWriteWhileBusy = true := by
  decide +kernel

/-- R128's example: H 32, L 68. -/
theorem test_sym0_cell :
    nextIs (step (arriving (busyAt .high 0 7 0 0) .cell))
      (fun t => t.obs.wave == [⟨false, 68⟩, ⟨true, 32⟩] && t.blk.bitIdx == 6 && t.cc == 0x54) = true := by decide +kernel

/-- R129's example: H 64, L 36. -/
theorem test_sym1_cell :
    nextIs (step (arriving (busyAt .high 0xFF 7 0 0) .cell))
      (fun t => t.obs.wave == [⟨false, 36⟩, ⟨true, 64⟩] && t.blk.bitIdx == 6 && t.gpio == 4) = true := by decide +kernel

/-- Table B2, row 11. -/
theorem test_idleHold_counts : nextIs (step lab) (fun t => t == { lab with cc := 8 }) = true := by decide +kernel

/-- Table B2, row 14: a 1 bit, `e` = 31. -/
theorem test_highHold_stays :
    nextIs (step (busyAt .high 0xFF 7 0 31)) (fun t => t.blk.phase == .high && t.gpio == 4) = true := by decide +kernel

/-- Table B2, row 13: a 0 bit, `e` = 31. -/
theorem test_fall_at_equality :
    nextIs (step (busyAt .high 0 7 0 31)) (fun t => t.blk.phase == .low && t.gpio == 0 && t.statusWord == 1) = true := by
  decide +kernel

/-- Table B2, row 20: `e` = 98 in the last cell. -/
theorem test_lowHold_stays :
    nextIs (step (busyAt .low 0 0 2 98)) (fun t => t.blk.phase == .low && t.statusWord == 1) = true := by decide +kernel

/-- Table B2, row 17: `e` = 99, `bitIdx` = 3. -/
theorem test_nextBit_rises :
    nextIs (step (busyAt .low 0 3 0 99))
      (fun t => t.blk.phase == .high && t.blk.bitIdx == 2 && t.gpio == 4 && t.blk.startTime == 0x54) = true := by
  decide +kernel

/-- Table B2, row 18: `e` = 99, `bitIdx` = 0, `byteIdx` = 0. -/
theorem test_nextByte_reads :
    nextIs (step { busyAt .low 0 0 0 99 with mem := [(257, 0xC3)] })
      (fun t => t.blk.pix == 0xC3 && t.blk.byteIdx == 1 && t.blk.bitIdx == 7 && t.gpio == 4 && t.obs.reads == [0x101]) = true := by
  decide +kernel

/-- Table B2, row 19: `e` = 99, `bitIdx` = 0, `byteIdx` = 2. -/
theorem test_finish_ends :
    nextIs (step (busyAt .low 0 0 2 99)) (fun t => t.blk.phase == .idle && t.statusWord == 0 && t.gpio == 0) = true := by
  decide +kernel

/-- Table B8, row 2: at full brightness nothing is allocated, and the block is given the caller's own buffer. -/
theorem test_show_full_brightness :
    nextIs (step (arriving (painted 255) (.call 0x000))) (fun t => t.drv.stage == .waitIdle && t.alloc == lab.alloc) = true
      ∧ nextIs (step { ready 0x200 2 with drv := { (painted 255).drv with stage := .writeCtrl } })
        (fun t => t.busy && t.blk.bufL == 0x200 && t.blk.lenL == 2 && t.blk.pinL == 3 && t.drv.stage == .waitDone) = true := by
  decide +kernel

/-- Source example E1 on two bytes: at 128 the scratch buffer gets 0xFF, 0x80, then 0x80, 0x40; the caller's bytes stay. -/
theorem test_show_scaled :
    nextIs (step (calling 128 .copy false))
        (fun t => t.mem == [(512, 0xFF), (513, 0x80), (768, 0xFF), (769, 0x80)] && t.drv.pixels == some 0x300
          && t.drv.saved == some 0x200) = true
      ∧ nextIs (step { calling 128 .scale true with mem := [(512, 0xFF), (513, 0x80), (768, 0xFF), (769, 0x80)] })
        (fun t => t.mem == [(512, 0xFF), (513, 0x80), (768, 0x80), (769, 0x40)] && t.drv.stage == .waitIdle) = true := by
  decide +kernel

/-- Table B2, row 24; the call takes a cycle (log 13). -/
theorem test_setBrightness :
    nextIs (step (arriving lab (.call 0x180))) (fun t => t.drv.brightness == 128 && t.cc == 8) = true := by decide +kernel

/-- In a call the host's own store waits, `f_cpu` arrives, and `rst` ends the call (log 1). -/
theorem test_call_inputs :
    nextIs (step (arriving (calling 128 .swapBack true) (.memStore 0x200 1)))
        (fun t => t.stimuli == [.memStore 0x200 1] && t.drv.pixels == some 0x200 && t.mem.read 0x200 == 0xFF) = true
      ∧ nextIs (step (arriving (calling 128 .free false) (.clockRate 80000000)))
        (fun t => t.stimuli == [] && t.fCpu == 80000000 && t.drv.scratch == none && t.drv.stage == .idle) = true
      ∧ nextIs (step (arriving (calling 128 .waitDone true) .reset))
        (fun t => t.drv.stage == .idle && t.drv.pixels == none) = true := by decide +kernel

/-- Table B6: the tie and its neighbours. -/
theorem test_readHigh :
    readHigh ⟨32, 64, 100⟩ 47 = some false ∧ readHigh ⟨32, 64, 100⟩ 49 = some true ∧ readHigh ⟨32, 64, 100⟩ 48 = none := by
  decide

/-- R206: between two frames the cycle of the second START is idle, and the latch time is counted without it: one idle cycle keeps
a latch time of 0 and not of 1, two keep 1. -/
theorem test_gapsKept :
    gapsKept 0 none [true, false, true] = true ∧ gapsKept 1 none [true, false, true] = false
      ∧ gapsKept 1 none [true, false, false, true] = true := by decide

/-! ### Placing a word (log 22): the next step runs it -/

theorem test_withFetchWord :
    nextIs (step (State.reset.withFetchWord 32 0x3)) (fun t => t.blk.is800L) = true
      ∧ nextIs (step (State.reset.withFetchWord 9 0x180)) (fun t => t.drv.brightness == 128) = true
      ∧ nextIs (step (State.reset.withFetchWord 5 0b01100)) (fun t => t.blk.phase == .low) = true := by decide +kernel

/-! ### Witnesses: for every statement with hypotheses, a concrete state and operands that meet all of them, for each clause -/

/-- A START of one byte at the top of the address space, on the last line, at the smallest legal clock. -/
def lastByte : State := ready 0xFFFFFFFF 1

/-- The state after that START. -/
def lastByteStarted : State := lastByte.endCycle (lastByte.startEffect 16 true)

theorem lastByte_legal : lastByte.StartLegal 16 true := by unfold State.StartLegal; decide +kernel

theorem lastByte_start : exec (.tx800 16) lastByte = .next lastByteStarted := start_legal lastByte_legal

theorem busyHigh_inv : (busyAt .high 0 7 0 31).Inv := by
  refine ⟨by decide +kernel, ⟨rfl, rfl⟩, (PhaseInv_high rfl).2 ⟨?_, by decide +kernel, by decide +kernel⟩⟩
  unfold State.TransmissionInv; decide +kernel

theorem busyLow_inv : (busyAt .low 0 0 2 99).Inv := by
  refine ⟨by decide +kernel, ⟨rfl, rfl⟩, (PhaseInv_low rfl).2 ⟨?_, by decide +kernel, by decide +kernel, by decide +kernel⟩⟩
  unfold State.TransmissionInv; decide +kernel

theorem lastCell_finish : exec .finish (busyAt .low 0 0 2 99) = .next (busyAt .low 0 0 2 99).finishCycle := by
  rw [exec, execFinish, if_pos]
  decide +kernel

theorem test_witness_ResetLeavesTheBlockIdleAndEveryLineLow : 16 ≤ 16 ∧ 16 ≤ 31 := by decide

theorem test_witness_EveryStepKeepsTheInvariant :
    (busyAt .high 0 7 0 31).Inv ∧ ∃ t, step (busyAt .high 0 7 0 31) = .next t :=
  ⟨busyHigh_inv, _, step_noStimulus _ rfl rfl fun _ => by decide⟩

theorem test_witness_EveryTransmissionEnds : (busyAt .low 0 0 2 99).Inv ∧ (busyAt .low 0 0 2 99).stimuli = []
    ∧ (busyAt .low 0 0 2 99).drv.stage = .idle := ⟨busyLow_inv, rfl, rfl⟩

theorem test_witness_NoStepChangesAParameter : ∃ t, step (arriving lab (.call 0x180)) = .next t := ⟨_, rfl⟩

theorem test_witness_StepRunsTheDecodedInstruction :
    (decode (.ctrl 0x0000000B#32) = .ok (.tx800 2) ∧ lab.drv.stage = .idle
      ∧ (arriving lab (.regWrite .word 0 0x0B)).stimuli = [.regWrite .word lab.params.btgBase 0x0000000B#32])
    ∧ ((arriving lab (.call 0x1FF)).stimuli = [.call 0x1FF#9] ∧ decode (.call 0x1FF#9) = .ok (.setBrightness 255))
    ∧ ((arriving (busyAt .high 0xFF 7 0 0) .cell).stimuli = [.cell] ∧ (busyAt .high 0xFF 7 0 0).drv.stage = .idle
      ∧ decode (.cell (arriving (busyAt .high 0xFF 7 0 0) .cell).dataBit) = .ok .sym1)
    ∧ (lab.stimuli = [] ∧ decode (.seq lab.selectVector) = .ok (.idleHold 0b110))
    ∧ ((arriving (busyAt .low 0 0 2 99) .quiet).stimuli = [.quiet] ∧ (busyAt .low 0 0 2 99).drv.stage = .idle
      ∧ decode (.seq (arriving (busyAt .low 0 0 2 99) .quiet).selectVector) = .ok .finish)
    ∧ (∀ stage ∈ [CallStage.waitIdle, .waitDone], ∀ s, s = lastBusyCycle (calling 128 stage true) →
      s.drv.stage = stage ∧ s.stimuli = [] ∧ decode (.seq s.selectVector) = .ok .finish)
    ∧ ((calling 128 .writeCtrl true).drv.stage = .writeCtrl ∧ (calling 128 .writeCtrl true).stimuli = [])
    ∧ ((arriving (calling 128 .free false) (.call 0)).drv.stage ≠ .idle ∧ Stimulus.waitsForCall (.call 0) = true
      ∧ (arriving (calling 128 .free false) (.call 0)).stimuli = [.call 0]
      ∧ nextIs (step (arriving (calling 128 .free false) (.call 0))) (fun _ => true) = true) := by
  refine ⟨by decide +kernel, by decide +kernel, by decide +kernel, by decide +kernel, by decide +kernel, ?_, by decide +kernel,
    by decide +kernel⟩
  rintro stage h s rfl; revert stage; decide +kernel

theorem test_witness_ExactlyOneMicroOperationApplies :
    (busyAt .low 0 0 2 99).blk.phase ≠ .idle
      ∧ (busyAt .low 0 0 2 99).blk.byteIdx.toNat < (busyAt .low 0 0 2 99).blk.lenL.toNat
      ∧ decode (.seq 0b10111#5) = .ok .finish
      ∧ exec .finish (busyAt .low 0 0 2 99) = .next (busyAt .low 0 0 2 99).finishCycle :=
  ⟨by decide, by decide, rfl, lastCell_finish⟩

theorem test_witness_CounterCountsEveryCycle :
    (lab.nextIsCycle = true ∧ lab.resetArrives = false ∧ ∃ t, step lab = .next t)
      ∧ (arriving lab .readCounter).drv.stage = .idle ∧ (arriving lab .readCounter).stimuli = [.readCounter] :=
  ⟨⟨rfl, rfl, _, step_noStimulus _ rfl rfl fun h => absurd rfl h⟩, rfl, rfl⟩

theorem test_witness_Tx800StartsATransmission :
    (lastByte.StartLegal 16 true ∧ lastByte.blk.len ≠ 0) ∧ ((ready 0 0).StartLegal 0 true ∧ (ready 0 0).blk.len = 0) := by
  unfold State.StartLegal; decide +kernel

theorem test_witness_Tx400StartsATransmission :
    (lastByte.StartLegal 16 false ∧ lastByte.blk.len ≠ 0)
      ∧ (State.StartLegal { ready 0 0 with fCpu := 2000000 } 0 false ∧ (ready 0 0).blk.len = 0) := by
  unfold State.StartLegal; decide +kernel

/-- Clauses (a), (c), (d), (e), each just beyond its boundary, and a reserved word while idle and while busy. -/
theorem test_witness_StartIsRefusedInRuleOrder :
    (busyAt .low 0 0 2 99).blk.phase ≠ .idle
      ∧ (lab.blk.phase = .idle ∧ lab.params.npins ≤ (17#6).toNat)
      ∧ (lab.blk.phase = .idle ∧ (16#6).toNat < lab.params.npins
          ∧ State.timingLegal { lab with fCpu := 2499999 } true = false
          ∧ State.timingLegal { lab with fCpu := 1999999 } false = false)
      ∧ ((ready 0xFFFFFFFE 3).timingLegal true = true ∧ (ready 0xFFFFFFFE 3).timingLegal false = true
          ∧ 4294967296 < (ready 0xFFFFFFFE 3).blk.buf.toNat + (ready 0xFFFFFFFE 3).blk.len.toNat)
      ∧ (lab.drv.stage = .idle ∧ (busyAt .low 0 0 2 99).drv.stage = .idle
          ∧ 0x80000003#32 &&& 0xFFFFFF00#32 ≠ 0 ∧ 0x80000003#32 &&& 1#32 = 1
          ∧ (arriving lab (.regWrite .word 0 0x80000003)).stimuli = [.regWrite .word lab.params.btgBase 0x80000003#32]
          ∧ (arriving (busyAt .low 0 0 2 99) (.regWrite .word 0 0x101)).stimuli
              = [.regWrite .word (busyAt .low 0 0 2 99).params.btgBase 0x00000101#32]) := by decide +kernel

theorem test_witness_StartBeforeTheOperandsIsRefused :
    lab.blk.phase = .idle ∧ (16#6).toNat < lab.params.npins ∧ fitsSpace lab.blk.buf lab.blk.len.toNat = true
      ∧ lab.bufWritten = false ∧ State.lenWritten { lab with bufWritten := true } = false
      ∧ lab.timingLegal true = true ∧ lab.timingLegal false = true := by decide +kernel

theorem test_witness_CtrlNopChangesNothing :
    lab.blk.phase = .idle ∧ (busyAt .low 0 0 2 99).blk.phase ≠ .idle := by decide

theorem test_witness_TimingTableRows :
    ∃ n : Bool → Nat → Nominal, n = fun r f => nominal Params.standard r (BitVec.ofNat 32 f) := ⟨_, rfl⟩

theorem test_witness_ClockRateIsNotReadWhileBusy :
    (arriving (busyAt .high 0 7 0 31) (.clockRate 160000000)).stimuli = [.clockRate 160000000#32]
      ∧ (arriving (busyAt .high 0 7 0 31) (.clockRate 160000000)).drv.stage = .idle
      ∧ (arriving (busyAt .high 0 7 0 31) (.clockRate 160000000)).blk.phase ≠ .idle
      ∧ ∃ t, step (arriving (busyAt .high 0 7 0 31) (.clockRate 160000000)) = .next t :=
  ⟨rfl, rfl, by decide, _, rfl⟩

theorem test_witness_IdleHoldOnlyCounts : lab.blk.phase = .idle := rfl

/-- `e` = 30: the last cycle before the threshold of a 0 bit, 32, is reached. -/
theorem test_witness_HighHoldOnlyCounts :
    (busyAt .high 0 7 0 30).blk.phase = .high
      ∧ (busyAt .high 0 7 0 30).elapsed.toNat + 1 < (busyAt .high 0 7 0 30).thr.toNat ∧ (busyAt .high 0 7 0 30).Inv := by
  refine ⟨rfl, by decide +kernel, by decide +kernel, ⟨rfl, rfl⟩,
    (PhaseInv_high rfl).2 ⟨?_, by decide +kernel, by decide +kernel⟩⟩
  unfold State.TransmissionInv; decide +kernel

/-- `e` = 98: the last cycle before the period, 100, is reached. -/
theorem test_witness_LowHoldOnlyCounts :
    (busyAt .low 0 0 2 98).blk.phase = .low
      ∧ (busyAt .low 0 0 2 98).elapsed.toNat + 1 < (busyAt .low 0 0 2 98).blk.period.toNat ∧ (busyAt .low 0 0 2 98).Inv := by
  refine ⟨rfl, by decide +kernel, by decide +kernel, ⟨rfl, rfl⟩,
    (PhaseInv_low rfl).2 ⟨?_, by decide +kernel, by decide +kernel, by decide +kernel⟩⟩
  unfold State.TransmissionInv; decide +kernel

theorem test_witness_FallDrivesTheLineLow :
    (busyAt .high 0 7 0 31).blk.phase = .high
      ∧ (busyAt .high 0 7 0 31).thr.toNat ≤ (busyAt .high 0 7 0 31).elapsed.toNat + 1 ∧ (busyAt .high 0 7 0 31).Inv :=
  ⟨rfl, by decide +kernel, busyHigh_inv⟩

theorem test_witness_NextBitBeginsTheNextCell :
    (busyAt .low 0 1 0 99).blk.phase = .low
      ∧ (busyAt .low 0 1 0 99).blk.period.toNat ≤ (busyAt .low 0 1 0 99).elapsed.toNat + 1
      ∧ 0 < (busyAt .low 0 1 0 99).blk.bitIdx.toNat := by decide +kernel

theorem test_witness_NextByteReadsAndBeginsItsFirstCell :
    (busyAt .low 0 0 1 99).blk.phase = .low
      ∧ (busyAt .low 0 0 1 99).blk.period.toNat ≤ (busyAt .low 0 0 1 99).elapsed.toNat + 1
      ∧ (busyAt .low 0 0 1 99).blk.bitIdx = 0
      ∧ (busyAt .low 0 0 1 99).blk.byteIdx.toNat + 1 < (busyAt .low 0 0 1 99).blk.lenL.toNat := by decide +kernel

theorem test_witness_FinishEndsTheTransmission :
    (busyAt .low 0 0 2 99).blk.phase = .low
      ∧ (busyAt .low 0 0 2 99).blk.period.toNat ≤ (busyAt .low 0 0 2 99).elapsed.toNat + 1
      ∧ (busyAt .low 0 0 2 99).blk.bitIdx = 0
      ∧ (busyAt .low 0 0 2 99).blk.byteIdx.toNat + 1 = (busyAt .low 0 0 2 99).blk.lenL.toNat
      ∧ (busyAt .low 0 0 2 99).Inv :=
  ⟨rfl, by decide +kernel, rfl, rfl, busyLow_inv⟩

/-- R132's example, across the wrap, and the largest count. -/
theorem test_witness_ElapsedCountIsExactAcrossTheWrap :
    (31 < 4294967296 ∧ 0x0000000F#32 = 0xFFFFFFF0#32 + BitVec.ofNat 32 31)
      ∧ (4294967295 < 4294967296 ∧ 0xFFFFFFEF#32 = 0xFFFFFFF0#32 + BitVec.ofNat 32 4294967295) := by decide

/-- A bit that is not the last of its byte, the last bit of a byte that is not the last, and the last bit of the frame. -/
theorem test_witness_Sym0IsOneCell :
    ∀ k ∈ [(1, 0), (0, 1), (0, 2)], ∀ s, s = busyAt .high 0 (BitVec.ofNat 3 k.1) (BitVec.ofNat 16 k.2) 0 →
      s.blk.phase = .high ∧ s.blk.startTime = s.cc ∧ s.lineLevel = true ∧ s.dataBit = false ∧ 1 ≤ s.blk.time0.toNat
        ∧ s.blk.time0.toNat < s.blk.period.toNat ∧ s.recordEndsLow = true := by
  rintro k hk s rfl; revert k; decide +kernel

theorem test_witness_Sym1IsOneCell :
    ∀ k ∈ [(1, 0), (0, 1), (0, 2)], ∀ s, s = busyAt .high 0xFF (BitVec.ofNat 3 k.1) (BitVec.ofNat 16 k.2) 0 →
      s.blk.phase = .high ∧ s.blk.startTime = s.cc ∧ s.lineLevel = true ∧ s.dataBit = true ∧ 1 ≤ s.blk.time1.toNat
        ∧ s.blk.time1.toNat < s.blk.period.toNat ∧ s.recordEndsLow = true := by
  rintro k hk s rfl; revert k; decide +kernel

theorem test_witness_SymbolEqualsItsCycles :
    (busyAt .high 0 0 2 0).stimuli = [] ∧ (busyAt .high 0 0 2 0).drv.stage = .idle
      ∧ (busyAt .high 0 0 2 0).blk.byteIdx.toNat < (busyAt .high 0 0 2 0).blk.lenL.toNat
      ∧ ∃ t, exec (if false then .sym1 else .sym0) (busyAt .high 0 0 2 0) = .next t :=
  ⟨rfl, rfl, by decide, _, rfl⟩

theorem test_witness_LineFollowsTheClosedForm :
    lastByte.stimuli = [] ∧ lastByte.drv.stage = .idle ∧ lastByte.blk.len ≠ 0
      ∧ exec (if true then .tx800 16 else .tx400 16) lastByte = .next lastByteStarted
      ∧ 23 < 8 * lastByte.blk.len.toNat * lastByteStarted.blk.period.toNat
      ∧ 8 * lastByte.blk.len.toNat * lastByteStarted.blk.period.toNat ≤ 24 :=
  ⟨rfl, rfl, by decide, lastByte_start, by decide +kernel, by decide +kernel⟩

theorem test_witness_FrameIsSentExactly :
    lastByte.stimuli = [] ∧ lastByte.drv.stage = .idle ∧ lastByte.blk.len ≠ 0
      ∧ exec (if true then .tx800 16 else .tx400 16) lastByte = .next lastByteStarted :=
  ⟨rfl, rfl, by decide, lastByte_start⟩

/-- The same byte elsewhere, on another line, with the counter elsewhere. -/
theorem test_witness_WaveformDependsOnClockRateAndBytesOnly :
    ∃ s' t' u u' : State, s' = { ready 0 1 with cc := 0xFFFFFFF0#32 }
      ∧ lastByte.stimuli = [] ∧ s'.stimuli = [] ∧ lastByte.drv.stage = .idle ∧ s'.drv.stage = .idle
      ∧ lastByte.blk.len ≠ 0 ∧ s'.params = lastByte.params
      ∧ s'.fCpu = lastByte.fCpu ∧ s'.blk.len = lastByte.blk.len
      ∧ s'.mem.bytes s'.blk.buf s'.blk.len.toNat = lastByte.mem.bytes lastByte.blk.buf lastByte.blk.len.toNat
      ∧ exec (if true then .tx800 16 else .tx400 16) lastByte = .next lastByteStarted
      ∧ exec (if true then .tx800 0 else .tx400 0) s' = .next t'
      ∧ 24 = 8 * lastByte.blk.len.toNat * lastByteStarted.blk.period.toNat
      ∧ Host.Core.run Sys2Proof.core 24 lastByteStarted = .next u ∧ Host.Core.run Sys2Proof.core 24 t' = .next u' := by
  have hl : State.StartLegal { ready 0 1 with cc := 0xFFFFFFF0#32 } 0 true := by unfold State.StartLegal; decide +kernel
  exact ⟨_, _, _, _, rfl, rfl, rfl, rfl, rfl, by decide, rfl, rfl, rfl, by decide +kernel, lastByte_start, start_legal hl,
    by decide +kernel, run_noStimulus _ _ rfl rfl fun _ => by decide +kernel,
    run_noStimulus _ _ rfl rfl fun _ => by decide +kernel⟩

theorem test_witness_FrameDurationIsIndependentOfTheBits : 1 < 2 ∧ 2 < 3 := by decide

/-- `COMP` = 15 is the largest below (64 - 32) / 2 (table B6); 47, 49 and the tie 48. -/
theorem test_witness_FrameReadsBackAsItsBits :
    (Nominal.legal ⟨32, 64, 100⟩ 15 = true ∧ 2 * 15 < 64 - 32) ∧ distance 47 32 < distance 47 64
      ∧ distance 49 64 < distance 49 32 ∧ distance 48 32 = distance 48 64 := by decide

/-- In the high wait the last hold that disturbs nothing, one to `thr` (32), one to `period` - 1; in the low wait one to `period` - 1;
and to `period` (100) exactly, for a bit within a byte, the end of a byte and the end of the frame. -/
theorem test_witness_HoldDistortsTheSoftwareRoutine :
    (busyAt .high 0 7 0 31).Inv ∧ (busyAt .low 0 0 2 99).Inv ∧ (busyAt .high 0 7 0 31).blk.phase ≠ .idle
      ∧ (busyAt .high 0 7 0 31).elapsed.toNat + 0 < (busyAt .high 0 7 0 31).thr.toNat
      ∧ (busyAt .high 0 7 0 31).thr.toNat ≤ (busyAt .high 0 7 0 31).elapsed.toNat + 1
      ∧ (busyAt .high 0 7 0 31).elapsed.toNat + 68 < (busyAt .high 0 7 0 31).blk.period.toNat
      ∧ (busyAt .low 0 0 2 99).elapsed.toNat + 0 < (busyAt .low 0 0 2 99).blk.period.toNat
      ∧ ((busyAt .high 0 7 0 31).blk.period.toNat ≤ (busyAt .high 0 7 0 31).elapsed.toNat + 69
        ∧ (busyAt .high 0 7 0 31).elapsed.toNat + 69 < 4294967296 ∧ (busyAt .high 0 7 0 31).blk.bitIdx ≠ 0)
      ∧ ((busyAt .low 0 0 2 99).blk.period.toNat ≤ (busyAt .low 0 0 2 99).elapsed.toNat + 1
        ∧ (busyAt .low 0 0 2 99).blk.bitIdx = 0 ∧ (busyAt .low 0 0 2 99).blk.byteIdx.toNat + 1 = (busyAt .low 0 0 2 99).blk.lenL.toNat)
      ∧ ((busyAt .low 0 0 1 99).blk.period.toNat ≤ (busyAt .low 0 0 1 99).elapsed.toNat + 1
        ∧ (busyAt .low 0 0 1 99).blk.bitIdx = 0
        ∧ (busyAt .low 0 0 1 99).blk.byteIdx.toNat + 1 ≠ (busyAt .low 0 0 1 99).blk.lenL.toNat
        ∧ (busyAt .low 0 0 1 99).Inv) := by
  refine ⟨busyHigh_inv, busyLow_inv, by decide, by decide +kernel, by decide +kernel, by decide +kernel, by decide +kernel,
    by decide +kernel, by decide +kernel, by decide +kernel, rfl, by decide +kernel, by decide +kernel, ⟨rfl, rfl⟩,
    (PhaseInv_low rfl).2 ⟨?_, by decide +kernel, by decide +kernel, by decide +kernel⟩⟩
  unfold State.TransmissionInv; decide +kernel

theorem test_witness_OnlyTheSelectedLineIsWritten :
    exec (.tx800 16) lastByte = .next lastByteStarted
      ∧ lab.resetArrives = false ∧ ∃ t, step lab = .next t :=
  ⟨lastByte_start, rfl, _, step_noStimulus _ rfl rfl fun h => absurd rfl h⟩

theorem test_witness_OnlyTheHostAndShowWriteMemory :
    ((∀ n, Instr.finish ≠ .setBrightness n) ∧ (∀ x, Instr.finish ≠ .showFrame x)
        ∧ exec .finish (busyAt .low 0 0 2 99) = .next (busyAt .low 0 0 2 99).finishCycle)
      ∧ ((∃ n, Instr.setBrightness 128 = .setBrightness n) ∧ ∃ t, exec (.setBrightness 128) lab = .next t)
      ∧ ((∃ x, Instr.showFrame 0 = .showFrame x) ∧ ∃ t, exec (.showFrame 0) lab = .next t)
      ∧ (busyAt .low 0 0 2 99).Inv ∧ ∃ t, step (busyAt .low 0 0 2 99) = .next t :=
  ⟨⟨nofun, nofun, lastCell_finish⟩, ⟨⟨_, rfl⟩, _, rfl⟩, ⟨⟨_, rfl⟩, _, rfl⟩, busyLow_inv, _,
    step_noStimulus _ rfl rfl (phaseInv_byteInRange busyLow_inv.2.2)⟩

theorem test_witness_LatchedRegistersAreWrittenOnlyByStart :
    ((∀ p, Instr.finish ≠ .tx800 p) ∧ (∀ p, Instr.finish ≠ .tx400 p)
        ∧ exec .finish (busyAt .low 0 0 2 99) = .next (busyAt .low 0 0 2 99).finishCycle)
      ∧ (busyAt .low 0 0 2 99).blk.phase ≠ .idle ∧ (busyAt .low 0 0 2 99).resetArrives = false
      ∧ ∃ t, step (busyAt .low 0 0 2 99) = .next t :=
  ⟨⟨nofun, nofun, lastCell_finish⟩, by decide, rfl, _, step_noStimulus _ rfl rfl (phaseInv_byteInRange busyLow_inv.2.2)⟩

/-- For the statements about the bus: no driver call is in progress in the states of their witnesses. -/
theorem test_witness_hostIsFree : lab.drv.stage = .idle ∧ (busyAt .low 0 0 2 99).drv.stage = .idle := ⟨rfl, rfl⟩

theorem test_witness_StatusWordShowsBusyAndLine :
    2 ≤ 31 ∧ (arriving lab (.regRead .word (lab.params.btgBase + 12))).stimuli
      = [.regRead .word (lab.params.btgBase + 12)] := ⟨by decide, rfl⟩

theorem test_witness_RegisterReadsChangeNothing :
    ∀ k ∈ [0, 4, 8, 12], (arriving lab (.regRead .word (lab.params.btgBase + BitVec.ofNat 32 k))).stimuli
      = [.regRead .word (lab.params.btgBase + BitVec.ofNat 32 k)] := fun _ _ => rfl

theorem test_witness_RegisterWritesTakeEffectNextCycle :
    lab.blk.phase = .idle
      ∧ ∀ k ∈ [4, 8, 12], (arriving lab (.regWrite .word (lab.params.btgBase + BitVec.ofNat 32 k) 0xFFFFFFFF)).stimuli
        = [.regWrite .word (lab.params.btgBase + BitVec.ofNat 32 k) 0xFFFFFFFF#32] := ⟨rfl, fun _ _ => rfl⟩

theorem test_witness_RegisterWritesWhileBusyAreRefused :
    (busyAt .low 0 0 2 99).blk.phase ≠ .idle
      ∧ ∀ k ∈ [0, 4, 8], (arriving (busyAt .low 0 0 2 99) (.regWrite .word (lab.params.btgBase + BitVec.ofNat 32 k) 1)).stimuli
        = [.regWrite .word ((busyAt .low 0 0 2 99).params.btgBase + BitVec.ofNat 32 k) 1#32] := ⟨by decide, fun _ _ => rfl⟩

/-- A byte at the first register and a word at the last byte of the last. -/
theorem test_witness_NarrowOrMisalignedAccessIsRefused :
    (0 < 16 ∧ Width.byte ≠ .word
        ∧ (arriving lab (.regWrite .byte 0 1)).stimuli = [.regWrite .byte (lab.params.btgBase + BitVec.ofNat 32 0) 1#32])
      ∧ (15 < 16 ∧ 15 % 4 ≠ 0
        ∧ (arriving lab (.regRead .word 15)).stimuli = [.regRead .word (lab.params.btgBase + BitVec.ofNat 32 15)]) := by
  decide

/-- The first and the last byte of the buffer at 0x100, the bytes just outside it, and an idle block. -/
theorem test_witness_BufferWriteWhileBusyIsRefused :
    (arriving (busyAt .low 0 0 2 99) (.memStore 0x100 1)).stimuli = [.memStore 0x100 1]
      ∧ (busyAt .low 0 0 2 99).blk.phase ≠ .idle
      ∧ (busyAt .low 0 0 2 99).blk.bufL.toNat ≤ (0x100#32).toNat
      ∧ (0x102#32).toNat < (busyAt .low 0 0 2 99).blk.bufL.toNat + (busyAt .low 0 0 2 99).blk.lenL.toNat
      ∧ (0x0FF#32).toNat < (busyAt .low 0 0 2 99).blk.bufL.toNat
      ∧ (busyAt .low 0 0 2 99).blk.bufL.toNat + (busyAt .low 0 0 2 99).blk.lenL.toNat ≤ (0x103#32).toNat
      ∧ lab.blk.phase = .idle := by decide +kernel

theorem test_witness_MemoryReadsWhatWasWritten :
    Memory.wf [(0, 1), (4294967295, 2)] = true ∧ (0xFFFFFFFF#32) ≠ 0x00000000#32 := by decide +kernel

theorem test_witness_ResetDuringATransmission :
    (arriving (busyAt .high 0 7 0 31) .reset).stimuli = [.reset] ∧ (busyAt .high 0 7 0 31).busy = true := by decide

theorem test_witness_ShowOfNullDoesNothing : lab.drv.stage = .idle ∧ lab.drv.pixels = none := ⟨rfl, rfl⟩

theorem painted_inv (b : U8) : (painted b).Inv := ⟨rfl, ⟨rfl, rfl⟩, (PhaseInv_idle rfl).2 rfl⟩

theorem test_witness_ShowAtFullBrightnessSendsTheCallersBuffer :
    (painted 255).Inv ∧ (painted 255).drv.stage = .idle ∧ (painted 255).stimuli = []
      ∧ (painted 255).drv.pixels = some 0x200 ∧ (painted 255).drv.brightness = 255
      ∧ (painted 255).TxLegal (painted 255).drv.pin (painted 255).drv.is800 0x200 (painted 255).drv.numBytes := by
  refine ⟨painted_inv _, ?_⟩
  unfold State.TxLegal; decide +kernel

/-- 257 bytes with a threshold of 256: the heap, which fails (table B8, row 6). -/
def starved : State :=
  { painted 100 with
    drv := { (painted 100).drv with numBytes := 257 }
    alloc := { lab.alloc with heapScript := [none] } }

theorem starved_inv : starved.Inv := painted_inv 100

theorem test_witness_ShowDropsTheFrameWhenTheHeapFails :
    starved.Inv ∧ starved.drv.stage = .idle ∧ starved.stimuli = [] ∧ starved.drv.pixels = some 0x200
      ∧ starved.drv.brightness ≠ 255 ∧ starved.params.stackThreshold < starved.drv.numBytes.toNat
      ∧ starved.alloc.heapAnswer = none := ⟨starved_inv, by decide⟩

/-- Brightness 254, and an answer of the allocator that lies just behind the caller's buffer. -/
def dimmed : State := { painted 254 with alloc := { lab.alloc with stackScript := [0x202] } }

/-- Called while the block is idle, and in the last cycle of a transmission from elsewhere. -/
theorem test_witness_ShowScaledSendsScaledBytes :
    dimmed.Inv ∧ dimmed.drv.stage = .idle ∧ dimmed.stimuli = [] ∧ dimmed.drv.pixels = some 0x200
      ∧ dimmed.drv.brightness ≠ 255 ∧ dimmed.allocAnswer = some 0x202
      ∧ fitsSpace 0x200 dimmed.drv.numBytes.toNat = true ∧ dimmed.mayHoldScratch 0x202 = true
      ∧ dimmed.apartFromFlight 0x200 dimmed.drv.numBytes.toNat = true
      ∧ (lastBusyCycle dimmed).apartFromFlight 0x200 dimmed.drv.numBytes.toNat = true
      ∧ dimmed.drv.pin.toNat < dimmed.params.npins ∧ dimmed.timingLegal dimmed.drv.is800 = true :=
  ⟨painted_inv 254, by decide +kernel⟩

/-- A SHOW that drops its frame returns in its second cycle, called while the block is idle. -/
theorem starved_returns :
    ∃ t u, exec (.showFrame 0) starved = .next t ∧ Host.Core.run Sys2Proof.core 1 t = .next u ∧ u.drv.stage = .idle :=
  ⟨_, _, rfl, rfl, rfl⟩

theorem test_witness_ShowLeavesTheCallersBufferUnmodified :
    starved.Inv ∧ starved.stimuli = [] ∧ starved.drv.pixels = some 0x200 ∧ starved.blk.phase = .idle
      ∧ ∃ t u, exec (.showFrame 0) starved = .next t ∧ Host.Core.run Sys2Proof.core 1 t = .next u ∧ u.drv.stage = .idle :=
  ⟨starved_inv, rfl, rfl, rfl, starved_returns⟩

/-- One byte more than the threshold; for the other two clauses, a buffer of no bytes, whose call returns in few cycles: a threshold
of exactly its byte count, and full brightness. -/
theorem test_witness_AllocationPlaceFollowsTheThreshold :
    (starved.stimuli = [] ∧ starved.drv.pixels = some 0x200 ∧ starved.drv.brightness ≠ 255
        ∧ starved.params.stackThreshold + 1 = starved.drv.numBytes.toNat
        ∧ ∃ t u, exec (.showFrame 0) starved = .next t ∧ Host.Core.run Sys2Proof.core 1 t = .next u ∧ u.drv.stage = .idle)
      ∧ (∀ b k, (b, k) ∈ [(254, 10), (255, 5)] →
        ∀ s : State, s = { painted b with params.stackThreshold := 0, drv.numBytes := 0, alloc := dimmed.alloc } →
        s.stimuli = [] ∧ s.drv.pixels = some 0x200 ∧ s.drv.brightness = b
          ∧ s.drv.numBytes.toNat ≤ s.params.stackThreshold
          ∧ nextIs (exec (.showFrame 0) s) (fun t => nextIs (Host.Core.run Sys2Proof.core k t) fun u => u.drv.stage == .idle)
            = true) := by
  refine ⟨⟨rfl, rfl, by decide, by decide, starved_returns⟩, ?_⟩
  rintro b k h s rfl
  simp only [List.mem_cons, Prod.mk.injEq, List.not_mem_nil, or_false] at h
  rcases h with ⟨rfl, rfl⟩ | ⟨rfl, rfl⟩ <;> decide +kernel

theorem test_witness_ScalingLaws : (0xFE#8).toNat ≤ (0xFF#8).toNat ∧ (0x7F#8).toNat ≤ (0x80#8).toNat := by decide

/-- Each clause: a call at full brightness, a SHOW that scales, and the first wait in the last cycle of a transmission. -/
theorem test_witness_ShowWaitsForTheBlock :
    ((painted 255).drv.stage = .idle ∧ (painted 255).drv.pixels ≠ none ∧ (painted 255).drv.brightness = 255)
      ∧ ((calling 254 .scale true).Inv ∧ (calling 254 .scale true).stimuli = [] ∧ (calling 254 .scale true).drv.stage = .scale)
      ∧ ((lastBusyCycle (calling 254 .waitIdle true)).Inv ∧ (lastBusyCycle (calling 254 .waitIdle true)).stimuli = []
        ∧ (lastBusyCycle (calling 254 .waitIdle true)).drv.stage = .waitIdle) := by
  refine ⟨by decide, ⟨⟨by decide +kernel, ⟨?_, ?_, by decide +kernel⟩, (PhaseInv_idle rfl).2 rfl⟩, rfl, rfl⟩,
    ⟨busyLow_inv.1, ⟨by decide, .inr ?_⟩, busyLow_inv.2.2⟩, rfl, rfl⟩
  · unfold Driver.Swapped; decide
  · unfold State.ScratchHeld; decide +kernel
  · unfold Driver.Swapped; decide

theorem test_witness_ConfigurationSetsTheBufferHolder :
    lab.drv.stage = .idle
      ∧ (arriving lab (.configure (some 0x200) 0xFFFF 63 false)).stimuli = [.configure (some 0x200#32) 0xFFFF#16 63#6 false] :=
  ⟨rfl, rfl⟩

/-- A SHOW in a SHOW; a buffer one byte past the top; a buffer whose last byte is the first of the block's (0x100). -/
theorem test_witness_ShowIsRefusedOnMisuse :
    (calling 128 .waitDone true).drv.stage ≠ .idle
      ∧ (∀ p ∈ [0xFFFFFFFF#32, 0x000000FF#32], ∀ s : State,
        s = { lastBusyCycle (calling 128 .copy false) with drv.pixels := some p } →
        s.stimuli = [] ∧ s.drv.stage = .copy ∧ s.drv.saved = none ∧ s.drv.pixels = some p ∧ s.drv.numBytes = 2
          ∧ s.blk.phase ≠ .idle)
      ∧ 4294967296 < (0xFFFFFFFF#32).toNat + 2 ∧ (0x000000FF#32).toNat + 2 ≤ 4294967296
      ∧ inRange 0x000000FF 2 0x00000100 = true
      ∧ inRange (busyAt .low 0 0 2 99).blk.bufL (busyAt .low 0 0 2 99).blk.lenL.toNat 0x00000100 = true :=
  ⟨by decide, fun _ _ _ h => by subst h; exact ⟨rfl, rfl, rfl, rfl, rfl, fun h => by cases h⟩, by decide, by decide, by decide,
    by decide⟩

end Sys2Proof.Tests
end

section
/-! The parameters along a step (R8): what arrives, an instruction and the driver's stages leave them as they are. -/

namespace Sys2Proof.Machine

theorem Arrives.params {s u : State} (h : Arrives s u) : u.params = s.params := by
  cases h <;> rfl

/-- `rst` gives the driver its reset values by the parameters and keeps the parameters themselves (R191). -/
theorem resetCycle_params (s : State) : s.resetCycle.params = s.params := rfl

theorem exec_params {i : Instr} {s t : State} (h : exec i s = .next t) : t.params = s.params := by
  rcases exec_cases h with rfl | ⟨p, r, -, -, rfl⟩ | ⟨-, -, rfl⟩ | ⟨n, -, rfl⟩ | ⟨x, -, -, -, rfl⟩
  · exact State.sequencerCycle_params s
  · rw [State.endCycle_params, State.startEffect_params]
  · exact State.wholeCell_params s
  · rw [State.sequencerCycle_params]
  · rw [State.sequencerCycle_params, State.enter_params]

theorem step_params {s t : State} (h : step s = .next t) : t.params = s.params := by
  cases step_cases h with
  | arrives u _ ha ht => rw [ht, State.sequencerCycle_params, ha.params]
  | runs i st r _ _ _ he => rw [exec_params he]
  | reset r _ ht => rw [ht, resetCycle_params]
  | driver r f _ hd =>
    obtain ⟨hparams, -⟩ := hd.frame
    exact hparams

/-- Settles O5, by the four kinds of step: each leaves the parameters of the state it starts from. -/
theorem noStepChangesAParameter : Obligations.NoStepChangesAParameter := by
  intro s t h
  exact step_params h

end Sys2Proof.Machine
end

section
/-! The state along a step (R20 to R42): the invariant, the counter, the lines, and the latched command and timing. Each is said
of what arrives, of an instruction and of a stage of the driver, and then of the four kinds of step. -/

namespace Sys2Proof.Machine

/-! ### The invariant (R40) -/

/-- The invariant speaks of neither the stimuli nor the port `f_cpu`. -/
theorem State.Inv.withInputs {s : State} (h : s.Inv) (r : List Stimulus) (f : U32) :
    State.Inv { s with stimuli := r, fCpu := f } := by
  obtain ⟨hmem, hcall, hphase⟩ := h
  exact ⟨hmem, hcall, phaseInv_of hphase rfl rfl rfl rfl rfl⟩

theorem step_inv {s t : State} (hi : s.Inv) (h : step s = .next t) : t.Inv := by
  cases step_cases h with
  | arrives u hc ha ht => rw [ht]; exact sequencerCycle_inv (ha.inv hc hi)
  | runs i st r hc _ _ he => exact exec_inv (hi.withInputs r s.fCpu) (.inl hc) he
  | reset r _ ht => rw [ht]; exact resetCycle_inv hi.1
  | driver r f _ hd => exact hd.inv (hi.withInputs r f)

/-- Settles O3, by the four kinds of step: what arrives, an instruction, `rst` and every stage of the driver keep the
invariant. -/
theorem everyStepKeepsTheInvariant : Obligations.EveryStepKeepsTheInvariant :=
  fun _ _ hi h => step_inv hi h

/-- Settles O2: at reset memory is empty, the driver is at rest, and the idle block has every line low. -/
theorem resetMeetsTheInvariant : Obligations.ResetMeetsTheInvariant :=
  ⟨rfl, ⟨rfl, rfl⟩, (PhaseInv_idle rfl).2 rfl⟩

/-! ### The kinds of stimulus a statement leaves out -/

theorem resetArrives_of_stimuli {s : State} {r : List Stimulus} (hs : s.stimuli = .reset :: r) :
    s.resetArrives = true := by
  simp [State.resetArrives, hs]

/-- With no driver call in progress, a step that is one cycle takes in no whole cell. -/
theorem ne_cell_of_nextIsCycle {s : State} {st : Stimulus} {r : List Stimulus} (h : s.nextIsCycle = true)
    (hc : s.drv.stage = .idle) (hs : s.stimuli = st :: r) : st ≠ .cell := by
  rintro rfl
  simp [State.nextIsCycle, hs, hc] at h

/-! ### The counter (R27) -/

theorem Arrives.cc {s u : State} (h : Arrives s u) : u.cc = s.cc := by
  cases h <;> rfl

/-- Every instruction but a whole cell takes one cycle. -/
theorem exec_cc {i : Instr} {s t : State} (hsym : i ≠ .sym0 ∧ i ≠ .sym1) (h : exec i s = .next t) : t.cc = s.cc + 1 := by
  obtain ⟨h0, h1⟩ := hsym
  rcases exec_cases h with rfl | ⟨p, r, -, -, rfl⟩ | ⟨h01, -, -⟩ | ⟨n, -, rfl⟩ | ⟨x, -, -, -, rfl⟩
  · exact sequencerCycle_cc s
  · exact State.endCycle_cc s _
  · exact absurd h01 (not_or_intro h0 h1)
  · exact sequencerCycle_cc _
  · exact sequencerCycle_cc _

theorem step_cc {s t : State} (hcycle : s.nextIsCycle = true) (hrst : s.resetArrives = false) (h : step s = .next t) :
    t.cc = s.cc + 1 := by
  cases step_cases h with
  | arrives u _ ha ht => rw [ht, sequencerCycle_cc, ha.cc]
  | runs i st r hc hs hsym he => exact exec_cc (s := { s with stimuli := r }) (hsym (ne_cell_of_nextIsCycle hcycle hc hs)) he
  | reset r hs _ => rw [resetArrives_of_stimuli hs] at hrst; cases hrst
  | driver r f _ hd => exact hd.cc

/-- Settles O12: the four kinds of step count one each, and the counter read puts `cc` in `busData` before a quiet cycle. -/
theorem counterCountsEveryCycle : Obligations.CounterCountsEveryCycle :=
  ⟨fun _ _ hcycle hrst h => step_cc hcycle hrst h, fun _ _ hc hs => stepsAsQuiet_of_fetch hs hc hc rfl⟩

/-! ### The lines (R28) -/

theorem Arrives.gpio {s u : State} (h : Arrives s u) : u.gpio = s.gpio := by
  cases h <;> rfl

/-- The sequencer's cycle after an update that leaves the lines alone. -/
theorem sequencerCycle_lines_of_gpio {s u : State} (hg : u.gpio = s.gpio) :
    SameOtherLines u.sequencerCycle.blk.pinL s u.sequencerCycle := by
  intro q hq
  rw [State.sequencerCycle_blk_pinL] at hq
  rw [sequencerCycle_lines u q hq, hg]

/-- START selects its pin, and drives that line or none (R112, R116). -/
theorem startEffect_lines (s : State) (pin : Pin) (r : Bool) :
    SameOtherLines (s.startEffect pin r).blk.pinL s (s.startEffect pin r) := by
  unfold State.startEffect
  split
  · exact fun _ _ => rfl
  · exact fun _ hq => level_drive_other _ hq true

theorem exec_lines {i : Instr} {s t : State} (h : exec i s = .next t) : SameOtherLines t.blk.pinL s t := by
  rcases exec_cases h with rfl | ⟨p, r, -, -, rfl⟩ | ⟨-, -, rfl⟩ | ⟨n, -, rfl⟩ | ⟨x, -, -, -, rfl⟩
  · exact sequencerCycle_lines_of_gpio rfl
  · exact startEffect_lines s p r
  · rw [State.wholeCell_blk_pinL]; exact wholeCell_lines s
  · exact sequencerCycle_lines_of_gpio rfl
  · exact sequencerCycle_lines_of_gpio rfl

theorem DriverStep.lines {s t : State} (h : DriverStep s t) : SameOtherLines t.blk.pinL s t := by
  cases h with
  | writeCtrl _ _ => exact startEffect_lines (s.enter .waitDone) s.drv.pin s.drv.is800
  | allocate _ => exact sequencerCycle_lines_of_gpio (State.allocateScratch_gpio s)
  | _ => exact sequencerCycle_lines_of_gpio rfl

theorem step_lines {s t : State} (hrst : s.resetArrives = false) (h : step s = .next t) :
    SameOtherLines t.blk.pinL s t := by
  cases step_cases h with
  | arrives u _ ha ht => rw [ht]; exact sequencerCycle_lines_of_gpio ha.gpio
  | runs i st r _ _ _ he => exact exec_lines (s := { s with stimuli := r }) he
  | reset r hs _ => rw [resetArrives_of_stimuli hs] at hrst; cases hrst
  | driver r f _ hd => exact hd.lines

/-- Settles O38: the sequencer's cycle drives the selected line only, and START the one it selects. -/
theorem onlyTheSelectedLineIsWritten : Obligations.OnlyTheSelectedLineIsWritten :=
  ⟨fun _ _ _ h => exec_lines h, fun _ _ hrst h => step_lines hrst h⟩

/-! ### The latched command and timing (R25, R26) -/

/-- The sequencer's cycle after an update that leaves the latched registers alone. -/
theorem SameLatched.sequencerCycle {s u : State} (h : SameLatched s u) : SameLatched s u.sequencerCycle :=
  h.trans' (sequencerCycle_sameLatched u)

/-- An update that leaves the block's registers alone leaves the latched ones. -/
theorem SameLatched.of_blk {s u : State} (h : u.blk = s.blk) : SameLatched s u := by
  simp [SameLatched, h]

/-- Only START writes the latched registers. -/
theorem exec_sameLatched {i : Instr} {s t : State}
    (hi : ∀ p r, (i = .tx800 p ∨ i = .tx400 p) → ¬ s.StartLegal p r) (h : exec i s = .next t) : SameLatched s t := by
  rcases exec_cases h with rfl | ⟨p, r, htx, hl, -⟩ | ⟨-, -, rfl⟩ | ⟨n, -, rfl⟩ | ⟨x, -, -, -, rfl⟩
  · exact sequencerCycle_sameLatched s
  · exact absurd hl (hi p r htx)
  · exact wholeCell_sameLatched s
  · exact (SameLatched.of_blk rfl).sequencerCycle
  · exact (SameLatched.of_blk rfl).sequencerCycle

/-- R117 (a): no START while busy. -/
theorem start_busy {s : State} (hb : s.blk.phase ≠ .idle) (p : Pin) (r : Bool) :
    s.start p r = .refused .startWhileBusy := by
  simp [State.start, State.startRefusal, busy_iff.2 hb]

/-- While busy, what arrives leaves the block's registers alone: a write of `BUF` or `LEN` is no arrival (R32). -/
theorem Arrives.blk_of_busy {s u : State} (h : Arrives s u) (hb : s.blk.phase ≠ .idle) : u.blk = s.blk := by
  cases h with
  | buf r d hi => exact absurd hi hb
  | len r d hi => exact absurd hi hb
  | _ => rfl

/-- While busy, no stage of the driver writes the latched registers: its register writes wait for an idle block (R83). -/
theorem DriverStep.sameLatched_of_busy {s t : State} (h : DriverStep s t) (hb : s.blk.phase ≠ .idle) :
    SameLatched s t := by
  cases h with
  | writeBuf _ hi => exact absurd hi hb
  | writeLen _ hi => exact absurd hi hb
  | writeCtrl _ hl => exact absurd hl.1 hb
  | allocate _ => exact (SameLatched.of_blk (State.allocateScratch_blk s)).sequencerCycle
  | _ => exact (SameLatched.of_blk rfl).sequencerCycle

theorem step_sameLatched_of_busy {s t : State} (hb : s.blk.phase ≠ .idle) (hrst : s.resetArrives = false)
    (h : step s = .next t) : SameLatched s t := by
  cases step_cases h with
  | arrives u _ ha ht => rw [ht]; exact (SameLatched.of_blk (ha.blk_of_busy hb)).sequencerCycle
  | runs i st r _ _ _ he => exact exec_sameLatched (s := { s with stimuli := r }) (fun _ _ _ hl => hb hl.1) he
  | reset r hs _ => rw [resetArrives_of_stimuli hs] at hrst; cases hrst
  | driver r f _ hd => exact hd.sameLatched_of_busy hb

/-- Settles O40: of all instructions only START writes the latched registers, and a busy block accepts none. -/
theorem latchedRegistersAreWrittenOnlyByStart : Obligations.LatchedRegistersAreWrittenOnlyByStart := by
  refine ⟨fun i s t h800 h400 h => exec_sameLatched ?_ h, fun s p hb => ⟨start_busy hb p true, start_busy hb p false⟩,
    fun s t hb hrst h => step_sameLatched_of_busy hb hrst h⟩
  rintro p r (htx | htx) -
  · exact h800 p htx
  · exact h400 p htx

end Sys2Proof.Machine
end

section
/-! The registers as the host reaches them (R29 to R32), its configuration (R39), and the instruction a step selects (R84,
R85). -/

namespace Sys2Proof.Machine

/-! ### The word of `BTG_STATUS` (R31) -/

theorem lineFlag_eq (s : State) : s.lineFlag = if s.busy then Lines.level s.gpio s.blk.pinL else false := by
  unfold State.lineFlag State.lineLevel
  cases s.busy <;> rfl

theorem statusWord_busy (s : State) : s.statusWord.getLsbD 0 = s.busy := by
  rw [State.statusWord, BitVec.getLsbD_append]
  simp

theorem statusWord_line (s : State) : s.statusWord.getLsbD 1 = s.lineFlag := by
  rw [State.statusWord, BitVec.getLsbD_append, BitVec.getLsbD_append]
  simp

theorem statusWord_zeros (s : State) {i : Nat} (hi : 2 ≤ i) : s.statusWord.getLsbD i = false := by
  rw [State.statusWord, BitVec.getLsbD_append, BitVec.getLsbD_append, if_neg (by omega), if_neg (by omega),
    BitVec.getLsbD_zero]

/-! ### Where the four registers lie (R29) -/

theorem regAt_ctrl (s : State) : s.regAt .word s.params.btgBase = .ok .ctrl := by
  simpa using regAt_k s 0 (by decide)

theorem regAt_buf (s : State) : s.regAt .word (s.params.btgBase + 4) = .ok .buf := regAt_k s 4 (by decide)

theorem regAt_len (s : State) : s.regAt .word (s.params.btgBase + 8) = .ok .len := regAt_k s 8 (by decide)

theorem regAt_status (s : State) : s.regAt .word (s.params.btgBase + 12) = .ok .status := regAt_k s 12 (by decide)

/-! ### Reads -/

/-- A read of a register by a free host gives it the register's value, and the rest of the cycle is a quiet one (R29, R32). -/
theorem stepsAsQuiet_of_regRead {s : State} {a v : U32} {reg : Reg} {rest : List Stimulus} (hc : s.drv.stage = .idle)
    (hs : s.stimuli = .regRead .word a :: rest) (hreg : s.regAt .word a = .ok reg) (hv : s.regValue reg = v) :
    StepsAsQuiet s { s with busData := v } rest := by
  have hreg' : State.regAt { s with stimuli := rest } .word a = .ok reg := hreg
  subst hv
  refine stepsAsQuiet_of_fetch hs hc hc ?_
  simp only [State.fetchStimulus, hreg']
  rfl

theorem regValue_len (s : State) : s.regValue .len = 0#16 ++ s.blk.len := by
  rw [State.regValue, BitVec.zeroExtend, BitVec.setWidth_eq_append (by decide)]
  rfl

/-- Settles O42: the value of each register, at its offset. -/
theorem registerReadsChangeNothing : Obligations.RegisterReadsChangeNothing := fun s _ hc =>
  ⟨fun hs => stepsAsQuiet_of_regRead hc hs (regAt_ctrl s) rfl,
    fun hs => stepsAsQuiet_of_regRead hc hs (regAt_buf s) rfl,
    fun hs => stepsAsQuiet_of_regRead hc hs (regAt_len s) (regValue_len s),
    fun hs => stepsAsQuiet_of_regRead hc hs (regAt_status s) rfl⟩

/-- Settles O41: the three parts of the word, and the read at offset 12. -/
theorem statusWordShowsBusyAndLine : Obligations.StatusWordShowsBusyAndLine := fun s =>
  ⟨statusWord_busy s, (statusWord_line s).trans (lineFlag_eq s), fun _ hi => statusWord_zeros s hi,
    fun _ hc hs => stepsAsQuiet_of_regRead hc hs (regAt_status s) rfl⟩

/-! ### Writes -/

/-- A write of a register by a free host is what `State.fetchWrite` says of it. -/
theorem step_regWrite {s : State} {a d : U32} {reg : Reg} {rest : List Stimulus} (hc : s.drv.stage = .idle)
    (hs : s.stimuli = .regWrite .word a d :: rest) (hreg : s.regAt .word a = .ok reg) :
    step s = (State.fetchWrite { s with stimuli := rest } reg d).outcome := by
  have hreg' : State.regAt { s with stimuli := rest } .word a = .ok reg := hreg
  rw [step_stimulus hs hc]
  simp only [State.fetchStimulus, hreg']

/-- In an idle block the sequencer's part of a cycle only counts it (R120). -/
theorem fetchMicro_outcome_of_idle {s : State} (hp : s.blk.phase = .idle) :
    s.fetchMicro.outcome = .next { s with cc := s.cc + 1 } := by
  rw [fetchMicro_outcome fun hb => absurd hp hb, sequencerCycle_idle hp]

theorem fetchWrite_buf_of_idle {s : State} (hp : s.blk.phase = .idle) (d : U32) :
    (s.fetchWrite .buf d).outcome = .next { s.setBuf d with cc := s.cc + 1 } := by
  simp only [State.fetchWrite, busy_false_iff.2 hp]
  exact fetchMicro_outcome_of_idle (s := s.setBuf d) hp

theorem fetchWrite_len_of_idle {s : State} (hp : s.blk.phase = .idle) (d : U32) :
    (s.fetchWrite .len d).outcome = .next { s.setLen d with cc := s.cc + 1 } := by
  simp only [State.fetchWrite, busy_false_iff.2 hp]
  exact fetchMicro_outcome_of_idle (s := s.setLen d) hp

/-- Settles O43: `BUF` and `LEN` are set beside an idle cycle, and a write of `BTG_STATUS` is a quiet cycle. -/
theorem registerWritesTakeEffectNextCycle : Obligations.RegisterWritesTakeEffectNextCycle := by
  intro s d rest hc
  refine ⟨fun hp hs => ?_, fun hp hs => ?_, fun hs => ?_⟩
  · rw [step_regWrite hc hs (regAt_buf s)]
    exact fetchWrite_buf_of_idle (s := { s with stimuli := rest }) hp d
  · rw [step_regWrite hc hs (regAt_len s)]
    exact fetchWrite_len_of_idle (s := { s with stimuli := rest }) hp d
  · have hreg : State.regAt { s with stimuli := rest } .word (s.params.btgBase + 12) = .ok .status := regAt_status s
    refine stepsAsQuiet_of_fetch hs hc hc ?_
    simp only [State.fetchStimulus, hreg, State.fetchWrite]

/-- What a word with no reserved bit decodes to, by its `START` bit (R71). -/
theorem decodeCtrl_start {w : U32} {i : Instr} (h : decode (.ctrl w) = .ok i) :
    (w.getLsbD 0 = false ∧ ∃ x, i = .ctrlNop x) ∨ (w.getLsbD 0 = true ∧ ∃ p, i = .tx800 p ∨ i = .tx400 p) := by
  simp only [decode, decodeCtrl] at h
  split at h
  · cases h
  split at h
  case isTrue hstart => cases h; exact .inl ⟨hstart, _, rfl⟩
  case isFalse hstart =>
    have hstart' : w.getLsbD 0 = true := by simpa using hstart
    split at h
    · cases h; exact .inr ⟨hstart', _, .inl rfl⟩
    · cases h; exact .inr ⟨hstart', _, .inr rfl⟩

theorem and_one_eq_one_iff (d : U32) : d &&& 1#32 = 1 ↔ d.getLsbD 0 = true := by
  rw [BitVec.and_one_eq_setWidth_ofBool_getLsbD]
  cases d.getLsbD 0 <;> decide

/-- A write of `BTG_CTRL` to a busy block is refused, as a START or as another write (R32, R117 (a)). -/
theorem fetchWrite_ctrl_of_busy {s : State} (hb : s.blk.phase ≠ .idle) (d : U32) :
    (s.fetchWrite .ctrl d).outcome
      = .refused (if d.getLsbD 0 then .startWhileBusy else .registerWriteWhileBusy) := by
  have hbusy := busy_iff.2 hb
  unfold State.fetchWrite
  cases hd : decode (.ctrl d) with
  | error e => simp only [hbusy, if_true]; rfl
  | ok i =>
    show exec i s = _
    rcases decodeCtrl_start hd with ⟨hstart, x, rfl⟩ | ⟨hstart, p, rfl | rfl⟩
    · rw [hstart]; exact if_pos hbusy
    · rw [hstart]; exact start_busy hb p true
    · rw [hstart]; exact start_busy hb p false

/-- A write of `BTG_BUF` or `BTG_LEN` to a busy block is refused (R32). -/
theorem fetchWrite_operand_of_busy {s : State} {reg : Reg} (hreg : reg = .buf ∨ reg = .len) (hb : s.blk.phase ≠ .idle)
    (d : U32) : (s.fetchWrite reg d).outcome = .refused .registerWriteWhileBusy := by
  rcases hreg with rfl | rfl <;> (simp only [State.fetchWrite, busy_iff.2 hb, if_true]; rfl)

/-- Settles O44: each of the three writes meets its refusal. -/
theorem registerWritesWhileBusyAreRefused : Obligations.RegisterWritesWhileBusyAreRefused := by
  intro s d rest hc hb
  refine ⟨fun hs => ?_, fun hs => ?_, fun hs => ?_⟩
  · rw [step_regWrite hc hs (regAt_ctrl s), fetchWrite_ctrl_of_busy (s := { s with stimuli := rest }) hb]
    simp only [and_one_eq_one_iff]
  · rw [step_regWrite hc hs (regAt_buf s)]
    exact fetchWrite_operand_of_busy (s := { s with stimuli := rest }) (.inl rfl) hb d
  · rw [step_regWrite hc hs (regAt_len s)]
    exact fetchWrite_operand_of_busy (s := { s with stimuli := rest }) (.inr rfl) hb d

/-! ### The host's configuration (R39) -/

/-- Settles O59: the configuration is taken in, and the cycle is a quiet one. -/
theorem configurationSetsTheBufferHolder : Obligations.ConfigurationSetsTheBufferHolder :=
  fun _ _ _ _ _ _ hc hs => stepsAsQuiet_of_fetch hs hc hc rfl

/-! ### The instruction a step selects (R84, R85, R83) -/

theorem fetchMicro_outcome_of_decode {s : State} {i : Instr} (hd : decode (.seq s.selectVector) = .ok i) :
    s.fetchMicro.outcome = exec i s := by
  simp only [State.fetchMicro, hd]; rfl

/-- A wait of the driver's call: the vector is that of the state before the poll (R83). -/
theorem fetchDriver_wait {s : State} (hw : s.drv.stage = .waitIdle ∨ s.drv.stage = .waitDone) :
    s.fetchDriver = s.poll.fetchMicro := by
  rcases hw with hw | hw <;> simp only [State.fetchDriver, hw]

/-- The driver's write of `BTG_CTRL` runs the START it means (R83). -/
theorem fetchDriver_writeCtrl {s : State} (hw : s.drv.stage = .writeCtrl) :
    s.fetchDriver.outcome = exec (if s.drv.is800 then .tx800 s.drv.pin else .tx400 s.drv.pin) (s.enter .waitDone) := by
  simp only [State.fetchDriver, hw, State.fetchWrite, decode_startWord]; rfl

/-- In a call the host's own acts wait, and the step is the stage of the driver (R155, R201; log 1). -/
theorem step_waitsForCall {s : State} {st : Stimulus} {rest : List Stimulus} (hc : s.drv.stage ≠ .idle)
    (hs : s.stimuli = st :: rest) (hw : st.waitsForCall = true) : step s = s.fetchDriver.outcome := by
  rw [step_eq, State.fetch, hs]
  simp only [if_neg hc]
  cases st with
  | quiet => cases hw
  | clockRate hz => cases hw
  | reset => cases hw
  | _ => rfl

/-- Settles O10: each source of an instruction, by what `State.fetch` makes of it. -/
theorem stepRunsTheDecodedInstruction : Obligations.StepRunsTheDecodedInstruction := by
  refine ⟨fun s w rest i hc hs hd => ?_, fun s c rest i hc hs hd => ?_, fun s rest i hc hs hd => ?_,
    fun s i hc hs hd => ?_, fun s rest i hc hs hd => ?_, fun s i hw hs hd => ?_, fun s hw hs => ?_,
    fun s t st rest hc hs hw h => ?_⟩
  · rw [step_regWrite hc hs (regAt_ctrl s)]
    simp only [State.fetchWrite, hd]; rfl
  · rw [step_stimulus hs hc]
    simp only [State.fetchStimulus, hd]; rfl
  · have hd' : decode (.cell (State.dataBit { s with stimuli := rest })) = .ok i := hd
    rw [step_stimulus hs hc]
    simp only [State.fetchStimulus, hd']; rfl
  · rw [step_driver hs]
    simp only [State.fetchDriver, hc]
    exact fetchMicro_outcome_of_decode hd
  · rw [step_stimulus hs hc]
    exact fetchMicro_outcome_of_decode (s := { s with stimuli := rest }) hd
  · rw [step_driver hs, fetchDriver_wait hw]
    exact fetchMicro_outcome_of_decode (s := s.poll) hd
  · rw [step_driver hs]
    exact fetchDriver_writeCtrl hw
  · rw [step_waitsForCall hc hs hw] at h
    obtain ⟨-, -, hstimuli, -⟩ := (fetchDriver_next h).frame
    exact hstimuli.trans hs

end Sys2Proof.Machine
end

section
/-! Data memory (R50 to R66): what a write leaves, who writes it, and the accesses of the host that are refused. -/

namespace Sys2Proof.Machine

/-! ### Read after write (R52, R66) -/

/-- Settles O47: the rules of `Memory.read` after `Memory.write`, for the same address and for another. -/
theorem memoryReadsWhatWasWritten : Obligations.MemoryReadsWhatWasWritten := fun m a _ v hm =>
  ⟨Memory.read_write_self hm a v, fun hne => Memory.read_write_other m hne v, Memory.write_wf hm a v⟩

/-! ### What an instruction leaves alone (R50) -/

/-- Outside the block an instruction changes at most the driver. -/
theorem exec_sameOutside {i : Instr} {s t : State} (h : exec i s = .next t) : SameOutside { s with drv := t.drv } t := by
  rcases exec_cases h with rfl | ⟨p, r, -, -, rfl⟩ | ⟨-, -, rfl⟩ | ⟨n, -, rfl⟩ | ⟨x, -, -, -, rfl⟩
  all_goals simp [SameOutside]

/-- Of the driver an instruction changes nothing but SETBRIGHTNESS's brightness (R141) and SHOW's stage (R152). -/
theorem exec_drv {i : Instr} {s t : State} (h : exec i s = .next t) :
    t.drv = s.drv ∨ (∃ n, i = .setBrightness n ∧ t.drv = { s.drv with brightness := n })
      ∨ (∃ x st, i = .showFrame x ∧ t.drv = { s.drv with stage := st }) := by
  rcases exec_cases h with rfl | ⟨p, r, -, -, rfl⟩ | ⟨-, -, rfl⟩ | ⟨n, hi, rfl⟩ | ⟨x, hi, -, -, rfl⟩
  · exact .inl (State.sequencerCycle_drv s)
  · exact .inl (State.startEffect_drv s p r)
  · exact .inl (State.wholeCell_drv s)
  · exact .inr (.inl ⟨n, hi, State.sequencerCycle_drv _⟩)
  · exact .inr (.inr ⟨x, _, hi, State.sequencerCycle_drv _⟩)

theorem exec_drv_frame {i : Instr} {s t : State} (h : exec i s = .next t) :
    ((∀ n, i ≠ .setBrightness n) → (∀ x, i ≠ .showFrame x) → t.drv = s.drv)
      ∧ ((∃ n, i = .setBrightness n) → t.drv = { s.drv with brightness := t.drv.brightness })
      ∧ ((∃ x, i = .showFrame x) → t.drv = { s.drv with stage := t.drv.stage }) := by
  rcases exec_drv h with hd | ⟨n, rfl, hd⟩ | ⟨x, st, rfl, hd⟩ <;> rw [hd]
  · exact ⟨fun _ _ => rfl, fun _ => rfl, fun _ => rfl⟩
  · exact ⟨fun hb _ => absurd rfl (hb n), fun _ => rfl, nofun⟩
  · exact ⟨fun _ hs => absurd rfl (hs x), nofun, fun _ => rfl⟩

/-! ### Who writes memory (R50, R66, R147, R149) -/

/-- What arrives changes a byte only where the host stores it. -/
theorem Arrives.mem_read {s u : State} (h : Arrives s u) (b : U32) :
    u.mem.read b = s.mem.read b ∨ ∃ v, s.stimuli.head? = some (.memStore b v) := by
  cases h with
  | store r a v hs _ =>
    by_cases hab : b = a
    · subst hab; exact .inr ⟨v, by rw [hs]; rfl⟩
    · exact .inl (Memory.read_write_other s.mem hab v)
  | _ => exact .inl rfl

/-- A stage of the driver changes a byte only inside the scratch buffer, and only to copy and to scale. -/
theorem DriverStep.mem_read {s t : State} (h : DriverStep s t) (hi : s.Inv) (b : U32) :
    t.mem.read b = s.mem.read b
      ∨ ((s.drv.stage = .copy ∨ s.drv.stage = .scale) ∧ inRange s.drv.scratchBase s.drv.numBytes.toNat b = true) := by
  rcases h.mem hi with hm | ⟨hst, -, -, hother⟩
  · exact .inl (by rw [hm])
  · cases hb : inRange s.drv.scratchBase s.drv.numBytes.toNat b with
    | false => exact .inl (hother b hb)
    | true => exact .inr ⟨hst, rfl⟩

theorem step_mem_read {s t : State} (hi : s.Inv) (h : step s = .next t) (b : U32) :
    t.mem.read b = s.mem.read b
      ∨ (s.drv.stage = .idle ∧ ∃ v, s.stimuli.head? = some (.memStore b v))
      ∨ ((s.drv.stage = .copy ∨ s.drv.stage = .scale)
        ∧ inRange s.drv.scratchBase s.drv.numBytes.toNat b = true) := by
  cases step_cases h with
  | arrives u hc ha ht =>
    rw [ht, State.sequencerCycle_mem]
    exact (ha.mem_read b).imp_right fun hstore => .inl ⟨hc, hstore⟩
  | runs i st r _ _ _ he =>
    obtain ⟨hmem, -⟩ := exec_sameOutside he
    exact .inl (by rw [hmem])
  | reset r _ ht => rw [ht]; exact .inl rfl
  | driver r f _ hd => exact (hd.mem_read (hi.withInputs r f) b).imp_right .inr

/-- Settles O39: an instruction leaves all but the block and two fields of the driver, and of the four kinds of step only the
host's store and two stages of the driver write a byte. -/
theorem onlyTheHostAndShowWriteMemory : Obligations.OnlyTheHostAndShowWriteMemory := by
  refine ⟨fun i s t h => ?_, fun s t b hi h => step_mem_read hi h b⟩
  obtain ⟨hmem, hfCpu, hbus, -, -, -, -, hstimuli, halloc⟩ := exec_sameOutside h
  exact ⟨hmem, halloc, hfCpu, hbus, hstimuli, exec_drv_frame h⟩

/-! ### Register accesses that are refused (R56) -/

theorem regAt_narrowOrMisaligned (s : State) {w : Width} {k : Nat} (hk : k < 16) (hw : w ≠ .word ∨ k % 4 ≠ 0) :
    s.regAt w (s.params.btgBase + BitVec.ofNat 32 k) = .error .badRegisterAccess := by
  have hoff : (s.params.btgBase + BitVec.ofNat 32 k - s.params.btgBase).toNat = k := by
    rw [BitVec.add_comm, BitVec.add_sub_cancel, BitVec.toNat_ofNat]; omega
  simp only [State.regAt, hoff, if_neg (Nat.not_le.2 hk), if_pos hw]

/-- Settles O45: neither a write nor a read gets past `State.regAt`. -/
theorem narrowOrMisalignedAccessIsRefused : Obligations.NarrowOrMisalignedAccessIsRefused := by
  intro s w k d rest hc hk hw
  have hreg := regAt_narrowOrMisaligned { s with stimuli := rest } hk hw
  refine ⟨fun hs => ?_, fun hs => ?_⟩ <;> (rw [step_stimulus hs hc]; simp only [State.fetchStimulus, hreg]; rfl)

/-! ### The host's stores (R60, R61) -/

/-- A store is misuse exactly where the block is busy and the byte is one of its buffer. -/
theorem storeRefused_iff {s : State} {a : U32} :
    (s.busy && inRange s.blk.bufL s.blk.lenL.toNat a) = true ↔
      s.blk.phase ≠ .idle ∧ s.blk.bufL.toNat ≤ a.toNat ∧ a.toNat < s.blk.bufL.toNat + s.blk.lenL.toNat := by
  rw [Bool.and_eq_true, busy_iff, inRange_iff]

theorem fetchStimulus_memStore (s : State) (a : U32) (v : U8) :
    s.fetchStimulus (.memStore a v) =
      if s.blk.phase ≠ .idle ∧ s.blk.bufL.toNat ≤ a.toNat ∧ a.toNat < s.blk.bufL.toNat + s.blk.lenL.toNat then
        .stop .bufferWriteWhileBusy
      else State.fetchMicro { s with mem := s.mem.write a v } :=
  if_congr storeRefused_iff rfl rfl

/-- Settles O46: the two branches of a store. -/
theorem bufferWriteWhileBusyIsRefused : Obligations.BufferWriteWhileBusyIsRefused := by
  intro s a v rest hc hs
  refine ⟨fun hb hlo hhi => ?_, fun hout => stepsAsQuiet_of_fetch hs hc hc ?_⟩
  · rw [step_stimulus hs hc, fetchStimulus_memStore, if_pos ⟨hb, hlo, hhi⟩]
    rfl
  · rw [fetchStimulus_memStore, if_neg]
    rintro ⟨hb, hlo, hhi⟩
    rcases hout with hidle | hbelow | habove
    · exact hb hidle
    · exact absurd hlo (Nat.not_le.2 hbelow)
    · exact absurd hhi (Nat.not_lt.2 habove)

end Sys2Proof.Machine
end

section
/-! The encodings (R71, R84, R85): a word is the append of its fields, the decoder reads it back from them, and matching it
under a mask is fixing some of them. -/

namespace Sys2Proof

/-! ### Words as fields -/

theorem extractLsb'_append_three {a b c : Nat} (w : BitVec (a + b + c)) :
    w.extractLsb' (c + b) a ++ w.extractLsb' c b ++ w.extractLsb' 0 c = w := by
  rw [BitVec.extractLsb'_append_extractLsb'_eq_extractLsb' rfl, BitVec.extractLsb'_append_extractLsb']

theorem extractLsb'_one {n : Nat} (w : BitVec n) (i : Nat) : w.extractLsb' i 1 = BitVec.ofBool (w.getLsbD i) := by
  ext j hj
  obtain rfl : j = 0 := by omega
  simp

/-- The fields of a START (R71, R72). -/
theorem ctrl_fields (w : U32) :
    ctrlReserved w ++ ctrlPin w ++ (BitVec.ofBool (w.getLsbD 1) ++ BitVec.ofBool (w.getLsbD 0)) = w := by
  rw [← extractLsb'_one, ← extractLsb'_one,
    BitVec.extractLsb'_append_extractLsb'_eq_extractLsb' (start₁ := 0) (len₁ := 1) rfl]
  exact extractLsb'_append_three (a := 24) (b := 6) (c := 2) w

/-- The fields of a command word without START, whose bits 7:1 are one ignored field (R71). -/
theorem ctrlNop_fields (w : U32) : ctrlReserved w ++ w.extractLsb' 1 7 ++ BitVec.ofBool (w.getLsbD 0) = w := by
  rw [← extractLsb'_one]
  exact extractLsb'_append_three (a := 24) (b := 7) (c := 1) w

theorem call_fields (c : BitVec 9) : BitVec.ofBool (c.getLsbD 8) ++ c.extractLsb' 0 8 = c := by
  rw [← extractLsb'_one]
  exact BitVec.extractLsb'_append_extractLsb' (w := 1) (len := 8)

/-! ### Decode and encode -/

theorem encode_of_decodeCtrl {w : U32} {i : Instr} (h : decodeCtrl w = .ok i) : encode i = .ctrl w := by
  have hpin := ctrl_fields w
  have hnop := ctrlNop_fields w
  unfold decodeCtrl at h
  split at h
  case isTrue => cases h
  case isFalse hres =>
    rw [not_not.1 hres] at hpin hnop
    split at h
    case isTrue hstart =>
      rw [hstart] at hnop
      cases h
      exact congrArg Code.ctrl hnop
    case isFalse hstart =>
      rw [Bool.of_not_eq_false hstart] at hpin
      split at h
      case isTrue hrate =>
        rw [hrate] at hpin
        cases h
        exact congrArg Code.ctrl hpin
      case isFalse hrate =>
        rw [Bool.of_not_eq_true hrate] at hpin
        cases h
        exact congrArg Code.ctrl hpin

theorem encode_decodeCell (b : Bool) : encode (decodeCell b) = .cell b := by cases b <;> rfl

/-- The selection table has 32 vectors. -/
theorem encode_of_decodeSeq {v : BitVec 5} {i : Instr} (h : decodeSeq v = .ok i) : encode i = .seq v := by
  have hall : ∀ v : BitVec 5, (decodeSeq v).toOption.all (fun i => decide (encode i = .seq v)) = true := by decide
  simpa [h, Except.toOption] using hall v

theorem encode_decodeCall (c : BitVec 9) : encode (decodeCall c) = .call c := by
  have hc := call_fields c
  unfold decodeCall
  cases hop : c.getLsbD 8 <;> (rw [hop] at hc; exact congrArg Code.call hc)

theorem encode_of_decode {c : Code} {i : Instr} (h : decode c = .ok i) : encode i = c := by
  cases c with
  | ctrl w => exact encode_of_decodeCtrl h
  | cell b => cases h; exact encode_decodeCell b
  | seq v => exact encode_of_decodeSeq h
  | call c => cases h; exact encode_decodeCall c

theorem decode_encode (i : Instr) : decode (encode i) = .ok i := by
  cases i with
  | tx800 pin => exact Laws.RoundTrip.tx800 pin
  | tx400 pin => exact Laws.RoundTrip.tx400 pin
  | ctrlNop x => exact Laws.RoundTrip.ctrlNop x
  | sym0 => exact Laws.RoundTrip.sym0
  | sym1 => exact Laws.RoundTrip.sym1
  | idleHold x => exact Laws.RoundTrip.idleHold x
  | highHold x => exact Laws.RoundTrip.highHold x
  | fall x => exact Laws.RoundTrip.fall x
  | lowHold x => exact Laws.RoundTrip.lowHold x
  | nextBit x => exact Laws.RoundTrip.nextBit x
  | nextByte => exact Laws.RoundTrip.nextByte
  | finish => exact Laws.RoundTrip.finish
  | showFrame x => exact Laws.RoundTrip.showFrame x
  | setBrightness n => exact Laws.RoundTrip.setBrightness n

theorem decode_iff_encode {c : Code} {i : Instr} : decode c = .ok i ↔ encode i = c :=
  ⟨encode_of_decode, fun h => h ▸ decode_encode i⟩

/-- Settles O6: each format's word is put together again from the fields the decoder reads, and each instruction's word is read
back. -/
theorem decodeAndEncodeAgree : Obligations.DecodeAndEncodeAgree := fun _ _ => decode_iff_encode

/-- Settles O9: each word with a meaning is the one that `encode` writes, and the reserved one has bit 31 set. -/
theorem wordsOfTheSpecDecode : Obligations.WordsOfTheSpecDecode :=
  ⟨decode_encode (.tx800 2), decode_encode (.tx400 16), decode_encode (.ctrlNop 0x7F), rfl, decode_encode .sym0,
    decode_encode .sym1, decode_encode (.idleHold 0b110), decode_encode .finish, decode_encode (.setBrightness 128),
    decode_encode (.showFrame 0xFF)⟩

/-! ### Match and mask -/

/-- The masked fields of a word are those of the match exactly when the word is the match but for the field between them. -/
theorem exists_append_append_iff_and_mask {a b c : Nat} (h : BitVec a) (l : BitVec c) (w : BitVec (a + b + c)) :
    (∃ x : BitVec b, h ++ x ++ l = w) ↔ w &&& (BitVec.allOnes a ++ 0#b ++ BitVec.allOnes c) = h ++ 0#b ++ l := by
  constructor
  · rintro ⟨x, rfl⟩
    simp only [BitVec.and_append, BitVec.and_allOnes, BitVec.and_zero]
  · intro hw
    rw [← extractLsb'_append_three w, BitVec.and_append, BitVec.and_append, BitVec.and_allOnes, BitVec.and_allOnes,
      BitVec.and_zero] at hw
    have hlow := congrArg (BitVec.extractLsb' 0 c) hw
    have hhigh := congrArg (fun v => (v.extractLsb' c (a + b)).extractLsb' b a) hw
    simp only [BitVec.extractLsb'_append_eq_left, BitVec.extractLsb'_append_eq_right] at hlow hhigh
    exact ⟨_, by rw [← hhigh, ← hlow, extractLsb'_append_three]⟩

theorem exists_append_iff_and_mask {a b : Nat} (h : BitVec a) (w : BitVec (a + b)) :
    (∃ x : BitVec b, h ++ x = w) ↔ w &&& (BitVec.allOnes a ++ 0#b) = h ++ 0#b := by
  simpa using exists_append_append_iff_and_mask h 0#0 w

theorem and_twoPow_eq_zero_iff {n i : Nat} (hi : i < n) (w : BitVec n) :
    w &&& BitVec.twoPow n i = 0 ↔ w.getLsbD i = false := by
  rw [BitVec.and_twoPow]
  cases w.getLsbD i with
  | false => simp
  | true =>
    have hne : BitVec.twoPow n i ≠ 0 := fun e => by simpa [hi] using congrArg (BitVec.getLsbD · i) e
    simpa using hne

theorem decode_ctrl_iff {w w' : U32} {i : Instr} (hi : encode i = .ctrl w') : decode (.ctrl w) = .ok i ↔ w' = w := by
  rw [decode_iff_encode, hi, Code.ctrl.injEq]

theorem decode_seq_iff {v v' : BitVec 5} {i : Instr} (hi : encode i = .seq v') : decode (.seq v) = .ok i ↔ v' = v := by
  rw [decode_iff_encode, hi, Code.seq.injEq]

/-! ### Command words (R71) -/

theorem ctrlReserved_eq_zero_iff (w : U32) : ctrlReserved w = 0 ↔ w &&& 0xFFFFFF00#32 = 0 := by
  have hfields : ctrlReserved w ++ w.extractLsb' 0 8 = w := BitVec.extractLsb'_append_extractLsb' (w := 24) (len := 8)
  calc ctrlReserved w = 0 ↔ ∃ x : BitVec 8, 0#24 ++ x = w :=
        ⟨fun h => ⟨w.extractLsb' 0 8, by rw [h] at hfields; exact hfields⟩,
          fun ⟨_, hx⟩ => hx ▸ BitVec.extractLsb'_append_eq_left⟩
    _ ↔ w &&& 0xFFFFFF00#32 = 0 := exists_append_iff_and_mask (b := 8) 0#24 w

/-- The order in which a decoder reads a command word, by the bits it masks. -/
theorem decode_ctrl_eq (w : U32) :
    decode (.ctrl w) =
      if w &&& 0xFFFFFF00#32 ≠ 0 then .error .reservedCommand
      else if w &&& 1#32 = 0 then .ok (.ctrlNop ((w >>> 1).setWidth 7))
      else if w &&& 2#32 ≠ 0 then .ok (.tx800 ((w >>> 2).setWidth 6))
      else .ok (.tx400 ((w >>> 2).setWidth 6)) := by
  have hstart : w &&& 1#32 = 0 ↔ w.getLsbD 0 = false := and_twoPow_eq_zero_iff (i := 0) (by decide) w
  have hrate : w &&& 2#32 = 0 ↔ w.getLsbD 1 = false := and_twoPow_eq_zero_iff (i := 1) (by decide) w
  simp only [decode, decodeCtrl, ctrlPin, ne_eq, ctrlReserved_eq_zero_iff, hstart, hrate, Bool.not_eq_false,
    BitVec.setWidth_ushiftRight_eq_extractLsb]

/-- Settles O7: the reading order, and each row as the words that `encode` writes for it at some value of its field. -/
theorem commandWordIsReadInRuleOrder : Obligations.CommandWordIsReadInRuleOrder := fun w =>
  ⟨decode_ctrl_eq w,
    (exists_congr fun _ => decode_ctrl_iff rfl).trans (exists_append_append_iff_and_mask (b := 6) 0#24 0b11#2 w),
    (exists_congr fun _ => decode_ctrl_iff rfl).trans (exists_append_append_iff_and_mask (b := 6) 0#24 0b01#2 w),
    (exists_congr fun _ => decode_ctrl_iff rfl).trans (exists_append_append_iff_and_mask (b := 7) 0#24 0b0#1 w)⟩

/-! ### Selection vectors (R84) -/

theorem decode_seq_error_iff (v : BitVec 5) : decode (.seq v) = .error .noSuchPhase ↔ v &&& 0x18#5 = 0x18#5 := by
  revert v; decide

/-- Settles O8: each row as the vectors that `encode` writes for it at some value of its ignored bits. -/
theorem selectionTableByMatchAndMask : Obligations.SelectionTableByMatchAndMask := fun v =>
  ⟨(exists_congr fun _ => decode_seq_iff rfl).trans (exists_append_iff_and_mask (b := 3) 0b00#2 v),
    (exists_congr fun _ => decode_seq_iff rfl).trans (exists_append_iff_and_mask (b := 2) 0b010#3 v),
    (exists_congr fun _ => decode_seq_iff rfl).trans (exists_append_iff_and_mask (b := 2) 0b011#3 v),
    (exists_congr fun _ => decode_seq_iff rfl).trans (exists_append_iff_and_mask (b := 2) 0b100#3 v),
    (exists_congr fun _ => decode_seq_iff rfl).trans (exists_append_iff_and_mask (b := 1) 0b1010#4 v),
    (decode_seq_iff rfl).trans eq_comm, (decode_seq_iff rfl).trans eq_comm, decode_seq_error_iff v⟩

end Sys2Proof
end

section
/-! The micro-operation that the state selects (R84, R174), and the first wait of a SHOW (R83, R152). -/

namespace Sys2Proof.Machine

/-- Settles O11: the selected micro-operation runs the sequencer's cycle, and so does any other that runs. -/
theorem exactlyOneMicroOperationApplies : Obligations.ExactlyOneMicroOperationApplies := by
  intro s hb
  obtain ⟨i, hi, he⟩ := exec_selected s hb
  exact ⟨i, s.sequencerCycle, hi, he, fun _ _ _ hd h => exec_micro_next hd h⟩

/-- R143: at full brightness SHOW goes to its wait in the cycle of the call. -/
theorem execShow_full {s : State} (hc : s.drv.stage = .idle) (hp : s.drv.pixels ≠ none) (hb : s.drv.brightness = 255)
    (x : BitVec 8) : exec (.showFrame x) s = .next (s.enter .waitIdle).sequencerCycle := by
  obtain ⟨p, hp⟩ := Option.ne_none_iff_exists'.1 hp
  simp [exec, execShow, hc, hp, hb]

theorem scaleScratch_stage (s : State) : s.scaleScratch.drv.stage = .waitIdle := rfl

/-- The poll of the first wait that finds the block idle: the cycle counts, and the write of `BUF` is next (R83). -/
theorem step_waitIdle_of_idle {s : State} (hst : s.drv.stage = .waitIdle) (hs : s.stimuli = [])
    (hi : s.blk.phase = .idle) :
    step s = .next { s with cc := s.cc + 1, busData := s.statusWord, drv := { s.drv with stage := .writeBuf } } := by
  rw [(DriverStep.wait (.inl hst)).step hs fun hb => absurd hi hb, sequencerCycle_idle (by exact hi)]
  simp only [State.poll, busy_false_iff.2 hi, Driver.afterWait, hst, Bool.false_eq_true, if_false]

/-- Settles O58: the two ways into the wait, and the wait, whose length is what is left of the transmission. -/
theorem showWaitsForTheBlock : Obligations.ShowWaitsForTheBlock := by
  refine ⟨fun x s hc hp hb => ⟨_, execShow_full hc hp hb x, ?_⟩, fun s hi hs hst => ?_, fun s hi hs hst => ?_⟩
  · rw [State.sequencerCycle_drv]; rfl
  · obtain ⟨-, -, hphase⟩ := hi
    exact ⟨_, (DriverStep.scale hst).step hs (phaseInv_byteInRange hphase), by
      rw [State.sequencerCycle_drv, scaleScratch_stage]⟩
  · obtain ⟨-, -, hphase⟩ := hi
    have frame (j : Nat) : (s.runCycles j).drv = s.drv ∧ (s.runCycles j).mem = s.mem ∧ (s.runCycles j).stimuli = [] := by
      obtain ⟨⟨hmem, -, -, hdrv, -, -, -, hstimuli, -⟩, -⟩ := runCycles_same j s
      exact ⟨hdrv, hmem, hstimuli.trans hs⟩
    refine ⟨s.remaining, remaining_le hphase, fun j hj => ?_, ?_⟩
    · obtain ⟨d, hd⟩ := wait_polls (.inl hst) hs hphase (Nat.le_of_lt hj)
      obtain ⟨hdrv, hmem, -⟩ := frame j
      exact ⟨_, hd, (runCycles_remaining hphase).1 hj, hdrv, hmem⟩
    · obtain ⟨d, hd⟩ := wait_polls (.inl hst) hs hphase (Nat.le_refl _)
      obtain ⟨hdrv, hmem, hstimuli⟩ := frame s.remaining
      have hidle := (runCycles_remaining hphase (n := 0)).2
      refine ⟨_, hd, busy_false_iff.2 hidle, hdrv, hmem, ?_⟩
      exact step_waitIdle_of_idle (by exact (congrArg Driver.stage hdrv).trans hst) hstimuli hidle

end Sys2Proof.Machine
end

section
/-! The waveform of a frame (R74, R75, R131) and the receiver's rule for reading it back (R77). -/

namespace Sys2Proof.Machine

/-! ### Durations -/

theorem waveCycles_append (v w : List Segment) : waveCycles (v ++ w) = waveCycles v + waveCycles w := by
  simp [waveCycles]

/-- A cell lasts `period` cycles whichever its bit is (R74). -/
theorem waveCycles_cellWave {t0 t1 p : Nat} (h01 : t0 < t1) (h1 : t1 < p) (b : Bool) :
    waveCycles (cellWave t0 t1 p b) = p := by
  have hthr : (if b then t1 else t0) < p := by split <;> omega
  simp [waveCycles, cellWave, Nat.add_sub_cancel' hthr.le]

theorem waveCycles_cells {t0 t1 p : Nat} (h01 : t0 < t1) (h1 : t1 < p) (bits : List Bool) :
    waveCycles (bits.flatMap (cellWave t0 t1 p)) = bits.length * p := by
  induction bits with
  | nil => simp [waveCycles]
  | cons b bits ih =>
    rw [List.flatMap_cons, waveCycles_append, waveCycles_cellWave h01 h1, ih, List.length_cons]
    ring

theorem length_cells (t0 t1 p : Nat) (bits : List Bool) :
    (bits.flatMap (cellWave t0 t1 p)).length = 2 * bits.length := by
  simp [List.length_flatMap, cellWave, Nat.mul_comm]

theorem length_sentBits (bytes : List U8) : (bytes.flatMap sentBits).length = 8 * bytes.length := by
  simp [List.length_flatMap, sentBits, Nat.mul_comm]

/-- Settles O35: every cell lasts `period` cycles in two segments, and every byte is eight cells. -/
theorem frameDurationIsIndependentOfTheBits : Obligations.FrameDurationIsIndependentOfTheBits := by
  intro t0 t1 p bytes h01 h1
  refine ⟨?_, ?_⟩
  · rw [frameWave, waveCycles_cells h01 h1, length_sentBits]
  · rw [frameWave, length_cells, length_sentBits]
    ring

/-! ### Reading back -/

theorem readHigh_closer0 {n : Nominal} {h : Nat} (hd : distance h n.t0H < distance h n.t1H) :
    readHigh n h = some false := if_pos hd

theorem readHigh_closer1 {n : Nominal} {h : Nat} (hd : distance h n.t1H < distance h n.t0H) :
    readHigh n h = some true := by
  rw [readHigh, if_neg (Nat.lt_asymm hd), if_pos hd]

theorem readHigh_tie {n : Nominal} {h : Nat} (hd : distance h n.t0H = distance h n.t1H) : readHigh n h = none := by
  rw [readHigh, if_neg hd.not_lt, if_neg hd.symm.not_lt]

/-- With `COMP` below half the difference of the two high times, a compensated time is closer to its own nominal value (R77). -/
theorem readHigh_time {n : Nominal} {comp : Nat} (hl : n.legal comp = true) (hcomp : 2 * comp < n.t1H - n.t0H) (b : Bool) :
    readHigh n (if b then n.time1 comp else n.time0 comp) = some b := by
  obtain ⟨h0, -⟩ := legal_iff.1 hl
  cases b with
  | false => exact readHigh_closer0 (by simp only [distance, Nominal.time0, Bool.false_eq_true, if_false]; omega)
  | true => exact readHigh_closer1 (by simp only [distance, Nominal.time1, if_true]; omega)

theorem readWave_cells {n : Nominal} {comp : Nat} (hl : n.legal comp = true) (hcomp : 2 * comp < n.t1H - n.t0H)
    (bits : List Bool) :
    readWave n (bits.flatMap (cellWave (n.time0 comp) (n.time1 comp) n.period)) = some bits := by
  induction bits with
  | nil => rfl
  | cons b bits ih => simp [List.flatMap_cons, cellWave, readWave, readHigh_time hl hcomp, ih]

/-- Settles O36: the three outcomes of the receiver's rule, and the frame read back cell by cell. -/
theorem frameReadsBackAsItsBits : Obligations.FrameReadsBackAsItsBits :=
  ⟨fun _ _ _ hl hcomp => readWave_cells hl hcomp _, fun _ _ => readHigh_closer0, fun _ _ => readHigh_closer1,
    fun _ _ => readHigh_tie⟩

end Sys2Proof.Machine
end

section
/-! The timing of a START (R90 to R97): a change of the port `f_cpu`, and the clocks at which R8's divisors give a legal timing. -/

namespace Sys2Proof.Machine

/-! ### A change of the port `f_cpu` (R33, R90) -/

theorem not_resetArrives_of_clockRate {s : State} {hz : U32} {rest : List Stimulus}
    (hs : s.stimuli = .clockRate hz :: rest) : s.resetArrives = false := by
  simp [State.resetArrives, hs]

/-- In a call the level arrives beside the stage of the driver (R83, log 1). -/
theorem step_clockRate_in_call {s : State} {hz : U32} {rest : List Stimulus} (hc : s.drv.stage ≠ .idle)
    (hs : s.stimuli = .clockRate hz :: rest) :
    step s = (State.fetchDriver { s with stimuli := rest, fCpu := hz }).outcome := by
  rw [step_eq, State.fetch, hs]
  simp only [if_neg hc]
  rfl

/-- The port takes the level, in a call or not. -/
theorem step_fCpu_of_clockRate {s t : State} {hz : U32} {rest : List Stimulus}
    (hs : s.stimuli = .clockRate hz :: rest) (h : step s = .next t) : t.fCpu = hz := by
  by_cases hc : s.drv.stage = .idle
  · rw [step_stimulus hs hc] at h
    rw [fetchMicro_next h, State.sequencerCycle_fCpu]
  · rw [step_clockRate_in_call hc hs] at h
    obtain ⟨-, hport, -⟩ := (fetchDriver_next h).frame
    exact hport

/-- Settles O20: the port takes the level, and a busy block's latched registers outlast every step without `rst`. -/
theorem clockRateIsNotReadWhileBusy : Obligations.ClockRateIsNotReadWhileBusy := fun _ _ _ hs =>
  ⟨fun hc => stepsAsQuiet_of_fetch hs hc hc rfl,
    fun hb _ h => ⟨step_fCpu_of_clockRate hs h, step_sameLatched_of_busy hb (not_resetArrives_of_clockRate hs) h⟩⟩

/-! ### The legal clocks (R96, R97) -/

/-- The smallest legal clock in Hz with `COMP` = 0: R8's divisor of the shorter high time, below which that time is 0 (R96). -/
def smallestClock (is800 : Bool) : Nat := if is800 then Params.standard.div800T0H else Params.standard.div400T0H

/-- From the smallest clock on, the three quotients of R92 and of R93 are positive and keep the order of their divisors. -/
theorem legal_standard (is800 : Bool) (f : U32) :
    (nominal Params.standard is800 f).legal 0 = decide (smallestClock is800 ≤ f.toNat) := by
  have hf := f.isLt
  rw [Bool.eq_iff_iff, legal_iff, decide_eq_true_iff]
  cases is800 with
  | true =>
    change 0 < f.toNat / 2500000 ∧ 1 ≤ f.toNat / 2500000 ∧ f.toNat / 2500000 < f.toNat / 1250000
      ∧ f.toNat / 1250000 < f.toNat / 800000 ∧ f.toNat / 800000 < 4294967296 ↔ 2500000 ≤ f.toNat
    omega
  | false =>
    change 0 < f.toNat / 2000000 ∧ 1 ≤ f.toNat / 2000000 ∧ f.toNat / 2000000 < f.toNat / 833333
      ∧ f.toNat / 833333 < f.toNat / 400000 ∧ f.toNat / 400000 < 4294967296 ↔ 2000000 ≤ f.toNat
    omega

/-- Settles O19: the smallest clock of each rate is the divisor of its shorter high time. -/
theorem timingIsLegalExactlyFromTheSmallestClock : Obligations.TimingIsLegalExactlyFromTheSmallestClock := by
  intro f
  rw [legal_standard, legal_standard, decide_eq_true_iff, decide_eq_true_iff]
  exact ⟨Iff.rfl, Iff.rfl⟩

/-- The clocks of R97's first eight rows are legal at both rates. -/
theorem smallestClock_le_of_mem {f : Nat} (hf : f ∈ [80000000, 160000000, 240000000, 26000000]) (is800 : Bool) :
    smallestClock is800 ≤ (BitVec.ofNat 32 f).toNat := by
  revert is800 f
  decide

/-- Settles O18: the values are the quotients, and a row is legal exactly when its clock reaches the smallest legal one. -/
theorem timingTableRows : Obligations.TimingTableRows := by
  rintro n rfl
  refine ⟨rfl, rfl, rfl, rfl, rfl, rfl, rfl, rfl, rfl, rfl, rfl, rfl, rfl, fun f hf r => ?_, ?_⟩
  · rw [legal_standard]
    exact decide_eq_true (smallestClock_le_of_mem hf r)
  · simp only [legal_standard]
    decide

end Sys2Proof.Machine
end

section
/-! The commands a host writes to `BTG_CTRL` (R112 to R117): the effect of an accepted START, the reasons to refuse one, and
CTRL_NOP. -/

namespace Sys2Proof.Machine

/-! ### Cycles of an idle block and of a busy one -/

/-- A busy cycle is recorded at the line's level (R131). -/
theorem recorded_busy {s : State} (h : s.blk.phase ≠ .idle) (w : List Segment) :
    s.recorded w = pushSegment s.lineLevel 1 w := if_pos (busy_iff.2 h)

theorem holdCycle_idle {s : State} (h : s.blk.phase = .idle) : s.holdCycle = { s with cc := s.cc + 1 } := by
  rw [State.holdCycle, State.endCycle, recorded_idle h]

/-- While idle `LINE` is 0 (R31). -/
theorem lineFlag_idle {s : State} (h : s.blk.phase = .idle) : s.lineFlag = false := by
  rw [lineFlag_eq, busy_false_iff.2 h]; rfl

/-- While busy `LINE` is the level of the selected line (R31). -/
theorem lineFlag_busy {s : State} (h : s.blk.phase ≠ .idle) : s.lineFlag = s.lineLevel := by
  rw [lineFlag_eq, busy_iff.2 h]; rfl

/-! ### An accepted START (R112, R116) -/

/-- A START with a byte to send begins the first cell. -/
theorem start_sends {s : State} {pin : Pin} {r : Bool} (h : s.StartLegal pin r) (hl : s.blk.len ≠ 0) :
    ∃ t, s.start pin r = .next t ∧ t.busy = true ∧ t.lineFlag = true
      ∧ t = { s with
          cc := s.cc + 1
          gpio := Lines.drive s.gpio pin true
          blk := { s.blk with
            phase := .high, pix := s.mem.read s.blk.buf, byteIdx := 0, bitIdx := 7, startTime := s.cc + 1
            pinL := pin, is800L := r, bufL := s.blk.buf, lenL := s.blk.len
            time0 := s.newTime0 r, time1 := s.newTime1 r, period := s.newPeriod r }
          obs := { wave := [], reads := [s.blk.buf] } } := by
  refine ⟨_, start_legal h, ?_⟩
  rw [State.startEffect, if_neg hl, State.endCycle, recorded_idle h.1]
  exact ⟨rfl, level_drive_self _ pin true, rfl⟩

/-- A START without a byte only latches (R116). -/
theorem start_latches {s : State} {pin : Pin} {r : Bool} (h : s.StartLegal pin r) (hl : s.blk.len = 0) :
    ∃ t, s.start pin r = .next t ∧ t.busy = false ∧ t.lineFlag = false ∧ t = { s.latch pin r with cc := s.cc + 1 } :=
  ⟨_, start_empty h hl, busy_false_iff.2 h.1, lineFlag_idle h.1, rfl⟩

/-- Settles O13: the word is the one `encode` writes; a START with bytes begins the first cell, one without only latches. -/
theorem tx800StartsATransmission : Obligations.Tx800StartsATransmission :=
  ⟨fun _ _ => (decode_ctrl_iff rfl).trans eq_comm, fun _ _ h => ⟨start_sends h, start_latches h⟩⟩

/-- Settles O14, by the same three facts at the rate of R93. -/
theorem tx400StartsATransmission : Obligations.Tx400StartsATransmission :=
  ⟨fun _ _ => (decode_ctrl_iff rfl).trans eq_comm, fun _ _ h => ⟨start_sends h, start_latches h⟩⟩

/-! ### Refusals (R117) -/

/-- The START instruction of a rate. -/
theorem exec_start (pin : Pin) (r : Bool) (s : State) :
    exec (if r then .tx800 pin else .tx400 pin) s = s.start pin r := by cases r <;> rfl

theorem start_refused {s : State} {pin : Pin} {r : Bool} {e : Refusal} (h : s.startRefusal pin r = some e) :
    s.start pin r = .refused e := by
  rw [State.start, h]

/-- R117 (c). -/
theorem startRefusal_pin {s : State} {pin : Pin} (hi : s.blk.phase = .idle) (hp : s.params.npins ≤ pin.toNat) (r : Bool) :
    s.startRefusal pin r = some .pinOutOfRange := by
  simp [State.startRefusal, busy_false_iff.2 hi, hp]

/-- R117 (d). -/
theorem startRefusal_timing {s : State} {pin : Pin} {r : Bool} (hi : s.blk.phase = .idle)
    (hp : pin.toNat < s.params.npins) (ht : s.timingLegal r = false) : s.startRefusal pin r = some .illegalTiming := by
  simp [State.startRefusal, busy_false_iff.2 hi, Nat.not_le.2 hp, ht]

/-- R117 (e). -/
theorem startRefusal_buffer {s : State} {pin : Pin} {r : Bool} (hi : s.blk.phase = .idle)
    (hp : pin.toNat < s.params.npins) (ht : s.timingLegal r = true)
    (hb : 4294967296 < s.blk.buf.toNat + s.blk.len.toNat) : s.startRefusal pin r = some .bufferPastTop := by
  have hfit : fitsSpace s.blk.buf s.blk.len.toNat = false := decide_eq_false (Nat.not_le.2 hb)
  simp [State.startRefusal, busy_false_iff.2 hi, Nat.not_le.2 hp, ht, hfit]

/-- R117 (b): a word with a reserved bit, written to an idle block. -/
theorem fetchWrite_ctrl_reserved {s : State} (hi : s.blk.phase = .idle) {w : U32} (hw : w &&& 0xFFFFFF00#32 ≠ 0) :
    (s.fetchWrite .ctrl w).outcome = .refused .reservedCommand := by
  have hd : decode (.ctrl w) = .error .reservedCommand := by rw [decode_ctrl_eq, if_pos hw]
  simp only [State.fetchWrite, hd, busy_false_iff.2 hi]
  rfl

/-- Settles O15: each reason, given that those before it do not hold. -/
theorem startIsRefusedInRuleOrder : Obligations.StartIsRefusedInRuleOrder := by
  constructor
  · rintro pin r s i rfl
    rw [exec_start]
    exact ⟨fun hb => start_busy hb pin r, fun hi hp => start_refused (startRefusal_pin hi hp r),
      fun hi hp ht => start_refused (startRefusal_timing hi hp ht),
      fun hi hp ht hb => start_refused (startRefusal_buffer hi hp ht hb)⟩
  · intro s w rest hc hs hres hstart
    rw [step_regWrite hc hs (regAt_ctrl s)]
    by_cases hi : s.blk.phase = .idle
    · rw [fetchWrite_ctrl_reserved (s := { s with stimuli := rest }) hi hres, if_pos hi]
    · rw [fetchWrite_ctrl_of_busy (s := { s with stimuli := rest }) hi, (and_one_eq_one_iff w).1 hstart, if_neg hi]
      rfl

/-- Settles O17: the word is the one `encode` writes; an idle block holds, and a busy one refuses (R32). -/
theorem ctrlNopChangesNothing : Obligations.CtrlNopChangesNothing := by
  refine ⟨fun x w => (decode_ctrl_iff rfl).trans eq_comm, fun x s => ⟨fun hi => ?_, fun hb => ?_⟩⟩
  · rw [← holdCycle_idle hi]
    exact if_neg (by rw [busy_false_iff.2 hi]; decide)
  · exact if_pos (busy_iff.2 hb)

end Sys2Proof.Machine
end

section
/-! The sequencer's micro-operations (R120 to R127), each from the state that selects it, and the elapsed count (R132). -/

namespace Sys2Proof.Machine

/-! ### The elapsed count -/

/-- Settles O28: the modular difference of `startTime + n` and `startTime` is `n` itself below 2^32. -/
theorem elapsedCountIsExactAcrossTheWrap : Obligations.ElapsedCountIsExactAcrossTheWrap := by
  intro s n hn hcc
  rw [State.elapsed, hcc, BitVec.add_comm, BitVec.add_sub_cancel, BitVec.toNat_ofNat, Nat.mod_eq_of_lt hn]

/-- In HIGH the count has not reached `thr` yet, so FALL fires at equality (R40 (c)). -/
theorem elapsed_eq_thr {s : State} (hi : s.Inv) (hp : s.blk.phase = .high) (he : s.thr.toNat ≤ s.elapsed.toNat + 1) :
    s.elapsed.toNat + 1 = s.thr.toNat := by
  obtain ⟨-, -, hphase⟩ := hi
  obtain ⟨-, -, hlt⟩ := (PhaseInv_high hp).1 hphase
  omega

/-- In LOW the count has not reached `period` yet, so a cell ends at equality (R40 (d)). -/
theorem elapsed_eq_period {s : State} (hi : s.Inv) (hp : s.blk.phase = .low)
    (he : s.blk.period.toNat ≤ s.elapsed.toNat + 1) : s.elapsed.toNat + 1 = s.blk.period.toNat := by
  obtain ⟨-, -, hphase⟩ := hi
  obtain ⟨-, -, -, hlt⟩ := (PhaseInv_low hp).1 hphase
  omega

theorem busy_of_high {s : State} (h : s.blk.phase = .high) : s.blk.phase ≠ .idle := by rw [h]; decide

theorem busy_of_low {s : State} (h : s.blk.phase = .low) : s.blk.phase ≠ .idle := by rw [h]; decide

/-! ### Holds -/

/-- Settles O21: an idle cycle counts and records nothing. -/
theorem idleHoldOnlyCounts : Obligations.IdleHoldOnlyCounts := fun _ _ hp =>
  ⟨_, if_pos hp, holdCycle_idle hp, busy_false_iff.2 hp, lineFlag_idle hp⟩

theorem holdCycle_busy {s : State} (h : s.blk.phase ≠ .idle) :
    s.holdCycle = { s with cc := s.cc + 1, obs.wave := pushSegment s.lineLevel 1 s.obs.wave } := by
  rw [State.holdCycle, State.endCycle, recorded_busy h]

/-- Settles O22: the cycle counts and is recorded; the invariant holds the line high in HIGH. -/
theorem highHoldOnlyCounts : Obligations.HighHoldOnlyCounts := by
  intro x s hp he
  have hb := busy_of_high hp
  exact ⟨_, if_pos ⟨hp, he⟩, holdCycle_busy hb, busy_iff.2 hb, fun hi => (lineFlag_busy hb).trans (line_high hi hp)⟩

/-- Settles O23: the cycle counts and is recorded; the invariant holds the line low in LOW. -/
theorem lowHoldOnlyCounts : Obligations.LowHoldOnlyCounts := by
  intro x s hp he
  have hb := busy_of_low hp
  exact ⟨_, if_pos ⟨hp, he⟩, holdCycle_busy hb, busy_iff.2 hb, fun hi => (lineFlag_busy hb).trans (line_low hi hp)⟩

/-! ### Edges and the end of a cell -/

/-- Settles O24: the line is driven low and the cycle recorded. -/
theorem fallDrivesTheLineLow : Obligations.FallDrivesTheLineLow := by
  intro x s hp he
  refine ⟨s.fallCycle, if_pos ⟨hp, he⟩, ?_, rfl, level_drive_self _ _ false, fun hi => elapsed_eq_thr hi hp he⟩
  rw [State.fallCycle, State.endCycle, recorded_busy (busy_of_high hp)]
  rfl

/-- After `RISE` at the end of a cycle that leaves the counter to it, the count of the new cell is 0 (R122). -/
theorem elapsed_endCycle_rise {s a : State} (h : a.cc = s.cc) : (s.endCycle a.rise).elapsed = 0 := by
  show s.cc + 1 - (a.cc + 1) = 0
  rw [h, BitVec.sub_self]; rfl

/-- Settles O25: `bitIdx` goes one down, and the line rises. -/
theorem nextBitBeginsTheNextCell : Obligations.NextBitBeginsTheNextCell := by
  intro x s hp he hz
  refine ⟨s.nextBitCycle, if_pos ⟨hp, he, hz⟩, ?_, rfl, level_drive_self _ _ true, elapsed_endCycle_rise rfl,
    fun hi => elapsed_eq_period hi hp he⟩
  rw [State.nextBitCycle, State.endCycle, recorded_busy (busy_of_low hp)]
  rfl

/-- Settles O26: the next byte is read, and the line rises. -/
theorem nextByteReadsAndBeginsItsFirstCell : Obligations.NextByteReadsAndBeginsItsFirstCell := by
  intro s hp he hz hy
  refine ⟨s.nextByteCycle, if_pos ⟨hp, he, hz, hy⟩, ?_, rfl, level_drive_self _ _ true, elapsed_endCycle_rise rfl,
    fun hi => elapsed_eq_period hi hp he⟩
  rw [State.nextByteCycle, State.endCycle, recorded_busy (busy_of_low hp)]
  rfl

/-- Settles O27: the block goes idle with the line as it was, low in LOW. -/
theorem finishEndsTheTransmission : Obligations.FinishEndsTheTransmission := by
  intro s hp he hz hy
  refine ⟨s.finishCycle, if_pos ⟨hp, he, hz, hy⟩, ?_, rfl, rfl,
    fun hi => ⟨show s.lineLevel = false from line_low hi hp, elapsed_eq_period hi hp he⟩⟩
  rw [State.finishCycle, State.endCycle, recorded_busy (busy_of_low hp)]

end Sys2Proof.Machine
end

section
/-! The wire symbols (R128, R129) as whole cells and as their cycles (R130). -/

namespace Sys2Proof.Machine

/-- A symbol runs exactly from the first cycle of a cell of its bit, and it is the whole cell. -/
theorem symbol_next_iff {s t : State} {b : Bool} :
    s.symbol b = .next t ↔ s.atCellStart = true ∧ s.dataBit = b ∧ t = s.wholeCell := by
  unfold State.symbol
  cases s.atCellStart with
  | false => simp
  | true =>
    by_cases hb : s.dataBit = b
    · simp [hb, eq_comm]
    · simp [hb]

/-- The symbol instruction of a data bit. -/
theorem exec_symbol (b : Bool) (s : State) : exec (if b then .sym1 else .sym0) s = s.symbol b := by cases b <;> rfl

/-- Settles O31: the symbol is the whole cell, which is the closed form of its `period` cycles. -/
theorem symbolEqualsItsCycles : Obligations.SymbolEqualsItsCycles := by
  intro s t b hs hc hbyte h
  rw [exec_symbol, symbol_next_iff] at h
  obtain ⟨hcell, -, rfl⟩ := h
  rw [run_noStimulus _ s hs hc fun _ => hbyte, runCycles_cell hcell]

/-! ### What ends a cell -/

theorem wholeCell_eq {s : State} (h : s.atCellStart = true) :
    s.wholeCell =
      if s.lastBit then (if s.lastByte then s.cellLastCycle.finishCycle else s.cellLastCycle.nextByteCycle)
      else s.cellLastCycle.nextBitCycle := by
  rw [State.wholeCell, State.sequencerCycle, show s.cellLastCycle.blk.phase = .low from rfl]
  simp only [cellLastCycle_reached h, if_true]
  rfl

/-- NEXT_BIT ends the cell (R124). -/
theorem wholeCell_nextBit {s : State} (h : s.atCellStart = true) (hb : s.blk.bitIdx ≠ 0) :
    s.wholeCell.blk.phase = .high ∧ s.wholeCell.blk.startTime = s.wholeCell.cc ∧ s.wholeCell.lineLevel = true
      ∧ s.wholeCell.blk.bitIdx = s.blk.bitIdx - 1 ∧ s.wholeCell.blk.byteIdx = s.blk.byteIdx
      ∧ s.wholeCell.blk.pix = s.blk.pix ∧ s.wholeCell.obs.reads = s.obs.reads := by
  have hbit : s.lastBit = false := beq_eq_false_iff_ne.2 hb
  rw [wholeCell_eq h, hbit]
  exact ⟨rfl, rfl, level_drive_self _ _ true, rfl, rfl, rfl, rfl⟩

/-- NEXT_BYTE ends the cell (R126). -/
theorem wholeCell_nextByte {s : State} (h : s.atCellStart = true) (hb : s.blk.bitIdx = 0)
    (hy : s.blk.byteIdx.toNat + 1 ≠ s.blk.lenL.toNat) :
    s.wholeCell.blk.phase = .high ∧ s.wholeCell.blk.startTime = s.wholeCell.cc ∧ s.wholeCell.lineLevel = true
      ∧ s.wholeCell.blk.bitIdx = 7 ∧ s.wholeCell.blk.byteIdx = s.blk.byteIdx + 1
      ∧ s.wholeCell.blk.pix = s.mem.read s.nextByteAddr
      ∧ s.wholeCell.obs.reads = s.nextByteAddr :: s.obs.reads := by
  have hbit : s.lastBit = true := beq_iff_eq.2 hb
  have hbyte : s.lastByte = false := beq_eq_false_iff_ne.2 hy
  rw [wholeCell_eq h, hbit, hbyte]
  exact ⟨rfl, rfl, level_drive_self _ _ true, rfl, rfl, rfl, rfl⟩

/-- FINISH ends the cell (R125). -/
theorem wholeCell_finish {s : State} (h : s.atCellStart = true) (hb : s.blk.bitIdx = 0)
    (hy : s.blk.byteIdx.toNat + 1 = s.blk.lenL.toNat) :
    s.wholeCell.blk.phase = .idle ∧ s.wholeCell.lineLevel = false ∧ s.wholeCell.obs.reads = s.obs.reads := by
  have hbit : s.lastBit = true := beq_iff_eq.2 hb
  have hbyte : s.lastByte = true := beq_iff_eq.2 hy
  rw [wholeCell_eq h, hbit, hbyte]
  exact ⟨rfl, level_drive_self _ _ false, rfl⟩

theorem thr_eq {s : State} {b : Bool} (h : s.dataBit = b) : s.thr = if b then s.blk.time1 else s.blk.time0 := by
  rw [State.thr, h]

/-- Settles O29: the whole cell with `thr` = `time0`, and the three ways it ends. -/
theorem sym0IsOneCell : Obligations.Sym0IsOneCell := by
  intro s hp hs hl hb h1 h2 hw
  have hthr : s.thr = s.blk.time0 := thr_eq hb
  rw [← hthr] at h1 h2 ⊢
  have hcell : s.atCellStart = true := atCellStart_iff.2 ⟨hp, hs, hl, h1, h2⟩
  exact ⟨s.wholeCell, symbol_next_iff.2 ⟨hcell, hb, rfl⟩, wholeCell_wave hcell hw, wholeCell_cc s,
    wholeCell_sameOutside s, wholeCell_sameLatched s, wholeCell_lines s, wholeCell_nextBit hcell,
    wholeCell_nextByte hcell, wholeCell_finish hcell⟩

/-- Settles O30: the whole cell with `thr` = `time1`, and the three ways it ends. -/
theorem sym1IsOneCell : Obligations.Sym1IsOneCell := by
  intro s hp hs hl hb h1 h2 hw
  have hthr : s.thr = s.blk.time1 := thr_eq hb
  rw [← hthr] at h1 h2 ⊢
  have hcell : s.atCellStart = true := atCellStart_iff.2 ⟨hp, hs, hl, h1, h2⟩
  exact ⟨s.wholeCell, symbol_next_iff.2 ⟨hcell, hb, rfl⟩, wholeCell_wave hcell hw, wholeCell_cc s,
    wholeCell_sameOutside s, wholeCell_sameLatched s, wholeCell_lines s, wholeCell_nextBit hcell,
    wholeCell_nextByte hcell, wholeCell_finish hcell⟩

end Sys2Proof.Machine
end

section
/-! A transmission whole (R118, R130, R131, R133): that it ends, and the frame that an accepted START sends. -/

namespace Sys2Proof.Machine

/-! ### Every transmission ends (R118, R184) -/

theorem runCycles_inv {s : State} (h : s.Inv) (n : Nat) : (s.runCycles n).Inv := by
  induction n generalizing s with
  | zero => exact h
  | succ n ih => exact ih (sequencerCycle_inv h)

/-- Settles O4: the cycles that `State.remaining` counts down to 0 are at most the whole transmission. -/
theorem everyTransmissionEnds : Obligations.EveryTransmissionEnds := by
  intro s hi hs hc
  obtain ⟨-, -, hphase⟩ := id hi
  have hidle := (runCycles_remaining hphase (n := 0)).2
  exact ⟨s.remaining, remaining_le hphase, _, run_noStimulus _ s hs hc (phaseInv_byteInRange hphase), hidle,
    runCycles_inv hi _⟩

/-! ### The frame of an accepted START -/

/-- An idle block stays idle, and its lines stay as they are (R120, R125). -/
theorem runCycles_idle {s : State} (h : s.blk.phase = .idle) (n : Nat) :
    (s.runCycles n).blk.phase = .idle ∧ (s.runCycles n).gpio = s.gpio := by
  induction n generalizing s with
  | zero => exact ⟨h, rfl⟩
  | succ n ih =>
    rw [State.runCycles, sequencerCycle_idle h]
    exact ih h

theorem FrameStart.byteInRange {t : State} (h : FrameStart t) : t.ByteInRange := fun _ => by
  rw [h.byteIdx]; exact h.some_byte

theorem FrameStart.period_pos {t : State} (h : FrameStart t) : 0 < t.blk.period.toNat := Nat.zero_lt_of_lt h.time1

/-- The frame ends after `8 * N * period` cycles (R118). -/
theorem FrameStart.ends {t : State} (h : FrameStart t) :
    FrameEnd t (t.runCycles (8 * t.blk.lenL.toNat * t.blk.period.toNat)) := by
  rw [h.runCycles (Nat.le_refl _)]; exact h.frameEnd

/-- R130 for every cycle: `k` and `r` are the quotient and the remainder of `d` by `period`. -/
theorem FrameStart.line_before_end {t : State} (h : FrameStart t) {d : Nat}
    (hd : d < 8 * t.blk.lenL.toNat * t.blk.period.toNat) :
    (t.runCycles d).busy = true
      ∧ (t.runCycles d).lineLevel = decide (d % t.blk.period.toNat
          < (if frameBit t.mem t.blk.bufL (d / t.blk.period.toNat) then t.blk.time1 else t.blk.time0).toNat) := by
  have hform := h.closedForm ((Nat.div_lt_iff_lt_mul h.period_pos).2 hd) (Nat.mod_lt d h.period_pos)
  rwa [Nat.div_add_mod'] at hform

/-- From the end of the frame on the block is idle with the line low (R125, R130). -/
theorem FrameStart.line_after_end {t : State} (h : FrameStart t) {d : Nat}
    (hd : 8 * t.blk.lenL.toNat * t.blk.period.toNat ≤ d) :
    (t.runCycles d).busy = false ∧ Lines.level (t.runCycles d).gpio t.blk.pinL = false := by
  obtain ⟨m, rfl⟩ := Nat.exists_eq_add_of_le hd
  obtain ⟨hidle, hgpio⟩ := runCycles_idle h.ends.phase m
  rw [runCycles_add, hgpio, h.ends.gpio]
  exact ⟨busy_false_iff.2 hidle, level_drive_self _ _ false⟩

/-- The record of a whole frame, oldest segment first, is the frame of the buffer's bytes (R75, R131). -/
theorem FrameEnd.wave_reverse {t u : State} (h : FrameEnd t u) :
    u.obs.wave.reverse = frameWave t.blk.time0.toNat t.blk.time1.toNat t.blk.period.toNat
      (t.mem.bytes t.blk.bufL t.blk.lenL.toNat) := by
  rw [h.wave, List.reverse_reverse, cellsWave_frame]

/-- What an accepted START of a byte or more leaves: a frame about to be sent. -/
theorem start_accepted {s t : State} {pin : Pin} {r : Bool} (hl : s.blk.len ≠ 0)
    (h : exec (if r then .tx800 pin else .tx400 pin) s = .next t) :
    FrameStart t ∧ t = s.endCycle (s.latch pin r).firstCell := by
  rw [exec_start] at h
  obtain ⟨hlegal, rfl⟩ := start_next h
  exact ⟨frameStart_of_start hlegal hl, by rw [State.startEffect, if_neg hl]⟩

/-- With nothing arriving, the steps after an accepted START are the cycles of its frame. -/
theorem run_started {s t : State} {pin : Pin} {r : Bool} (hs : s.stimuli = []) (hc : s.drv.stage = .idle)
    (hf : FrameStart t) (ht : t = s.endCycle (s.latch pin r).firstCell) (n : Nat) :
    Host.Core.run Sys2Proof.core n t = .next (t.runCycles n) :=
  run_noStimulus n t (by rw [ht]; exact hs) (by rw [ht]; exact hc) hf.byteInRange

/-- Settles O32: the closed form up to the end of the frame, and the idle block from there on. -/
theorem lineFollowsTheClosedForm : Obligations.LineFollowsTheClosedForm := by
  intro s t pin r hs hc hl h d
  obtain ⟨hf, ht⟩ := start_accepted hl h
  have hpin : t.blk.pinL = pin := by rw [ht]; rfl
  have hlen : t.blk.lenL = s.blk.len := by rw [ht]; rfl
  have hbuf : t.blk.bufL = s.blk.buf := by rw [ht]; rfl
  have hmem : t.mem = s.mem := by rw [ht]; rfl
  obtain ⟨-, hpin', -⟩ := runCycles_same d t
  refine ⟨t.runCycles d, run_started hs hc hf ht d, fun hd => ?_, fun hd => ?_⟩
  · rw [← hlen] at hd
    rw [← hmem, ← hbuf, ← hpin, ← hpin']
    exact hf.line_before_end hd
  · rw [← hlen] at hd
    rw [← hpin]
    exact hf.line_after_end hd

/-- The transmission that an accepted START began, run to its end (R118). -/
theorem run_frame {s t : State} {pin : Pin} {r : Bool} (hs : s.stimuli = []) (hc : s.drv.stage = .idle)
    (hl : s.blk.len ≠ 0) (h : exec (if r then .tx800 pin else .tx400 pin) s = .next t) :
    ∃ u, Host.Core.run Sys2Proof.core (8 * s.blk.len.toNat * t.blk.period.toNat) t = .next u ∧ FrameEnd t u := by
  obtain ⟨hf, ht⟩ := start_accepted hl h
  have hlen : t.blk.lenL = s.blk.len := by rw [ht]; rfl
  rw [← hlen]
  exact ⟨_, run_started hs hc hf ht _, hf.ends⟩

/-- Settles O33: the end of the frame, with the operands that the START latched. -/
theorem frameIsSentExactly : Obligations.FrameIsSentExactly := by
  intro s t pin r hs hc hl h
  obtain ⟨u, hrun, hend⟩ := run_frame hs hc hl h
  obtain ⟨-, rfl⟩ := start_accepted hl h
  refine ⟨u, hrun, hend.phase, ?_, hend.cc, hend.wave_reverse, ?_, hend.outside, fun q hq => ?_⟩
  · rw [hend.gpio]; exact level_drive_self _ _ false
  · rw [hend.reads, List.reverse_reverse]; rfl
  · rw [hend.gpio]
    exact (level_drive_other _ hq false).trans (level_drive_other s.gpio hq true)

/-- The timing a START latches is a function of the parameters and `F_CPU` (R90 to R95). -/
theorem newTimes_congr {s s' : State} (hparams : s'.params = s.params) (hclock : s'.fCpu = s.fCpu) (r : Bool) :
    s'.newTime0 r = s.newTime0 r ∧ s'.newTime1 r = s.newTime1 r ∧ s'.newPeriod r = s.newPeriod r := by
  simp only [State.newTime0, State.newTime1, State.newPeriod, State.nominal, hparams, hclock, and_self]

/-- The record of the frame that an accepted START began, by its bytes and the timing it latched (R131). -/
theorem FrameEnd.wave_of_start {s u : State} {pin : Pin} {r : Bool}
    (h : FrameEnd (s.endCycle (s.latch pin r).firstCell) u) :
    u.obs.wave.reverse = frameWave (s.newTime0 r).toNat (s.newTime1 r).toNat (s.newPeriod r).toNat
      (s.mem.bytes s.blk.buf s.blk.len.toNat) := h.wave_reverse

/-- Settles O34: both records are the frame of the same bytes at the same latched timing. -/
theorem waveformDependsOnClockRateAndBytesOnly : Obligations.WaveformDependsOnClockRateAndBytesOnly := by
  intro s s' t t' u u' pin pin' r n hs hs' hc hc' hl hparams hclock hlen hbytes h h' hn hu hu'
  have hl' : s'.blk.len ≠ 0 := by rw [hlen]; exact hl
  obtain ⟨v, hrun, hend⟩ := run_frame hs hc hl h
  obtain ⟨v', hrun', hend'⟩ := run_frame hs' hc' hl' h'
  obtain ⟨-, rfl⟩ := start_accepted hl h
  obtain ⟨-, rfl⟩ := start_accepted hl' h'
  obtain ⟨h0, h1, hp⟩ := newTimes_congr hparams hclock r
  change n = 8 * s.blk.len.toNat * (s.newPeriod r).toNat at hn
  have hn' : n = 8 * s'.blk.len.toNat * (s'.newPeriod r).toNat := by rw [hn, hlen, hp]
  obtain rfl : u = v := by
    rw [hn] at hu; exact Host.Outcome.next.inj (hu.symm.trans hrun)
  obtain rfl : u' = v' := by
    rw [hn'] at hu'; exact Host.Outcome.next.inj (hu'.symm.trans hrun')
  refine ⟨List.reverse_injective ?_, hend.phase, hend'.phase⟩
  rw [hend.wave_of_start, hend'.wave_of_start, hbytes, h0, h1, hp]

end Sys2Proof.Machine
end

section
/-! The host driver (R140 to R156): the two calls in the cycle in which they are made, what a SHOW asks the allocator, where it is
refused, what it sends and leaves, and the scaling function. -/

namespace Sys2Proof.Machine

/-! ### The cycle of a call (R141, R142, R154, R155) -/

/-- The sequencer does not look at the driver. -/
theorem sequencerCycle_withDrv (s : State) (d : Driver) :
    State.sequencerCycle { s with drv := d } = { s.sequencerCycle with drv := d } := by
  calc State.sequencerCycle { s with drv := d }
    _ = { s.sequencerCycle with drv := d, busData := s.busData } := sequencerCycle_host s d s.busData
    _ = { s.sequencerCycle with drv := d } := by rw [← State.sequencerCycle_busData s]

/-- The sequencer looks neither at the driver nor at the allocator's side. -/
theorem sequencerCycle_withDrvAlloc (s : State) (d : Driver) (al : Allocator) :
    State.sequencerCycle { s with drv := d, alloc := al } = { s.sequencerCycle with drv := d, alloc := al } := by
  rw [sequencerCycle_withAlloc { s with drv := d } al, sequencerCycle_withDrv]

theorem execShow_inCall {s : State} (hc : s.drv.stage ≠ .idle) (x : BitVec 8) :
    exec (.showFrame x) s = .refused .showReentered := if_pos hc

theorem execShow_null {s : State} (hc : s.drv.stage = .idle) (hp : s.drv.pixels = none) (x : BitVec 8) :
    exec (.showFrame x) s = .next s.sequencerCycle := by
  simp [exec, execShow, hc, hp]

/-- R144: below full brightness SHOW goes to its allocation in the cycle of the call. -/
theorem execShow_scaled {s : State} (hc : s.drv.stage = .idle) (hp : s.drv.pixels ≠ none) (hb : s.drv.brightness ≠ 255)
    (x : BitVec 8) : exec (.showFrame x) s = .next (s.enter .allocate).sequencerCycle := by
  obtain ⟨p, hp⟩ := Option.ne_none_iff_exists'.1 hp
  simp only [exec, execShow, hc, hp, ne_eq, not_true_eq_false, if_false, if_neg hb]

/-- Settles O49: the sequencer's cycle does not look at the driver. -/
theorem setBrightnessChangesOnlyBrightness : Obligations.SetBrightnessChangesOnlyBrightness := fun _ s =>
  congrArg Host.Outcome.next (sequencerCycle_withDrv s _)

/-- Settles O50: the null test comes before the choice of path. -/
theorem showOfNullDoesNothing : Obligations.ShowOfNullDoesNothing := fun x _ hc hp => execShow_null hc hp x

/-! ### The allocation (R144, R145) -/

theorem allocPlace_stack {s : State} (h : s.drv.numBytes.toNat ≤ s.params.stackThreshold) : s.allocPlace = .stack := if_pos h

theorem allocPlace_heap {s : State} (h : s.params.stackThreshold < s.drv.numBytes.toNat) : s.allocPlace = .heap :=
  if_neg (Nat.not_le.2 h)

theorem countAlloc_stack {s : State} (h : s.allocPlace = .stack) : s.countAlloc.alloc
    = { s.alloc with stackScript := s.alloc.stackScript.tail, stackRequests := s.alloc.stackRequests + 1 } := by
  rw [State.countAlloc, h]

theorem countAlloc_heap {s : State} (h : s.allocPlace = .heap) : s.countAlloc.alloc
    = { s.alloc with heapScript := s.alloc.heapScript.tail, heapRequests := s.alloc.heapRequests + 1 } := by
  rw [State.countAlloc, h]

/-- The request and its answer depend on the byte count, the threshold and the allocator's side only. -/
theorem allocation_congr {s t : State} (hn : t.drv.numBytes = s.drv.numBytes) (hp : t.params = s.params)
    (ha : t.alloc = s.alloc) : t.countAlloc.alloc = s.countAlloc.alloc ∧ t.allocAnswer = s.allocAnswer := by
  have hplace : t.allocPlace = s.allocPlace := by rw [State.allocPlace, hn, hp, ← State.allocPlace]
  rw [State.allocAnswer, State.allocAnswer, hplace, ha]
  refine ⟨?_, rfl⟩
  cases h : s.allocPlace with
  | stack => rw [countAlloc_stack h, countAlloc_stack (hplace.trans h), ha]
  | heap => rw [countAlloc_heap h, countAlloc_heap (hplace.trans h), ha]

/-- The first of the steps of a run that answers next. -/
theorem run_succ_next {n : Nat} {s u : State} (h : Host.Core.run Sys2Proof.core (n + 1) s = .next u) :
    ∃ t, step s = .next t ∧ Host.Core.run Sys2Proof.core n t = .next u := by
  cases hs : step s with
  | next t => exact ⟨t, rfl, (run_succ hs).symm.trans h⟩
  | fault r => cases r
  | refused r => simp only [Host.Core.run, Sys2Proof.core, hs] at h; cases h

/-- A SHOW with a buffer that has returned has asked the allocator once, and at full brightness not at all (R143, R144). -/
theorem show_alloc {x : BitVec 8} {s t u : State} {k : Nat} (hs : s.stimuli = []) (hp : s.drv.pixels ≠ none)
    (hcall : exec (.showFrame x) s = .next t) (hrun : Host.Core.run Sys2Proof.core k t = .next u)
    (hdone : u.drv.stage = .idle) : u.alloc = if s.drv.brightness = 255 then s.alloc else s.countAlloc.alloc := by
  obtain ⟨hc, -⟩ := show_next hcall
  by_cases hb : s.drv.brightness = 255
  · rw [execShow_full hc hp hb] at hcall
    cases hcall
    rw [run_alloc k (by simpa using hs) (by simp) hrun, if_pos hb, State.sequencerCycle_alloc, State.enter_alloc]
  · rw [execShow_scaled hc hp hb] at hcall
    obtain rfl := Host.Outcome.next.inj hcall
    cases k with
    | zero => cases hrun; simp at hdone
    | succ k =>
      obtain ⟨v, hstep, hrun⟩ := run_succ_next hrun
      rw [step_driver (by simpa using hs)] at hstep
      have hv := fetchDriver_next hstep
      obtain ⟨-, -, hstimuli, -⟩ := hv.frame
      obtain ⟨hstage, halloc⟩ := hv.alloc
      rw [run_alloc k (hstimuli.trans (by simpa using hs)) hstage hrun, halloc, if_neg hb, if_pos (by simp)]
      exact (allocation_congr (by simp) (by simp) (by simp)).1

/-- Settles O55: the one request is counted at its place, and there is none at full brightness. -/
theorem allocationPlaceFollowsTheThreshold : Obligations.AllocationPlaceFollowsTheThreshold := by
  intro x s t u k p hs hp hcall hrun hdone
  have halloc := show_alloc hs (by simp [hp]) hcall hrun hdone
  refine ⟨fun hb hn => ?_, fun hb hn => ?_, fun hb => by rw [halloc, if_pos hb]⟩
  · rw [halloc, if_neg hb, countAlloc_stack (allocPlace_stack hn)]; exact ⟨rfl, rfl⟩
  · rw [halloc, if_neg hb, countAlloc_heap (allocPlace_heap hn)]; exact ⟨rfl, rfl⟩

/-- Without an answer the second cycle of a SHOW drops the frame, and the call has returned (R145). -/
theorem show_allocateScratch_failed {s : State} (hc : s.drv.stage = .idle) (h : s.allocAnswer = none) :
    (s.enter .allocate).sequencerCycle.allocateScratch
      = { s.sequencerCycle with drv := { s.drv with logs := s.drv.logs + 1 }, alloc := s.countAlloc.alloc } := by
  have ht : (s.enter .allocate).sequencerCycle = { s.sequencerCycle with drv := { s.drv with stage := .allocate } } :=
    sequencerCycle_withDrv s _
  obtain ⟨hcount, hans⟩ := allocation_congr (s := s) (t := (s.enter .allocate).sequencerCycle) (by simp) (by simp) (by simp)
  rw [State.allocateScratch, hans, h]
  simp only
  rw [countAlloc_eq, hcount, ht, State.dropFrame, ← hc]

/-- Settles O52: the sequencer looks neither at the driver nor at the allocator's side, so its two cycles are those of `s`. -/
theorem showDropsTheFrameWhenTheHeapFails : Obligations.ShowDropsTheFrameWhenTheHeapFails := by
  intro x s p hi hc hs hp hb hn hfail
  have hplace := allocPlace_heap hn
  have hcall := execShow_scaled hc (by simp [hp]) hb x
  obtain ⟨-, -, hphase⟩ := show_inv hi hcall
  have hstep := (DriverStep.allocate (by simp)).step (by simpa using hs) (phaseInv_byteInRange hphase)
  have hnone : s.allocAnswer = none := by rw [State.allocAnswer, hplace]; exact hfail
  rw [show_allocateScratch_failed hc hnone, countAlloc_heap hplace] at hstep
  exact ⟨_, hcall, hstep.trans (congrArg Host.Outcome.next (sequencerCycle_withDrvAlloc s.sequencerCycle _ _))⟩

/-! ### Refusals (R51, R55, R155) -/

theorem disjoint_eq_false {a b x : U32} {na nb : Nat} (ha : inRange a na x = true) (hb : inRange b nb x = true) :
    disjoint a na b nb = false := by
  rw [inRange_iff] at ha hb
  rw [← Bool.not_eq_true, disjoint_iff]
  omega

/-- A copy without a meaning stops the machine, nothing arriving. -/
theorem step_copy_refused {s : State} {r : Refusal} (hs : s.stimuli = []) (hst : s.drv.stage = .copy)
    (hr : s.copyRefusal = some r) : step s = .refused r := by
  rw [step_driver hs, State.fetchDriver, hst]
  simp only [hr, Fetched.outcome]

theorem copyRefusal_pastTop {s : State} (h : 4294967296 < s.drv.callerBuf.toNat + s.drv.numBytes.toNat) :
    s.copyRefusal = some .bufferPastTop := if_pos (by rw [← Bool.not_eq_true, fitsSpace_iff]; omega)

theorem copyRefusal_inFlight {s : State} (hf : fitsSpace s.drv.callerBuf s.drv.numBytes.toNat = true)
    (ha : s.apartFromFlight s.drv.callerBuf s.drv.numBytes.toNat = false) :
    s.copyRefusal = some .bufferReadWhileBusy := by
  simp [State.copyRefusal, hf, ha]

/-- Settles O60: the test of a call in progress, and the two reasons of the copy in their order. -/
theorem showIsRefusedOnMisuse : Obligations.ShowIsRefusedOnMisuse := by
  refine ⟨fun x s hc => execShow_inCall hc x, fun s p hs hst hsaved hp => ?_⟩
  have hbuf : s.drv.callerBuf = p := by rw [Driver.callerBuf, callerPixels_rest hsaved, hp]; rfl
  refine ⟨fun htop => ?_, fun hfits hbusy ⟨a, ha, hflight⟩ => ?_⟩
  · exact step_copy_refused hs hst (copyRefusal_pastTop (by rwa [hbuf]))
  · refine step_copy_refused hs hst (copyRefusal_inFlight ?_ ?_) <;> rw [hbuf]
    · exact fitsSpace_iff.2 hfits
    · rw [← Bool.not_eq_true, apartFromFlight_iff]
      exact fun h => Bool.false_ne_true ((disjoint_eq_false ha hflight).symm.trans (h hbusy))

/-! ### A SHOW whole (R143, R146 to R151, R153) -/

/-- Settles O51: the call goes to the wait, and the TX is given the caller's own buffer. -/
theorem showAtFullBrightnessSendsTheCallersBuffer : Obligations.ShowAtFullBrightnessSendsTheCallersBuffer := by
  intro x s p hi hc hs hp hb hlegal
  obtain ⟨t, k, u, hcall, hrun, hsent, hframe⟩ := showFull_run (x := x) hi hc hs hp hb hlegal
  exact ⟨t, u, k, hcall, hrun, hsent, hframe⟩

/-- Settles O53: memory at the return is the caller's bytes copied and scaled into a scratch buffer apart from them. -/
theorem showScaledSendsScaledBytes : Obligations.ShowScaledSendsScaledBytes := by
  intro x s p a hi hc hs hp hb ha hfits hapart hpin htiming
  obtain ⟨t, k, u, base, hcall, hrun, hbase, hdisjoint, hanswer, hsent, hdrv, hmem, -⟩ :=
    showScaled_run (x := x) hi hc hs hp hb ha hfits hapart hpin htiming
  have hother (b : U32) (hout : inRange base s.drv.numBytes.toNat b = false) : u.mem.read b = s.mem.read b := by
    rw [hmem]; exact scaledMem_other _ _ _ hbase hout
  exact ⟨t, u, k, base, hcall, hrun, hbase, hdisjoint, hanswer, hsent, bytes_caller hfits hdisjoint hother, hother, hdrv⟩

/-- Between calls the driver is at rest (R39). -/
theorem atRest_of_inv {s : State} (hi : s.Inv) (hc : s.drv.stage = .idle) : s.drv.AtRest := by
  obtain ⟨-, hcall, -⟩ := hi
  simpa only [State.CallInv, hc] using hcall

/-- Settles O54: what every stage keeps holds at the return, where the driver is at rest and its pointer the caller's own. -/
theorem showLeavesTheCallersBufferUnmodified : Obligations.ShowLeavesTheCallersBufferUnmodified := by
  intro x s t u k hi hs hcall hrun hdone
  have hafter := (show_afterCall hi hs hcall).run k hrun
  obtain ⟨hsaved, hscratch⟩ := atRest_of_inv hafter.inv hdone
  have hpixels : u.drv.pixels = s.drv.pixels := (callerPixels_rest hsaved).symm.trans hafter.pixels
  exact ⟨hafter.bytes, hpixels, hafter.brightness, hscratch, hsaved, fun hidle => hafter.blockIdle hidle (by simp [hdone])⟩

/-! ### The scaling function (R148, R156) -/

theorem scale_zero_right (b : U8) : scale b 0 = 0 := by
  apply BitVec.eq_of_toNat_eq; simp [scale_toNat]

theorem scale_zero_left (s : U8) : scale 0 s = 0 := by
  apply BitVec.eq_of_toNat_eq; simp [scale_toNat]

theorem scale_full_right (b : U8) : scale b 255 = b := by
  apply BitVec.eq_of_toNat_eq
  rw [scale_toNat]
  exact Nat.mul_div_cancel _ (by decide)

theorem scale_full_left (s : U8) : scale 255 s = s := by
  apply BitVec.eq_of_toNat_eq
  rw [scale_toNat]
  exact Nat.mul_div_cancel_left _ (by decide)

theorem scale_mono {b b' s s' : U8} (hb : b.toNat ≤ b'.toNat) (hs : s.toNat ≤ s'.toNat) :
    (scale b s).toNat ≤ (scale b' s').toNat := by
  rw [scale_toNat, scale_toNat]
  exact Nat.div_le_div_right (Nat.mul_le_mul hb hs)

/-- Scaling is by at most the full brightness, which scales nothing. -/
theorem scale_le (b s : U8) : (scale b s).toNat ≤ b.toNat := by
  calc (scale b s).toNat ≤ (scale b 255).toNat := scale_mono (Nat.le_refl _) (Nat.le_pred_of_lt s.isLt)
    _ = b.toNat := by rw [scale_full_right]

/-- Settles O56: the floor is exact in 8 bits, and each law follows from it. -/
theorem scalingLaws : Obligations.ScalingLaws :=
  ⟨scale_toNat, scale_zero_right, scale_full_right, scale_zero_left, scale_full_left, scale_le, fun _ _ _ _ => scale_mono⟩

/-- Settles O57: the 42 entries, evaluated. -/
theorem scalingReferenceValues : Obligations.ScalingReferenceValues := by
  unfold Obligations.ScalingReferenceValues
  decide

end Sys2Proof.Machine
end

section
/-! What a hold does to the software routine (R110, R207): its waits end when their cycles have elapsed, and what is overrun ends on
resumption. The waits of the routine come down to one state, `State.lowAfterHold`, in which the end of the cell is tested. -/

namespace Sys2Proof.Machine

/-! ### The next cell of the routine -/

/-- The bit after the one being sent, of the same byte. -/
def State.toNextBit (s : State) : State := { s with blk.bitIdx := s.blk.bitIdx - 1 }

/-- The first bit of the byte after the one being sent, which is read. -/
def State.toNextByte (s : State) : State :=
  { s with
    blk.pix := s.mem.read s.nextByteAddr
    blk.byteIdx := s.blk.byteIdx + 1
    blk.bitIdx := 7
    obs.reads := s.nextByteAddr :: s.obs.reads }

/-- The end of a cell changes neither the counter nor the record of the line, nor what no cycle of the block changes. -/
theorem routineNextCell_same (s : State) : s.routineNextCell.cc = s.cc ∧ s.routineNextCell.obs.wave = s.obs.wave
    ∧ SameOutside s s.routineNextCell ∧ SameLatched s s.routineNextCell := by
  rcases routineNextCell_cases s with ⟨-, e⟩ | ⟨-, -, e⟩ | ⟨-, -, e⟩
  all_goals rw [e]; exact ⟨rfl, rfl, SameOutside.rfl' s, SameLatched.rfl' s⟩

theorem byteIdx_succ {s : State} (hy : s.blk.byteIdx.toNat < s.blk.lenL.toNat) :
    (s.blk.byteIdx + 1).toNat = s.blk.byteIdx.toNat + 1 := by
  have hlen := s.blk.lenL.isLt
  have h1 : (1 : U16).toNat = 1 := rfl
  rw [BitVec.toNat_add, h1]; omega

theorem toNextByte_transmissionInv {s : State} (hT : s.TransmissionInv)
    (hy : s.blk.byteIdx.toNat + 1 ≠ s.blk.lenL.toNat) : s.toNextByte.TransmissionInv := by
  obtain ⟨hin, -, hrest⟩ := hT
  have hsucc := byteIdx_succ hin
  refine ⟨?_, congrArg (fun k => s.mem.read (byteAddr s.blk.bufL k)) hsucc.symm, hrest⟩
  show (s.blk.byteIdx + 1).toNat < s.blk.lenL.toNat
  omega

/-- The end of a cell begins the next one, or ends the transmission, within rule R40. -/
theorem routineNextCell_phaseInv {s : State} (hT : s.TransmissionInv) (hg : s.gpio = 0) : s.routineNextCell.PhaseInv := by
  rcases routineNextCell_cases s with ⟨-, e⟩ | ⟨-, hy, e⟩ | ⟨-, -, e⟩ <;> rw [e]
  · exact routineRise_phaseInv (v := s.toNextBit) hT hg
  · exact routineRise_phaseInv (toNextByte_transmissionInv hT hy) hg
  · exact (PhaseInv_idle rfl).2 hg

/-! ### The cycles left, counted in cells -/

/-- How many cells of the transmission follow the one being sent (R118). -/
def State.cellsAfter (s : State) : Nat := (s.blk.lenL.toNat - 1 - s.blk.byteIdx.toNat) * 8 + s.blk.bitIdx.toNat

theorem remaining_busy {s : State} (hb : s.blk.phase ≠ .idle) :
    s.remaining = s.cellsAfter * s.blk.period.toNat + (s.blk.period.toNat - s.elapsed.toNat) := if_pos (busy_iff.2 hb)

theorem routineRise_remaining_cells (s : State) :
    s.routineRise.remaining = (s.cellsAfter + 1) * s.blk.period.toNat := by
  rw [routineRise_remaining, Nat.succ_mul]
  rfl

theorem toNextBit_cellsAfter {s : State} (hz : s.blk.bitIdx ≠ 0) : s.toNextBit.cellsAfter + 1 = s.cellsAfter := by
  have h1 : (1 : BitVec 3).toNat = 1 := rfl
  have hpos := toNat_pos hz
  have hbit : (s.blk.bitIdx - 1).toNat + 1 = s.blk.bitIdx.toNat := by
    rw [BitVec.toNat_sub, h1]; have := s.blk.bitIdx.isLt; omega
  show _ + (s.blk.bitIdx - 1).toNat + 1 = _
  rw [Nat.add_assoc, hbit]
  rfl

theorem toNextByte_cellsAfter {s : State} (hin : s.blk.byteIdx.toNat < s.blk.lenL.toNat) (hz : s.blk.bitIdx = 0)
    (hy : s.blk.byteIdx.toNat + 1 ≠ s.blk.lenL.toNat) : s.toNextByte.cellsAfter + 1 = s.cellsAfter := by
  have hsucc := byteIdx_succ hin
  have h0 : (0 : BitVec 3).toNat = 0 := rfl
  show (s.blk.lenL.toNat - 1 - (s.blk.byteIdx + 1).toNat) * 8 + 7 + 1 = _
  rw [State.cellsAfter, hz, h0, hsucc]
  omega

theorem cellsAfter_last {s : State} (hz : s.blk.bitIdx = 0) (hy : s.blk.byteIdx.toNat + 1 = s.blk.lenL.toNat) :
    s.cellsAfter = 0 := by
  have h0 : (0 : BitVec 3).toNat = 0 := rfl
  rw [State.cellsAfter, hz, h0]
  omega

/-- At the end of a cell exactly the cells that follow it are left. -/
theorem routineNextCell_remaining {s : State} (hin : s.blk.byteIdx.toNat < s.blk.lenL.toNat) :
    s.routineNextCell.remaining = s.cellsAfter * s.blk.period.toNat := by
  rcases routineNextCell_cases s with ⟨hz, e⟩ | ⟨hz, hy, e⟩ | ⟨hz, hy, e⟩ <;> rw [e]
  · rw [← toNextBit_cellsAfter hz]; exact routineRise_remaining_cells s.toNextBit
  · rw [← toNextByte_cellsAfter hin hz hy]; exact routineRise_remaining_cells s.toNextByte
  · rw [cellsAfter_last hz hy, Nat.zero_mul]; exact remaining_idle rfl

/-! ### The states on resumption -/

/-- The state on resumption in which the low wait is tested: a high wait that was overrun has just ended in it (R207). -/
def State.lowAfterHold (s : State) (d : Nat) : State := { s.holdFor d with gpio := 0, blk.phase := .low }

theorem lowAfterHold_elapsed {s : State} {d : Nat} (hd : s.elapsed.toNat + d < 4294967296) :
    (s.lowAfterHold d).elapsed.toNat = s.elapsed.toNat + d := holdFor_elapsed hd

/-- Held in the low wait the routine is in the low wait on resumption. -/
theorem lowAfterHold_of_low {s : State} (hi : s.Inv) (hp : s.blk.phase = .low) (d : Nat) :
    s.lowAfterHold d = s.holdFor d := by
  obtain ⟨-, -, hphase⟩ := hi
  obtain ⟨-, hg, -⟩ := (PhaseInv_low hp).1 hphase
  have hg' : (s.holdFor d).gpio = 0 := hg
  have hp' : (s.holdFor d).blk.phase = .low := hp
  rw [State.lowAfterHold, ← hg', ← hp']

/-- The record shows the level of the wait in which the routine was held. -/
theorem lowAfterHold_wave {s : State} (hi : s.Inv) (hb : s.blk.phase ≠ .idle) (d : Nat) :
    (s.lowAfterHold d).obs.wave = pushSegment (decide (s.blk.phase = .high)) d s.obs.wave := by
  show pushSegment s.lineLevel d s.obs.wave = _
  cases hp : s.blk.phase with
  | idle => exact absurd hp hb
  | high => rw [line_high hi hp]; rfl
  | low => rw [line_low hi hp]; rfl

/-- A high wait that is not over goes on. -/
theorem resumed_highWait {s : State} {d : Nat} (hp : s.blk.phase = .high) (he : s.elapsed.toNat + d < s.thr.toNat) :
    s.heldThenResumed d = s.holdFor d := by
  rw [heldThenResumed_high hp (he.trans s.thr.isLt), if_neg (Nat.not_le.2 he)]

/-- The low wait is tested where the high wait was overrun (the line goes low at that), and where the hold was in the low wait. -/
theorem resumed_lowTest {s : State} {d : Nat} (hi : s.Inv) (hb : s.blk.phase ≠ .idle)
    (hd : s.elapsed.toNat + d < 4294967296) (he : s.blk.phase = .high → s.thr.toNat ≤ s.elapsed.toNat + d) :
    s.heldThenResumed d = if s.blk.period.toNat ≤ s.elapsed.toNat + d then (s.lowAfterHold d).routineNextCell
      else s.lowAfterHold d := by
  cases hp : s.blk.phase with
  | idle => exact absurd hp hb
  | high =>
    obtain ⟨-, -, hphase⟩ := hi
    obtain ⟨-, hg, -⟩ := (PhaseInv_high hp).1 hphase
    have hlow : { (s.holdFor d).dropLine with blk.phase := .low } = s.lowAfterHold d := by
      rw [State.lowAfterHold, ← drive_true_false _ _ hg]
      rfl
    rw [heldThenResumed_high hp hd, if_pos (he hp), hlow]
  | low => rw [heldThenResumed_low hp hd, lowAfterHold_of_low hi hp]

/-- Before the end of the cell the low wait goes on. -/
theorem resumed_lowWait {s : State} {d : Nat} (hi : s.Inv) (hb : s.blk.phase ≠ .idle)
    (he : s.blk.phase = .high → s.thr.toNat ≤ s.elapsed.toNat + d)
    (hlt : s.elapsed.toNat + d < s.blk.period.toNat) : s.heldThenResumed d = s.lowAfterHold d := by
  rw [resumed_lowTest hi hb (hlt.trans s.blk.period.isLt) he, if_neg (Nat.not_le.2 hlt)]

/-- A cell that was overrun is over, and a low part that had not begun has vanished. -/
theorem resumed_cellOver {s : State} {d : Nat} (hi : s.Inv) (hb : s.blk.phase ≠ .idle)
    (hd : s.elapsed.toNat + d < 4294967296) (hle : s.blk.period.toNat ≤ s.elapsed.toNat + d) :
    s.heldThenResumed d = (s.lowAfterHold d).routineNextCell := by
  obtain ⟨-, -, hphase⟩ := id hi
  obtain ⟨-, hthr⟩ := TransmissionInv_thr (phaseInv_transmission hphase hb)
  rw [resumed_lowTest hi hb hd fun _ => hthr.le.trans hle, if_pos hle]

/-- The three things a hold can come to: the high wait goes on, the low wait goes on, or the cell is over (R207). -/
theorem resumed_cases {s : State} {d : Nat} (hi : s.Inv) (hb : s.blk.phase ≠ .idle)
    (hd : s.elapsed.toNat + d < 4294967296) :
    (s.heldThenResumed d = s.holdFor d ∧ s.blk.phase = .high ∧ s.elapsed.toNat + d < s.thr.toNat)
    ∨ (s.heldThenResumed d = s.lowAfterHold d ∧ s.thr.toNat ≤ s.elapsed.toNat + d
        ∧ s.elapsed.toNat + d < s.blk.period.toNat)
    ∨ (s.heldThenResumed d = (s.lowAfterHold d).routineNextCell ∧ s.blk.period.toNat ≤ s.elapsed.toNat + d) := by
  by_cases hle : s.blk.period.toNat ≤ s.elapsed.toNat + d
  · exact .inr (.inr ⟨resumed_cellOver hi hb hd hle, hle⟩)
  by_cases hthr : s.thr.toNat ≤ s.elapsed.toNat + d
  · exact .inr (.inl ⟨resumed_lowWait hi hb (fun _ => hthr) (Nat.not_le.1 hle), hthr, Nat.not_le.1 hle⟩)
  · obtain ⟨-, -, hphase⟩ := hi
    cases hp : s.blk.phase with
    | idle => exact absurd hp hb
    | high => exact .inl ⟨resumed_highWait hp (Nat.not_le.1 hthr), rfl, Nat.not_le.1 hthr⟩
    | low =>
      obtain ⟨-, -, hlo, -⟩ := (PhaseInv_low hp).1 hphase
      omega

/-! ### What every hold leaves -/

theorem resumed_same {s : State} {d : Nat} (hi : s.Inv) (hb : s.blk.phase ≠ .idle)
    (hd : s.elapsed.toNat + d < 4294967296) :
    SameOutside s (s.heldThenResumed d) ∧ SameLatched s (s.heldThenResumed d) := by
  rcases resumed_cases hi hb hd with ⟨e, -⟩ | ⟨e, -⟩ | ⟨e, -⟩
  · rw [e]; exact ⟨SameOutside.rfl' s, SameLatched.rfl' s⟩
  · rw [e]; exact ⟨SameOutside.rfl' s, SameLatched.rfl' s⟩
  · rw [e]
    obtain ⟨-, -, hout, hlatched⟩ := routineNextCell_same (s.lowAfterHold d)
    exact ⟨hout, hlatched⟩

theorem resumed_phaseInv {s : State} {d : Nat} (hi : s.Inv) (hb : s.blk.phase ≠ .idle)
    (hd : s.elapsed.toNat + d < 4294967296) : (s.heldThenResumed d).PhaseInv := by
  obtain ⟨-, -, hphase⟩ := id hi
  have hT := phaseInv_transmission hphase hb
  rcases resumed_cases hi hb hd with ⟨e, hp, hlt⟩ | ⟨e, hthr, hlt⟩ | ⟨e, -⟩
  · obtain ⟨-, hg, -⟩ := (PhaseInv_high hp).1 hphase
    rw [e]
    exact (PhaseInv_high (by exact hp)).2 ⟨hT, hg, by rw [holdFor_elapsed hd]; exact hlt⟩
  · rw [e]
    refine (PhaseInv_low rfl).2 ⟨hT, rfl, ?_⟩
    rw [lowAfterHold_elapsed hd]
    exact ⟨hthr, hlt⟩
  · rw [e]; exact routineNextCell_phaseInv (s := s.lowAfterHold d) hT rfl

theorem resumed_inv {s : State} {d : Nat} (hi : s.Inv) (hb : s.blk.phase ≠ .idle)
    (hd : s.elapsed.toNat + d < 4294967296) : (s.heldThenResumed d).Inv := by
  obtain ⟨hwf, hcall, -⟩ := id hi
  obtain ⟨⟨hmem, -, -, hdrv, -⟩, ⟨-, hbuf, hlen, -⟩⟩ := resumed_same hi hb hd
  exact ⟨by rwa [hmem], callInv_of hcall hdrv (fun _ => busy_iff.2 hb) hbuf hlen, resumed_phaseInv hi hb hd⟩

/-- A wait that goes on has the cycles of the hold behind it. -/
theorem remaining_held {s u : State} {d : Nat} (hb : s.blk.phase ≠ .idle) (hu : u.blk.phase ≠ .idle)
    (hcells : u.cellsAfter = s.cellsAfter) (hp : u.blk.period = s.blk.period)
    (he : u.elapsed.toNat = s.elapsed.toNat + d) (hlt : s.elapsed.toNat + d < s.blk.period.toNat) :
    u.remaining + d = s.remaining := by
  rw [remaining_busy hu, remaining_busy hb, hcells, hp, he]
  omega

/-- The rest is late by what the hold passed `period` by (R207). -/
theorem resumed_remaining {s : State} {d : Nat} (hi : s.Inv) (hb : s.blk.phase ≠ .idle)
    (hd : s.elapsed.toNat + d < 4294967296) :
    (s.heldThenResumed d).remaining + d = s.remaining + (s.elapsed.toNat + d - s.blk.period.toNat) := by
  obtain ⟨-, -, hphase⟩ := id hi
  have hT := phaseInv_transmission hphase hb
  obtain ⟨-, hthr⟩ := TransmissionInv_thr hT
  have hel := phaseInv_elapsed_lt hphase hb
  rcases resumed_cases hi hb hd with ⟨e, -, hlt⟩ | ⟨e, -, hlt⟩ | ⟨e, hle⟩
  · rw [e, remaining_held (u := s.holdFor d) hb hb rfl rfl (holdFor_elapsed hd) (hlt.trans hthr)]
    omega
  · rw [e, remaining_held (u := s.lowAfterHold d) hb (busy_of_low rfl) rfl rfl (lowAfterHold_elapsed hd) hlt]
    omega
  · have hnext : (s.lowAfterHold d).routineNextCell.remaining = s.cellsAfter * s.blk.period.toNat :=
      routineNextCell_remaining (s := s.lowAfterHold d) hT.1
    rw [e, hnext, remaining_busy hb]
    omega

/-! ### The statement of R207 -/

theorem level_zero (p : Pin) : Lines.level 0 p = false := BitVec.getLsbD_zero

/-- Settles O37: each wait by the state in which the hold leaves it, and the invariant and the cycles left over all of them. -/
theorem holdDistortsTheSoftwareRoutine : Obligations.HoldDistortsTheSoftwareRoutine := by
  rintro s t d hi hb hd rfl
  obtain ⟨-, hlatched⟩ := resumed_same hi hb hd
  refine ⟨fun hp hlt => resumed_highWait hp hlt, fun hp hthr hlt => ?_, fun hp hlt => ?_, fun hle => ?_,
    resumed_inv hi hb hd, resumed_remaining hi hb hd⟩
  · have hwave := lowAfterHold_wave hi hb d
    rw [hp, decide_eq_true rfl] at hwave
    rw [resumed_lowWait hi hb (fun _ => hthr) hlt] at hlatched ⊢
    exact ⟨rfl, level_zero _, lowAfterHold_elapsed hd, hwave, hlatched⟩
  · rw [resumed_lowWait hi hb (fun hh => by rw [hp] at hh; cases hh) hlt, lowAfterHold_of_low hi hp]
  · rw [resumed_cellOver hi hb hd hle] at hlatched ⊢
    obtain ⟨hcc, hwave, -⟩ := routineNextCell_same (s.lowAfterHold d)
    refine ⟨hcc, hlatched, hwave.trans (lowAfterHold_wave hi hb d), ?_⟩
    rcases routineNextCell_cases (s.lowAfterHold d) with ⟨hz, e⟩ | ⟨hz, hy, e⟩ | ⟨hz, hy, e⟩ <;> rw [e]
    · exact ⟨fun _ => ⟨rfl, level_drive_self _ _ true, rfl, rfl, rfl⟩, fun h => absurd h hz, fun h => absurd h hz⟩
    · exact ⟨absurd hz, fun _ _ => ⟨rfl, level_drive_self _ _ true, rfl, rfl, rfl, rfl⟩, fun _ h => absurd h hy⟩
    · exact ⟨absurd hz, fun _ h => absurd hy h, fun _ _ => ⟨rfl, rfl⟩⟩

end Sys2Proof.Machine
end

section
/-! Reset (R191, R192), and a START before its operands are written (R191). -/

namespace Sys2Proof.Machine

/-- `BTG_STATUS` of an idle block reads 0 (R31). -/
theorem statusWord_idle {s : State} (h : s.blk.phase = .idle) : s.statusWord = 0 := by
  rw [State.statusWord, lineFlag_idle h, busy_false_iff.2 h]
  rfl

/-- `BTG_LEN` holds 16 bits (R29). -/
theorem regValue_len_zeros (s : State) {i : Nat} (hi : 16 ≤ i) : (s.regValue .len).getLsbD i = false := by
  rw [regValue_len, BitVec.getLsbD_append, if_neg (by omega), BitVec.getLsbD_zero]

/-- Settles O1: the registers as `Block.reset` and `Driver.reset` give them, and the words that the flags make of them. -/
theorem resetLeavesTheBlockIdleAndEveryLineLow : Obligations.ResetLeavesTheBlockIdleAndEveryLineLow :=
  ⟨rfl, rfl, statusWord_idle rfl, level_zero, fun _ hi => regValue_len_zeros _ hi, rfl, rfl, rfl, rfl, rfl, rfl⟩

/-- `rst` is taken in beside nothing else, with a driver call in progress or without one (R192). -/
theorem step_reset {s : State} {rest : List Stimulus} (hs : s.stimuli = .reset :: rest) :
    step s = .next (State.resetCycle { s with stimuli := rest }) := by
  by_cases hc : s.drv.stage = .idle
  · rw [step_stimulus hs hc]
    rfl
  · rw [step_eq, State.fetch, hs]
    simp only [if_neg hc]
    rfl

/-- Settles O48: the state that the cycle of `rst` leaves. -/
theorem resetDuringATransmission : Obligations.ResetDuringATransmission := fun _ _ hs =>
  ⟨_, step_reset hs, rfl, rfl, statusWord_idle rfl, level_zero, rfl, rfl, resetCycle_params _, rfl, rfl, rfl, rfl⟩

/-- R191: a START that breaks none of R117's conditions, before the host has written both operands. -/
theorem startRefusal_operands {s : State} {pin : Pin} {r : Bool} (hi : s.blk.phase = .idle)
    (hp : pin.toNat < s.params.npins) (ht : s.timingLegal r = true)
    (hf : fitsSpace s.blk.buf s.blk.len.toNat = true) (hw : s.bufWritten = false ∨ s.lenWritten = false) :
    s.startRefusal pin r = some .operandsNotWritten := by
  simp [State.startRefusal, busy_false_iff.2 hi, Nat.not_le.2 hp, ht, hf, hw]

/-- Settles O16: the last of the reasons to refuse, at either rate. -/
theorem startBeforeTheOperandsIsRefused : Obligations.StartBeforeTheOperandsIsRefused := fun _ _ hi hp hf hw =>
  ⟨fun ht => start_refused (startRefusal_operands hi hp ht hf hw),
    fun ht => start_refused (startRefusal_operands hi hp ht hf hw)⟩

end Sys2Proof.Machine
end
